-- ==== Sys2Proof/Word.lean ====
section
/-! DEFINITION. The word types of the block and the layout of a binary32 value.

Widths: the operation word (R40, R52), the note operand (R55), a binary32 value (R11, R41), the byte of a byte-wide
medium (R41); the closed enumerations of R12. -/

namespace Sys2Proof

/-- A binary32 value, held as its 32-bit pattern: sign 31, biased exponent 30:23, fraction 22:0 (R41). -/
abbrev F32 := BitVec 32

/-- An operation word, transferred whole on `op_word[63:0]` (R40). -/
abbrev OpWord := BitVec 64

/-- A note number, 0 to 127 (R55). -/
abbrev Note := BitVec 7

/-- One byte of a byte-wide medium (R41). -/
abbrev Byte := BitVec 8

/-- The index of a voice, its identity in the pool of `N_VOICES = 16` (R8, R19). -/
abbrev VoiceIx := Fin 16

/-- "Waveform: closed enumeration" (R12). -/
inductive Waveform where
  | sine | square | triangle | sawtooth | noise
  deriving DecidableEq, Repr

/-- "FilterMode: closed enumeration" (R12). -/
inductive FilterMode where
  | lowpass | highpass | bandpass
  deriving DecidableEq, Repr

/-- "EnvelopeStage: enumeration" (R12): a voice's life phase, and the stage a SET_ENV word names (R88). -/
inductive Stage where
  | idle | attack | decay | sustain | release
  deriving DecidableEq, Repr

namespace F32

/-- Exponent and fraction together, the 31 bits below the sign. -/
def mag (x : F32) : Nat := x.toNat % 2 ^ 31

/-- Bit 31. -/
def sign (x : F32) : Bool := decide (2 ^ 31 ≤ x.toNat)

/-- The magnitude pattern of an infinity: exponent 255, fraction 0. -/
def infMag : Nat := 0x7F800000

/-- The value with this sign and this 31-bit magnitude pattern. -/
def ofMag (s : Bool) (m : Nat) : F32 := BitVec.ofNat 32 (if s then 2 ^ 31 + m else m)

def zero : F32 := 0x00000000#32
def negZero : F32 := 0x80000000#32
def one : F32 := 0x3F800000#32
def negOne : F32 := 0xBF800000#32

end F32
end Sys2Proof
end

