-- ==== Sys2Proof/Syntax.lean ====
section
/-! DEFINITION. The instructions: one constructor per row of the opcode map (R59, spec/opcode_table.json). Operands are
typed by their fields: a note has 7 bits (R55), an f32 operand 32 (R56). -/

namespace Sys2Proof

inductive Instr where
  | noteOn (n : Note)
  | noteOff (n : Note)
  | setEnvIdle (x : F32)
  | setEnvAttack (x : F32)
  | setEnvDecay (x : F32)
  | setEnvSustain (x : F32)
  | setEnvRelease (x : F32)
  | setWaveSine
  | setWaveSquare
  | setWaveTriangle
  | setWaveSawtooth
  | setWaveNoise
  | setFmodeLp
  | setFmodeHp
  | setFmodeBp
  | setCutoff (x : F32)
  | setRes (x : F32)
  | setSrate (x : F32)
  | sample
  deriving DecidableEq, Repr

end Sys2Proof
end

