-- ==== Sys2Proof/Decode.lean ====
section
/-! DEFINITION. The operation word: fields (R53), formats (R54), enumeration codes (R57), decoding (R60), the
reserved space by name (R61), the encoder, the opcode map (R59), and the byte order of a byte-wide medium (R41). -/

namespace Sys2Proof

/-! ### Codes (R57) -/

/-- The code of an envelope stage: the ARG of SET_ENV and the encoding of the stage register (R12, R57). -/
def Stage.code : Stage → BitVec 8
  | .idle => 0x00#8 | .attack => 0x01#8 | .decay => 0x02#8 | .sustain => 0x03#8 | .release => 0x04#8

/-- The code of a waveform (R12, R57). -/
def Waveform.code : Waveform → BitVec 8
  | .sine => 0x00#8 | .square => 0x01#8 | .triangle => 0x02#8 | .sawtooth => 0x03#8 | .noise => 0x04#8

/-- The code of a filter mode (R12, R57). -/
def FilterMode.code : FilterMode → BitVec 8
  | .lowpass => 0x00#8 | .highpass => 0x01#8 | .bandpass => 0x02#8

/-- The stage with this code; the codes 0x05 to 0xFF are reserved (R57). -/
def Stage.ofCode (b : BitVec 8) : Option Stage :=
  if b = 0x00#8 then some .idle
  else if b = 0x01#8 then some .attack
  else if b = 0x02#8 then some .decay
  else if b = 0x03#8 then some .sustain
  else if b = 0x04#8 then some .release
  else none

/-- The waveform with this code; the codes 0x05 to 0xFF are reserved (R57). -/
def Waveform.ofCode (b : BitVec 8) : Option Waveform :=
  if b = 0x00#8 then some .sine
  else if b = 0x01#8 then some .square
  else if b = 0x02#8 then some .triangle
  else if b = 0x03#8 then some .sawtooth
  else if b = 0x04#8 then some .noise
  else none

/-- The filter mode with this code; the codes 0x03 to 0xFF are reserved (R57). -/
def FilterMode.ofCode (b : BitVec 8) : Option FilterMode :=
  if b = 0x00#8 then some .lowpass
  else if b = 0x01#8 then some .highpass
  else if b = 0x02#8 then some .bandpass
  else none

/-! ### Fields (R53) -/

namespace OpWord

/-- `OPC = w[63:56]`, the operation class. -/
def opc (w : OpWord) : BitVec 8 := w.extractLsb' 56 8
/-- `PID = w[55:48]`, the parameter kind of format P. -/
def pid (w : OpWord) : BitVec 8 := w.extractLsb' 48 8
/-- `ARG = w[47:40]`, the enumerated operand of format P. -/
def arg (w : OpWord) : BitVec 8 := w.extractLsb' 40 8
/-- `RSV = w[39:32]`, must be zero in format P. -/
def rsv (w : OpWord) : BitVec 8 := w.extractLsb' 32 8
/-- `VAL = w[31:0]`, the f32 operand of format P. -/
def val (w : OpWord) : F32 := w.extractLsb' 0 32
/-- `NOTE = w[6:0]`, the note operand of format N. -/
def noteField (w : OpWord) : Note := w.extractLsb' 0 7
/-- `w[55:7]`, must be zero in format N. -/
def zeroN (w : OpWord) : BitVec 49 := w.extractLsb' 7 49
/-- `w[55:0]`, must be zero in format S. -/
def zeroS (w : OpWord) : BitVec 56 := w.extractLsb' 0 56

end OpWord

/-! ### Decoding (R60, R61) -/

/-- Why a word is reserved (R61), one name for each part of the reserved space. Every one is ignored (R134). -/
inductive Reserved where
  /-- OPC 0x00 or 0x05 to 0xFF. -/
  | opcReserved
  /-- OPC 0x01 or 0x02 with a bit of `w[55:7]` set. -/
  | noteBitsNonzero
  /-- OPC 0x04 with a bit of `w[55:0]` set. -/
  | sampleBitsNonzero
  /-- OPC 0x03 with RSV ≠ 0. -/
  | rsvNonzero
  /-- PID 0x06 to 0xFF. -/
  | pidReserved
  /-- SET_ENV with an ARG beyond 0x04. -/
  | stageReserved
  /-- SET_WAVE with an ARG beyond 0x04. -/
  | waveformReserved
  /-- SET_FMODE with an ARG beyond 0x02. -/
  | modeReserved
  /-- SET_CUTOFF, SET_RES or SET_SRATE with ARG ≠ 0. -/
  | argNonzero
  /-- SET_WAVE or SET_FMODE with VAL ≠ 0. -/
  | valNonzero
  deriving DecidableEq, Repr

/-- SET_ENV of a stage, one instruction per stage code (R59). -/
def Instr.setEnv (x : F32) : Stage → Instr
  | .idle => .setEnvIdle x
  | .attack => .setEnvAttack x
  | .decay => .setEnvDecay x
  | .sustain => .setEnvSustain x
  | .release => .setEnvRelease x

/-- SET_WAVE of a waveform, one instruction per code (R59). -/
def Instr.setWave : Waveform → Instr
  | .sine => .setWaveSine
  | .square => .setWaveSquare
  | .triangle => .setWaveTriangle
  | .sawtooth => .setWaveSawtooth
  | .noise => .setWaveNoise

/-- SET_FMODE of a filter mode, one instruction per code (R59). -/
def Instr.setFmode : FilterMode → Instr
  | .lowpass => .setFmodeLp
  | .highpass => .setFmodeHp
  | .bandpass => .setFmodeBp

/-- The instruction of an enumerated operand, unless its code is reserved or a VAL that must be zero is not. -/
def decodeEnum {α : Type} (code : Option α) (reserved : Reserved) (mk : α → Instr) : Except Reserved Instr :=
  match code with
  | some a => .ok (mk a)
  | none   => .error reserved

/-- Format P, OPC 0x03 (R54, R58, R60). -/
def decodeParam (w : OpWord) : Except Reserved Instr :=
  if w.rsv ≠ 0 then .error .rsvNonzero
  else if w.pid = 0x00#8 then decodeEnum (Stage.ofCode w.arg) .stageReserved (Instr.setEnv w.val)
  else if w.pid = 0x01#8 then
    if w.val = 0 then decodeEnum (Waveform.ofCode w.arg) .waveformReserved Instr.setWave else .error .valNonzero
  else if w.pid = 0x02#8 then
    if w.val = 0 then decodeEnum (FilterMode.ofCode w.arg) .modeReserved Instr.setFmode else .error .valNonzero
  else if w.pid = 0x03#8 then if w.arg = 0 then .ok (.setCutoff w.val) else .error .argNonzero
  else if w.pid = 0x04#8 then if w.arg = 0 then .ok (.setRes w.val) else .error .argNonzero
  else if w.pid = 0x05#8 then if w.arg = 0 then .ok (.setSrate w.val) else .error .argNonzero
  else .error .pidReserved

/-- "Decoding, as a total function on every 64-bit word" (R60). -/
def decode (w : OpWord) : Except Reserved Instr :=
  if w.opc = 0x01#8 then if w.zeroN = 0 then .ok (.noteOn w.noteField) else .error .noteBitsNonzero
  else if w.opc = 0x02#8 then if w.zeroN = 0 then .ok (.noteOff w.noteField) else .error .noteBitsNonzero
  else if w.opc = 0x04#8 then if w.zeroS = 0 then .ok .sample else .error .sampleBitsNonzero
  else if w.opc = 0x03#8 then decodeParam w
  else .error .opcReserved

/-- The instruction the decoder reads from a word of `nbits` bits, every bit above them 0. -/
def decodeTableWord (nbits w : Nat) : Option Instr := (decode (BitVec.ofNat 64 (w % 2 ^ nbits))).toOption

/-! ### Encoding (R54) -/

/-- Format N: OPC, 49 zero bits, NOTE (R54). -/
def formatN (opc : BitVec 8) (n : Note) : OpWord := opc ++ 0#49 ++ n

/-- Format P: OPC = 0x03, PID, ARG, RSV = 0, VAL (R54). -/
def formatP (pid arg : BitVec 8) (val : F32) : OpWord := 0x03#8 ++ pid ++ arg ++ 0#8 ++ val

/-- Format S: OPC = 0x04, 56 zero bits (R54). -/
def formatS : OpWord := 0x04#8 ++ 0#56

/-- The word of an instruction (R54, R57, R58). -/
def encode : Instr → OpWord
  | .noteOn n        => formatN 0x01#8 n
  | .noteOff n       => formatN 0x02#8 n
  | .setEnvIdle x    => formatP 0x00#8 Stage.idle.code x
  | .setEnvAttack x  => formatP 0x00#8 Stage.attack.code x
  | .setEnvDecay x   => formatP 0x00#8 Stage.decay.code x
  | .setEnvSustain x => formatP 0x00#8 Stage.sustain.code x
  | .setEnvRelease x => formatP 0x00#8 Stage.release.code x
  | .setWaveSine     => formatP 0x01#8 Waveform.sine.code 0
  | .setWaveSquare   => formatP 0x01#8 Waveform.square.code 0
  | .setWaveTriangle => formatP 0x01#8 Waveform.triangle.code 0
  | .setWaveSawtooth => formatP 0x01#8 Waveform.sawtooth.code 0
  | .setWaveNoise    => formatP 0x01#8 Waveform.noise.code 0
  | .setFmodeLp      => formatP 0x02#8 FilterMode.lowpass.code 0
  | .setFmodeHp      => formatP 0x02#8 FilterMode.highpass.code 0
  | .setFmodeBp      => formatP 0x02#8 FilterMode.bandpass.code 0
  | .setCutoff x     => formatP 0x03#8 0 x
  | .setRes x        => formatP 0x04#8 0 x
  | .setSrate x      => formatP 0x05#8 0 x
  | .sample          => formatS

/-! ### The opcode map (R59) -/

/-- A row of the opcode map: "a word w is the row's instruction iff `(w & mask) == match`" (R59). -/
structure OpRow where
  bits : OpWord
  mask : OpWord
  deriving DecidableEq, Repr

/-- The row matches the word (R59). -/
def OpRow.isMatch (r : OpRow) (w : OpWord) : Bool := decide (w &&& r.mask = r.bits)

/-- The row of an instruction, as R59 prints it. -/
def Instr.row : Instr → OpRow
  | .noteOn _        => ⟨0x0100000000000000#64, 0xFFFFFFFFFFFFFF80#64⟩
  | .noteOff _       => ⟨0x0200000000000000#64, 0xFFFFFFFFFFFFFF80#64⟩
  | .setEnvIdle _    => ⟨0x0300000000000000#64, 0xFFFFFFFF00000000#64⟩
  | .setEnvAttack _  => ⟨0x0300010000000000#64, 0xFFFFFFFF00000000#64⟩
  | .setEnvDecay _   => ⟨0x0300020000000000#64, 0xFFFFFFFF00000000#64⟩
  | .setEnvSustain _ => ⟨0x0300030000000000#64, 0xFFFFFFFF00000000#64⟩
  | .setEnvRelease _ => ⟨0x0300040000000000#64, 0xFFFFFFFF00000000#64⟩
  | .setWaveSine     => ⟨0x0301000000000000#64, 0xFFFFFFFFFFFFFFFF#64⟩
  | .setWaveSquare   => ⟨0x0301010000000000#64, 0xFFFFFFFFFFFFFFFF#64⟩
  | .setWaveTriangle => ⟨0x0301020000000000#64, 0xFFFFFFFFFFFFFFFF#64⟩
  | .setWaveSawtooth => ⟨0x0301030000000000#64, 0xFFFFFFFFFFFFFFFF#64⟩
  | .setWaveNoise    => ⟨0x0301040000000000#64, 0xFFFFFFFFFFFFFFFF#64⟩
  | .setFmodeLp      => ⟨0x0302000000000000#64, 0xFFFFFFFFFFFFFFFF#64⟩
  | .setFmodeHp      => ⟨0x0302010000000000#64, 0xFFFFFFFFFFFFFFFF#64⟩
  | .setFmodeBp      => ⟨0x0302020000000000#64, 0xFFFFFFFFFFFFFFFF#64⟩
  | .setCutoff _     => ⟨0x0303000000000000#64, 0xFFFFFFFF00000000#64⟩
  | .setRes _        => ⟨0x0304000000000000#64, 0xFFFFFFFF00000000#64⟩
  | .setSrate _      => ⟨0x0305000000000000#64, 0xFFFFFFFF00000000#64⟩
  | .sample          => ⟨0x0400000000000000#64, 0xFFFFFFFFFFFFFFFF#64⟩

/-- The free bits of an instruction's word: its operand, zero-extended to 64 bits (R59, "free field"). -/
def Instr.operand : Instr → OpWord
  | .noteOn n | .noteOff n => n.setWidth 64
  | .setEnvIdle x | .setEnvAttack x | .setEnvDecay x | .setEnvSustain x | .setEnvRelease x => x.setWidth 64
  | .setCutoff x | .setRes x | .setSrate x => x.setWidth 64
  | .setWaveSine | .setWaveSquare | .setWaveTriangle | .setWaveSawtooth | .setWaveNoise => 0
  | .setFmodeLp | .setFmodeHp | .setFmodeBp | .sample => 0

/-! ### A byte-wide medium (R41) -/

/-- Byte `k` of the stream: `op_word[8k+7:8k]` (R41). -/
def OpWord.byte (w : OpWord) (k : Nat) : Byte := w.extractLsb' (8 * k) 8

/-- The eight bytes of a word, "least significant byte first" (R41). -/
def OpWord.toBytes (w : OpWord) : List Byte :=
  [w.byte 0, w.byte 1, w.byte 2, w.byte 3, w.byte 4, w.byte 5, w.byte 6, w.byte 7]

/-- The word at the head of a byte stream and the rest of it; fewer than eight bytes are no word: "the block has no
behaviour for a partial word" (R42). -/
def OpWord.ofBytes : List Byte → Option (OpWord × List Byte)
  | b0 :: b1 :: b2 :: b3 :: b4 :: b5 :: b6 :: b7 :: rest =>
    some (b7 ++ b6 ++ b5 ++ b4 ++ b3 ++ b2 ++ b1 ++ b0, rest)
  | _ => none

/-- The words of a byte stream, at most `fuel` of them, and the bytes left over. -/
def wordsOfBytes : (fuel : Nat) → List Byte → List OpWord × List Byte
  | 0, bs => ([], bs)
  | fuel + 1, bs =>
    match OpWord.ofBytes bs with
    | none => ([], bs)
    | some (w, rest) => (w :: (wordsOfBytes fuel rest).1, (wordsOfBytes fuel rest).2)

end Sys2Proof
end

