-- ==== Sys2Proof/Config.lean ====
section
/-! DEFINITION. What an implementation of the block fixes (the parameters of R8), and the values the spec leaves
open.

The parameters are one plain record with the spec's defaults. The functions among them, `sin_f32` and `exp2_f32`, are
named by plain data: the default (correctly rounded), or "implementation number k", a free function without a body. A
statement for every configuration is therefore a statement for every sine and every 2^x. -/

namespace Sys2Proof

/-- Which function an implementation uses for `sin_f32` or `exp2_f32` (R8, D4, D5). -/
inductive FnChoice where
  /-- The default of the spec: the correctly rounded function. -/
  | correctlyRounded
  /-- Another implementation: a free function, number `k`. -/
  | implementation (k : Nat)
  deriving DecidableEq, Repr

/-- Where the pitch map of an implementation comes from (D5): an `exp2_f32`, or "a 128-entry table of `note_freq`", free
table number `k`. -/
inductive PitchChoice where
  | exp2 (f : FnChoice)
  | table (k : Nat)
  deriving DecidableEq, Repr

/-- The rows of R8 that a model takes as an argument. -/
structure Config where
  sampleRateInit : F32
  attackInit     : F32
  decayInit      : F32
  sustainInit    : F32
  releaseInit    : F32
  cutoffInit     : F32
  resonanceInit  : F32
  fbMax          : F32
  sinFn          : FnChoice
  pitchFn        : PitchChoice
  deriving DecidableEq, Repr

/-- The defaults of R8 (D4, D5, D8, D12). -/
def Config.default : Config where
  sampleRateInit := 0x472C4400#32   -- 44100.0
  attackInit     := 0x3C23D70A#32   -- 0.01
  decayInit      := 0x3DCCCCCD#32   -- 0.1
  sustainInit    := 0x3F333333#32   -- 0.7
  releaseInit    := 0x3E4CCCCD#32   -- 0.2
  cutoffInit     := 0x3F7D70A4#32   -- 0.99
  resonanceInit  := 0x00000000#32   -- 0.0
  fbMax          := 0x407F5C29#32   -- 3.99
  sinFn          := .correctlyRounded
  pitchFn        := .exp2 .correctlyRounded

/-- `T_MIN` = 0.000001 (R8). -/
def Config.tMin : F32 := 0x358637BD#32
/-- `T_MAX` = 10.0 (R8). -/
def Config.tMax : F32 := 0x41200000#32
/-- `C_MIN` = 0.01 (R8). -/
def Config.cMin : F32 := 0x3C23D70A#32
/-- `C_MAX` = 0.99 (R8). -/
def Config.cMax : F32 := 0x3F7D70A4#32
/-- `TAU`, the binary32 value nearest to 2π (R11). -/
def Config.tau : F32 := 0x40C90FDB#32
/-- `FREQ_INIT` = 0.0 (R8). -/
def Config.freqInit : F32 := 0x00000000#32
/-- `WAVE_INIT` = Sine (R8). -/
def Config.waveInit : Waveform := .sine
/-- `FMODE_INIT` = Lowpass (R8). -/
def Config.fmodeInit : FilterMode := .lowpass

/-- The operations whose result can be a NaN: the arithmetic of R11 and the two configuration functions. -/
inductive FOp where
  | add | mul | div | fmod | sin | exp2
  deriving DecidableEq, Repr

/-- FREE VALUE (log entry 4): sign (bit 22) and payload (bits 21:0) of a NaN result, "not specified" (R11). A function
of the operation and its operands; the second operand of a function of one argument is 0. -/
opaque Config.nanBits : FOp → F32 → F32 → BitVec 23

/-- FREE VALUE (log entry 3): the draw of voice `i` in the SAMPLE with this number, as a sign and a magnitude pattern
of at most 0x3F800000 (1.0): every binary32 value d with -1.0 <= d <= 1.0, and no other (R72). -/
opaque Config.noise : Nat → VoiceIx → Bool × Fin 0x3F800001

/-- FREE VALUE (log entry 5): the sine of implementation number `k` (R8, D4). -/
opaque Config.sinImpl : Nat → F32 → F32

/-- FREE VALUE (log entry 5): the 2^x of implementation number `k` (R8, D5). -/
opaque Config.exp2Impl : Nat → F32 → F32

/-- FREE VALUE (log entry 5): the entries of `note_freq` table number `k` (D5). -/
opaque Config.noteTable : Nat → Note → F32

end Sys2Proof
end

