-- ==== Sys2Proof/Machine/Float.lean ====
section
/-! DEFINITION. The binary32 primitives of R11: one exact computation, one rounding to nearest, ties to even,
subnormals kept, nothing fused.

A finite value is an integer number of units of 2^-149, the smallest subnormal. Sums, products, quotients and remainders
are computed exactly on these integers and rounded once by `roundMag`. The four operations are irreducible to the
elaborator only (a proof names one to unfold it); the kernel evaluates them. -/

namespace Sys2Proof.F32

/-- The operand is a NaN. -/
def isNaN (x : F32) : Bool := decide (infMag < mag x)

/-- The operand is an infinity. -/
def isInf (x : F32) : Bool := decide (mag x = infMag)

/-- "true iff x is neither NaN nor an infinity" (R11). -/
def isFinite (x : F32) : Bool := decide (mag x < infMag)

/-- The operand is +0.0 or -0.0. -/
def isZero (x : F32) : Bool := decide (mag x = 0)

/-- The value of a magnitude pattern in units of 2^-149: a subnormal is its fraction, a normal its significand with
the hidden bit, shifted by its exponent (R41). The pattern of an infinity stands for 2^128. -/
def magValue (m : Nat) : Nat :=
  if m / 2 ^ 23 = 0 then m else (2 ^ 23 + m % 2 ^ 23) * 2 ^ (m / 2 ^ 23 - 1)

/-- The value in units of 2^-149, with its sign. -/
def value (x : F32) : Int := if sign x then -(magValue (mag x) : Int) else magValue (mag x)

/-- `num / den` rounded to an integer, to nearest, ties to even. -/
def roundHalfEven (num den : Nat) : Nat :=
  let q := num / den
  let r := num % den
  if 2 * r < den then q else if den < 2 * r then q + 1 else q + q % 2

/-- How many binary places are dropped from a magnitude of `num / den` units: none below 2^24 units, where every
integer number of units is a binary32 value; above, all but 24 significant places. -/
def roundShift (num den : Nat) : Nat := Nat.log2 (num / den) - 23

/-- The magnitude pattern nearest to `num / den` units of 2^-149, ties to even (R11). Adding the rounded significand
to the shifted exponent lets a carry out of the fraction step the exponent; what reaches 2^128 is an infinity. -/
def roundMag (num den : Nat) : Nat :=
  let k := roundShift num den
  min (k * 2 ^ 23 + roundHalfEven num (den * 2 ^ k)) infMag

/-- A quiet NaN from its sign and payload bits: exponent 255 and the quiet bit set (R11). -/
def quietNaN (b : BitVec 23) : F32 := b.extractLsb' 22 1 ++ 0x1FF#9 ++ b.extractLsb' 0 22

/-- The NaN an operation gives: sign and payload free (R11). -/
def nanOf (op : FOp) (a b : F32) : F32 := quietNaN (Config.nanBits op a b)

/-- The other sign, same magnitude. -/
def negate (x : F32) : F32 := ofMag (!sign x) (mag x)

/-- `add32` (R11). A sum that is exactly zero is +0.0, unless both operands are -0.0. -/
@[irreducible] def add (a b : F32) : F32 :=
  if isNaN a || isNaN b then nanOf .add a b
  else if isInf a then (if isInf b && sign a != sign b then nanOf .add a b else a)
  else if isInf b then b
  else
    let v := value a + value b
    if v = 0 then ofMag (sign a && sign b) 0
    else ofMag (decide (v < 0)) (roundMag v.natAbs 1)

/-- `sub32` (R11): the sum with the negated second operand. -/
def sub (a b : F32) : F32 := add a (negate b)

/-- `mul32` (R11). -/
@[irreducible] def mul (a b : F32) : F32 :=
  let s := sign a != sign b
  if isNaN a || isNaN b then nanOf .mul a b
  else if isInf a || isInf b then (if isZero a || isZero b then nanOf .mul a b else ofMag s infMag)
  else ofMag s (roundMag (magValue (mag a) * magValue (mag b)) (2 ^ 149))

/-- `div32` (R11). -/
@[irreducible] def div (a b : F32) : F32 :=
  let s := sign a != sign b
  if isNaN a || isNaN b then nanOf .div a b
  else if isInf a then (if isInf b then nanOf .div a b else ofMag s infMag)
  else if isInf b then ofMag s 0
  else if isZero b then (if isZero a then nanOf .div a b else ofMag s infMag)
  else ofMag s (roundMag (magValue (mag a) * 2 ^ 149) (magValue (mag b)))

/-- `fmod32` (R11): "the IEEE 754 remainder with the sign of x (C `fmodf`), which is exact". -/
@[irreducible] def fmod (x y : F32) : F32 :=
  if isNaN x || isNaN y || isInf x || isZero y then nanOf .fmod x y
  else if isInf y then x
  else ofMag (sign x) (roundMag (magValue (mag x) % magValue (mag y)) 1)

/-- `i2f32` (R11): the exact binary32 value of an integer of magnitude below 2^24. -/
def ofInt (n : Int) : F32 := ofMag (decide (n < 0)) (roundMag (n.natAbs * 2 ^ 149) 1)

end Sys2Proof.F32
end

