-- ==== Sys2Proof/Machine/Elementary.lean ====
section
/-! DEFINITION. The configuration functions `sin_f32` and `exp2_f32` (R8, R11): the default of each is the correctly
rounded function of its binary32 argument (D4, D5).

The defaults are computed in fixed point, far more precisely than any binary32 rounding can need, and rounded once by
`roundMag` (log entry 5 gives the error bounds). -/

namespace Sys2Proof.F32

/-- Fraction bits of the fixed-point sine. -/
def sinBits : Nat := 448

/-- 2π with 448 fraction bits, rounded down. -/
def twoPiFixed : Nat :=
  0x6487ed5110b4611a62633145c06e0e68948127044533e63a0105df531d89cd9128a5043cc71a026ef7ca8cd9e69d218d98158536f92f8a1ba

/-- The sum of the sine series from the term `t` of degree `2j - 1` on, `n` terms, signs alternating: `r2` is the
square of the angle, all with 448 fraction bits. -/
def sinSeries (r2 : Nat) : (n j t : Nat) → Int
  | 0, _, _ => 0
  | n + 1, j, t => (t : Int) - sinSeries r2 n (j + 1) (t * r2 / 2 ^ sinBits / (2 * j * (2 * j + 1)))

/-- The sine of an angle of `x` units of 2^-448, in the same units: reduced by 2π, then 64 terms of the series. -/
def sinFixed (x : Nat) : Int :=
  let r := x % twoPiFixed
  sinSeries (r * r / 2 ^ sinBits) 64 1 r

/-- The default `sin_f32` (D4): "the correctly rounded sine of the binary32 argument". A zero is its own sine, with its
sign; an infinity has none. -/
@[irreducible] def sinRounded (x : F32) : F32 :=
  if isNaN x || isInf x then nanOf .sin x 0#32
  else if isZero x then x
  else
    let v := sinFixed (magValue (mag x) * 2 ^ (sinBits - 149))
    ofMag (sign x != decide (v < 0)) (roundMag (v.natAbs * 2 ^ 149) (2 ^ sinBits))

/-- Fraction bits of the fixed-point 2^x. -/
def exp2Bits : Nat := 256

/-- ln 2 with 256 fraction bits, rounded down. -/
def ln2Fixed : Nat := 0xb17217f7d1cf79abc9e3b39803f2f6af40f343267298b62d8a0d175b8baafa2b

/-- The sum of the exponential series from the term `t` of degree `j - 1` on, `n` terms, with 256 fraction bits. -/
def expSeries (y : Nat) : (n j t : Nat) → Nat
  | 0, _, _ => 0
  | n + 1, j, t => t + expSeries y n (j + 1) (t * y / 2 ^ exp2Bits / j)

/-- 2^f for a fraction of `f` units of 2^-149, `f < 2^149`, with 256 fraction bits. -/
def exp2Fixed (f : Nat) : Nat := expSeries (f * ln2Fixed / 2 ^ 149) 64 1 (2 ^ exp2Bits)

/-- The default `exp2_f32` (D5): correctly rounded 2^x. With x = i + f, i an integer and 0 <= f < 1, the result is
2^i * 2^f; from i = 128 on it overflows, below i = -150 it is below half of the smallest subnormal. -/
@[irreducible] def exp2Rounded (x : F32) : F32 :=
  if isNaN x then nanOf .exp2 x 0#32
  else
    let i := value x / 2 ^ 149
    let f := (value x % 2 ^ 149).toNat
    if 128 ≤ i then ofMag false infMag
    else if i < -150 then ofMag false 0
    else ofMag false (roundMag (exp2Fixed f * 2 ^ (i + 150).toNat) (2 ^ (exp2Bits + 1)))

end Sys2Proof.F32

namespace Sys2Proof

/-- `sin_f32` of the configuration (R8). -/
def Config.sin32 (c : Config) (x : F32) : F32 :=
  match c.sinFn with
  | .correctlyRounded => F32.sinRounded x
  | .implementation k => Config.sinImpl k x

/-- `exp2_f32` as an implementation chooses it (R8). -/
def FnChoice.exp232 (f : FnChoice) (x : F32) : F32 :=
  match f with
  | .correctlyRounded => F32.exp2Rounded x
  | .implementation k => Config.exp2Impl k x

end Sys2Proof
end

