-- ==== Sys2Proof/Machine/Flags.lean ====
section
/-! DEFINITION. The block has no status flags, condition codes or predicates (R17), so there is no flag to compute.
What a rule tests it tests on the spot, by the IEEE 754 comparisons of R11, which this file holds. -/

namespace Sys2Proof.F32

/-- `a < b`: "Any comparison with a NaN operand is false; `+0.0 == -0.0` is true" (R11). -/
def lt (a b : F32) : Bool := !isNaN a && !isNaN b && decide (value a < value b)

/-- `a <= b` (R11). -/
def le (a b : F32) : Bool := !isNaN a && !isNaN b && decide (value a ≤ value b)

/-- `a > b` (R11). -/
def gt (a b : F32) : Bool := lt b a

/-- `a >= b` (R11). -/
def ge (a b : F32) : Bool := le b a

/-- `a == b` (R11). -/
def eq (a b : F32) : Bool := !isNaN a && !isNaN b && decide (value a = value b)

end Sys2Proof.F32
end

