-- ==== Sys2Proof/Machine/Operands.lean ====
section
/-! DEFINITION. The operand forms of the operation words, and what the rules do with an operand before it reaches a
register: the note operand (R55), the f32 operand, taken bit for bit (R56), the enumerated operand (R57), the clamp and
the range tests (R11, R140). -/

namespace Sys2Proof

namespace F32

/-- `clamp32(x, lo, hi)` (R11), its comparison form: -0.0 is kept where lo = 0.0, a value at a bound is kept. -/
def clamp (x lo hi : F32) : F32 := if lt x lo then lo else if gt x hi then hi else x

/-- `rem_euclid32(x, 1.0)` (R11). -/
def remEuclidOne (x : F32) : F32 :=
  let r := fmod x one
  if lt r zero then add r one else r

end F32

/-- The note operand as a binary32 value: `i2f32(n)`, exact (R13, R55). -/
def Note.toF32 (n : Note) : F32 := F32.ofInt n.toNat

/-- The sample rates a SET_SRATE word may set: "isfinite(x) and x > 0.0" (R111). -/
def F32.isRate (x : F32) : Bool := F32.isFinite x && F32.gt x F32.zero

/-- One parameter with its value: "param ∈ {EnvelopeStage(stage, value), Waveform(w), FilterMode(m), Cutoff,
Resonance, SampleRate}" (R58, R110). -/
inductive Param where
  | envelopeStage (stage : Stage) (x : F32)
  | waveform (w : Waveform)
  | filterMode (m : FilterMode)
  | cutoff (x : F32)
  | resonance (x : F32)
  | sampleRate (x : F32)
  deriving DecidableEq, Repr

/-- The draw of voice `i` in SAMPLE number `t` as a binary32 value (R72): free in [-1.0, 1.0], never a NaN. -/
def noiseDraw (t : Nat) (i : VoiceIx) : F32 :=
  F32.ofMag (Config.noise t i).1 (Config.noise t i).2.val

/-- The pitch map "440 × 2^((note−69)/12)" (R107): an exact subtraction, one division, `exp2_f32`, one product; or the
entry of a table (D5). -/
def noteFreq (c : Config) (n : Note) : F32 :=
  match c.pitchFn with
  | .exp2 f  => F32.mul 0x43DC0000#32 (f.exp232 (F32.div (F32.sub n.toF32 0x428A0000#32) 0x41400000#32))
  | .table k => Config.noteTable k n

/-- `feedback_of(c, r)`, the derived feedback coefficient, clamped to [0, FB_MAX] (R99). -/
def feedbackOf (c : Config) (cutoff resonance : F32) : F32 :=
  F32.clamp (F32.add resonance (F32.div resonance (F32.sub F32.one cutoff))) F32.zero c.fbMax

end Sys2Proof
end

