-- ==== Sys2Proof/Machine/Registers.lean ====
section
/-! DEFINITION. The registers of one voice, each under the name the spec gives it (R20 to R23): plain data. -/

namespace Sys2Proof.Machine

/-- Oscillator registers `V[i].osc` (R21). -/
structure Osc where
  sampleRate : F32
  frequency  : F32
  phase      : F32
  waveform   : Waveform
  deriving DecidableEq, Repr

/-- Envelope registers `V[i].env`: the nine f32 registers and the stage of R22's table. R36 counts "10 f32 + 3 bits of
envelope state" but lists the same nine; the model holds the nine that are named (DEDUCED, log entry 12). -/
structure Env where
  sampleRate   : F32
  attackTime   : F32
  decayTime    : F32
  sustainLevel : F32
  releaseTime  : F32
  attackRate   : F32
  decayRate    : F32
  releaseRate  : F32
  level        : F32
  stage        : Stage
  deriving DecidableEq, Repr

/-- Filter registers `V[i].flt` (R23). -/
structure Flt where
  cutoff    : F32
  resonance : F32
  feedback  : F32
  mode      : FilterMode
  buf0      : F32
  buf1      : F32
  buf2      : F32
  buf3      : F32
  deriving DecidableEq, Repr

/-- Voice registers `V[i]` (R20) with the three components it owns. -/
structure Voice where
  active : Bool
  note   : Option Note
  osc    : Osc
  env    : Env
  flt    : Flt
  deriving DecidableEq, Repr

/-- The pool `V[0..15]`, "a flat array with index-based identity" (R19). -/
abbrev Pool := Vector Voice 16

end Sys2Proof.Machine
end

