-- ==== Sys2Proof/Machine/Envelope.lean ====
section
/-! DEFINITION. The envelope: ADSR state machine and linear ramp (41_envelope.md, R78 to R95). -/

namespace Sys2Proof.Machine

/-- `env_trigger` (R79): the level is not changed. -/
def Env.trigger (e : Env) : Env := { e with stage := .attack }

/-- `env_release` (R80): the level is not changed. -/
def Env.release (e : Env) : Env := { e with stage := .release }

/-- The step per sample of a stage, `1.0 / rate` (R81). -/
def rampStep (rate : F32) : F32 := F32.div F32.one rate

/-- Attack step (R82). -/
def Env.attackStep (e : Env) : Env :=
  let l := F32.add e.level (rampStep e.attackRate)
  if F32.ge l F32.one then { e with level := F32.one, stage := .decay } else { e with level := l }

/-- Decay step (R83). -/
def Env.decayStep (e : Env) : Env :=
  let l := F32.sub e.level (rampStep e.decayRate)
  if F32.le l e.sustainLevel then { e with level := e.sustainLevel, stage := .sustain } else { e with level := l }

/-- Release step (R85). -/
def Env.releaseStep (e : Env) : Env :=
  let l := F32.sub e.level (rampStep e.releaseRate)
  if F32.le l F32.zero then { e with level := F32.zero, stage := .idle } else { e with level := l }

/-- `env_process` (R81): one step of the current stage; its result is the level after the step. Sustain (R84) and Idle
(R86) change nothing. -/
def Env.process (e : Env) : Env :=
  match e.stage with
  | .attack  => e.attackStep
  | .decay   => e.decayStep
  | .sustain => e
  | .release => e.releaseStep
  | .idle    => e

/-- The time a SET_ENV word stores (R89). -/
def clampTime (x : F32) : F32 := F32.clamp x Config.tMin Config.tMax

/-- `env_set_time(e, attack, v)` (R89). -/
def Env.setAttackTime (e : Env) (x : F32) : Env :=
  { e with attackTime := clampTime x, attackRate := F32.mul (clampTime x) e.sampleRate }

/-- `env_set_time(e, decay, v)` (R89). -/
def Env.setDecayTime (e : Env) (x : F32) : Env :=
  { e with decayTime := clampTime x, decayRate := F32.mul (clampTime x) e.sampleRate }

/-- `env_set_time(e, release, v)` (R89). -/
def Env.setReleaseTime (e : Env) (x : F32) : Env :=
  { e with releaseTime := clampTime x, releaseRate := F32.mul (clampTime x) e.sampleRate }

/-- `env_set_sustain` (R90): the level is not changed. -/
def Env.setSustain (e : Env) (x : F32) : Env := { e with sustainLevel := F32.clamp x F32.zero F32.one }

/-- `env_set_stage_value` (R88): a NaN is ignored; Idle has no settable value (R91). -/
def Env.setStageValue (e : Env) (s : Stage) (x : F32) : Env :=
  if F32.isNaN x then e
  else
    match s with
    | .idle    => e
    | .attack  => e.setAttackTime x
    | .decay   => e.setDecayTime x
    | .release => e.setReleaseTime x
    | .sustain => e.setSustain x

/-- `env_set_sample_rate` (R92): what is not greater than 0.0 is a no-op; otherwise all rates are recomputed. -/
def Env.setSampleRate (e : Env) (sr : F32) : Env :=
  if F32.gt sr F32.zero then
    { e with sampleRate := sr, attackRate := F32.mul e.attackTime sr, decayRate := F32.mul e.decayTime sr,
             releaseRate := F32.mul e.releaseTime sr }
  else e

/-- `env_is_idle` (R93). -/
def Env.isIdle (e : Env) : Bool := decide (e.stage = .idle)

/-- `env_reset` (R94): times, sustain level, rates and sample rate are kept. -/
def Env.reset (e : Env) : Env := { e with stage := .idle, level := F32.zero }

end Sys2Proof.Machine
end

