-- ==== Sys2Proof/Machine/Filter.lean ====
section
/-! DEFINITION. The filter: four one-pole stages with resonance feedback (42_filter.md, R96 to R105). -/

namespace Sys2Proof.Machine

/-- Stage 0 of the cascade, from the old buf0 and buf1: `buf0 + (c * ((x - buf0) + (fb * (buf0 - buf1))))` (R96). -/
def Flt.stage0 (f : Flt) (x : F32) : F32 :=
  F32.add f.buf0
    (F32.mul f.cutoff (F32.add (F32.sub x f.buf0) (F32.mul f.feedback (F32.sub f.buf0 f.buf1))))

/-- A later stage: `buf + (c * (prev - buf))`, from the new value of the stage before it (R96). -/
def onePole (c prev buf : F32) : F32 := F32.add buf (F32.mul c (F32.sub prev buf))

/-- The four buffer updates of `flt_process`, in order (R96). -/
def Flt.cascade (f : Flt) (x : F32) : Flt :=
  let b0 := f.stage0 x
  let b1 := onePole f.cutoff b0 f.buf1
  let b2 := onePole f.cutoff b1 f.buf2
  let b3 := onePole f.cutoff b2 f.buf3
  { f with buf0 := b0, buf1 := b1, buf2 := b2, buf3 := b3 }

/-- `flt_tap`: "Lowpass→buf3, Highpass→input−buf3, Bandpass→buf0−buf3" (R98). -/
def fltTap (m : FilterMode) (x b0 b3 : F32) : F32 :=
  match m with
  | .lowpass  => b3
  | .highpass => F32.sub x b3
  | .bandpass => F32.sub b0 b3

/-- `flt_process` (R96): a zero input is returned, with its sign, and changes nothing (R97). -/
def Flt.process (f : Flt) (x : F32) : Flt × F32 :=
  if F32.eq x F32.zero then (f, x)
  else (f.cascade x, fltTap f.mode x (f.cascade x).buf0 (f.cascade x).buf3)

/-- `flt_set_cutoff` (R100): the buffers are not changed. -/
def Flt.setCutoff (c : Config) (f : Flt) (x : F32) : Flt :=
  if F32.isNaN x then f
  else
    { f with cutoff := F32.clamp x Config.cMin Config.cMax,
             feedback := feedbackOf c (F32.clamp x Config.cMin Config.cMax) f.resonance }

/-- `flt_set_resonance` (R101): the buffers are not changed. -/
def Flt.setResonance (c : Config) (f : Flt) (x : F32) : Flt :=
  if F32.isNaN x then f
  else
    { f with resonance := F32.clamp x F32.zero F32.one,
             feedback := feedbackOf c f.cutoff (F32.clamp x F32.zero F32.one) }

/-- `flt_set_mode` (R102). -/
def Flt.setMode (f : Flt) (m : FilterMode) : Flt := { f with mode := m }

/-- `flt_reset` (R103): cutoff, resonance, feedback and mode are kept. -/
def Flt.reset (f : Flt) : Flt :=
  { f with buf0 := F32.zero, buf1 := F32.zero, buf2 := F32.zero, buf3 := F32.zero }

end Sys2Proof.Machine
end

