-- ==== Sys2Proof/Machine/Oscillator.lean ====
section
/-! DEFINITION. The oscillator: phase accumulator and waveform select (40_oscillator.md, R66 to R77). -/

namespace Sys2Proof.Machine

/-- The phase accumulator of `osc_tick` (R66): the phase advances by `frequency / sample_rate`, wrapped into [0, 1). -/
def Osc.advance (o : Osc) : Osc :=
  { o with phase := F32.remEuclidOne (F32.add o.phase (F32.div o.frequency o.sampleRate)) }

/-- Sine: one product by TAU, then the configuration function (R68). -/
def oscSine (c : Config) (ph : F32) : F32 := c.sin32 (F32.mul Config.tau ph)

/-- Square: "+1.0 if phase < 0.5 else -1.0" (R69). -/
def oscSquare (ph : F32) : F32 := if F32.lt ph 0x3F000000#32 then F32.one else F32.negOne

/-- Triangle: "4·phase − 1 for phase<0.5, else 3 − 4·phase" (R70). -/
def oscTriangle (ph : F32) : F32 :=
  if F32.lt ph 0x3F000000#32 then F32.sub (F32.mul 0x40800000#32 ph) F32.one
  else F32.sub 0x40400000#32 (F32.mul 0x40800000#32 ph)

/-- Sawtooth: "2·phase − 1" (R71). -/
def oscSaw (ph : F32) : F32 := F32.sub (F32.mul 0x40000000#32 ph) F32.one

/-- The waveform selector (R67); `d` is the noise draw of this tick, which only Noise takes (R72). -/
def oscWave (c : Config) (d : F32) (w : Waveform) (ph : F32) : F32 :=
  match w with
  | .sine     => oscSine c ph
  | .square   => oscSquare ph
  | .triangle => oscTriangle ph
  | .sawtooth => oscSaw ph
  | .noise    => d

/-- `osc_tick` (R66): "The phase is advanced first and the sample is computed from the new phase". -/
def Osc.tick (c : Config) (d : F32) (o : Osc) : Osc × F32 :=
  (o.advance, oscWave c d o.waveform o.advance.phase)

/-- `osc_set_frequency` (R73): a NaN is ignored, anything else clamped to [0, sample_rate/2]. -/
def Osc.setFrequency (o : Osc) (f : F32) : Osc :=
  if F32.isNaN f then o
  else { o with frequency := F32.clamp f F32.zero (F32.div o.sampleRate 0x40000000#32) }

/-- `osc_set_waveform` (R74). -/
def Osc.setWaveform (o : Osc) (w : Waveform) : Osc := { o with waveform := w }

/-- `osc_set_sample_rate` (R75): what is not greater than 0.0 is a no-op. -/
def Osc.setSampleRate (o : Osc) (sr : F32) : Osc :=
  if F32.gt sr F32.zero then { o with sampleRate := sr } else o

/-- `osc_reset` (R76). -/
def Osc.reset (o : Osc) : Osc := { o with phase := F32.zero }

end Sys2Proof.Machine
end

