-- ==== Sys2Proof/Machine/Voice.lean ====
section
/-! DEFINITION. The voice: one oscillator, one envelope, one filter and the note lifetime (43_voice.md, R106 to
R112), and the construction of a voice at reset (R153). -/

namespace Sys2Proof.Machine

/-- Deactivation: only `active` and `note` are written (R106). -/
def Voice.deactivate (v : Voice) : Voice := { v with active := false, note := none }

/-- The sounding branch of `voice_process` (R106): tick, envelope step, filter; `d` is the draw of this tick. -/
def Voice.sound (c : Config) (d : F32) (v : Voice) : Voice × F32 :=
  let tick := v.osc.tick c d
  let env := v.env.process
  let flt := v.flt.process (F32.mul tick.2 env.level)
  ({ v with osc := tick.1, env := env, flt := flt.1 }, flt.2)

/-- `voice_process` (R106): the voice after one SAMPLE operation, and its output. -/
def Voice.process (c : Config) (d : F32) (v : Voice) : Voice × F32 :=
  if !v.active then (v, F32.zero)
  else if v.env.isIdle then (v.deactivate, F32.zero)
  else v.sound c d

/-- `voice_note_on` (R108). -/
def Voice.noteOn (c : Config) (v : Voice) (n : Note) : Voice :=
  if !v.active then
    { v with osc := v.osc.setFrequency (noteFreq c n), env := v.env.trigger, active := true, note := some n }
  else { v with env := v.env.trigger }

/-- `voice_note_off` (R109): "the note parameter is accepted but unused". -/
def Voice.noteOff (v : Voice) (_n : Note) : Voice := if v.active then { v with env := v.env.release } else v

/-- `voice_reset` (R112): the parameter registers are kept. -/
def Voice.reset (v : Voice) : Voice :=
  { v with active := false, note := none, osc := v.osc.reset, env := v.env.reset, flt := v.flt.reset }

/-- `voice_apply_sample_rate` (R111): an accepted rate silences the voice and reaches its oscillator and envelope. -/
def Voice.applySampleRate (v : Voice) (x : F32) : Voice :=
  if F32.isRate x then
    { v.reset with osc := v.reset.osc.setSampleRate x, env := v.reset.env.setSampleRate x }
  else v

/-- `voice_apply_param` (R110). -/
def Voice.applyParam (c : Config) (v : Voice) (p : Param) : Voice :=
  match p with
  | .envelopeStage s x => { v with env := v.env.setStageValue s x }
  | .waveform w        => { v with osc := v.osc.setWaveform w }
  | .filterMode m      => { v with flt := v.flt.setMode m }
  | .cutoff x          => { v with flt := v.flt.setCutoff c x }
  | .resonance x       => { v with flt := v.flt.setResonance c x }
  | .sampleRate x      => v.applySampleRate x

/-- A voice after `rst` (R153): every register at its reset value. -/
def Voice.construct (c : Config) : Voice where
  active := false
  note   := none
  osc := { sampleRate := c.sampleRateInit, frequency := Config.freqInit, phase := F32.zero
           waveform := Config.waveInit }
  env := { sampleRate := c.sampleRateInit, attackTime := c.attackInit, decayTime := c.decayInit
           sustainLevel := c.sustainInit, releaseTime := c.releaseInit
           attackRate := F32.mul c.attackInit c.sampleRateInit
           decayRate := F32.mul c.decayInit c.sampleRateInit
           releaseRate := F32.mul c.releaseInit c.sampleRateInit
           level := F32.zero, stage := .idle }
  flt := { cutoff := c.cutoffInit, resonance := c.resonanceInit
           feedback := feedbackOf c c.cutoffInit c.resonanceInit, mode := Config.fmodeInit
           buf0 := F32.zero, buf1 := F32.zero, buf2 := F32.zero, buf3 := F32.zero }

end Sys2Proof.Machine
end

