-- ==== Sys2Proof/Machine/State.lean ====
section
/-! DEFINITION. The state of the block, the (empty) reasons it can stop, and the state after reset.

The architectural registers are those of the 16 voices (R19 to R23, R36): "The pool holds no state besides its voices".
Beside them stand the ports of R7 as a step sees them, and two fields of the model's own: the configuration argument
(R8) and the counter that picks the free noise draws (R72). -/

namespace Sys2Proof.Machine

/-- What the host does to the block's input ports between two operations (R7): an operation word is taken, or `rst`
is. -/
inductive PortEvent where
  | word (w : OpWord)
  | rst
  deriving DecidableEq, Repr

/-- The block and its ports. -/
structure State where
  /-- The pool `V[0..15]` (R19). -/
  voices : Pool
  /-- The output transfer of the last step: `smp_valid` and `smp_data` (R7), `out` of R120 to R134. -/
  out : Option F32
  /-- The port events not yet taken, first to be taken first (R45); held by the host (R34), the model's own field. -/
  inbox : List PortEvent
  /-- The model's own: how many SAMPLE operations have been performed; picks the free draws of R72. -/
  noiseTick : Nat
  /-- The model's own: the configuration argument of R8, which no operation changes (R34). -/
  cfg : Config
  deriving DecidableEq, Repr

/-- The reasons the block stops with a fault: none, "The block raises no synchronous exception" (R139). -/
inductive Fault where
  deriving DecidableEq, Repr

/-- The reasons the model has no transition. -/
inductive Refusal where
  /-- Raised by no arm of exec: every instruction of the opcode table has its meaning. Safe. -/
  | notModelled (mnemonic : String)
  deriving DecidableEq, Repr

/-- What an operation word answers. -/
abbrev Result := Host.Outcome State Fault Refusal

/-- The block right after `rst`, with the default configuration (R8, R153): every voice constructed, no output sample,
no word taken yet. -/
def State.reset : State where
  voices := Vector.replicate 16 (Voice.construct Config.default)
  out := none
  inbox := []
  noiseTick := 0
  cfg := Config.default

end Sys2Proof.Machine
end

