-- ==== Sys2Proof/Machine/Ops.lean ====
section
/-! DEFINITION. The operations over the whole pool that the meanings share: note routing (R113 to R116), parameter
broadcast (R118, R119), the output summer (R117), and the block reset (R153).

Taking an exception has no counterpart here: "No trap is ever entered" (R144) and there is "no trap-return operation"
(R145). -/

namespace Sys2Proof.Machine

/-- `for i in 0..15` (R10): the indices in increasing order. -/
def voiceIxs : List VoiceIx := List.finRange 16

/-- Voice `i` of the pool, `V[i]` (R10, R19). -/
def Pool.voice (vs : Pool) (i : VoiceIx) : Voice := vs[i]

/-- The pool in which voice `i` is `f i`. -/
def Pool.build (f : VoiceIx → Voice) : Pool := Vector.ofFn f

/-- Voice `i` is replaced, every other voice kept. -/
def Pool.put (vs : Pool) (i : VoiceIx) (v : Voice) : Pool := Pool.build fun j => if j = i then v else (vs.voice j)

/-- The voice is active and holds note `n`: the test of both scans of R113 and R115. -/
def Voice.holds (v : Voice) (n : Note) : Bool := v.active && decide (v.note = some n)

/-- The first voice, from index 0 up, that is active and holds note `n` (R113, R115). -/
def Pool.holder (vs : Pool) (n : Note) : Option VoiceIx := voiceIxs.find? fun i => (vs.voice i).holds n

/-- The first voice, from index 0 up, that is inactive: "first-fit, no LRU/priority policy" (R113, R116). -/
def Pool.firstFree (vs : Pool) : Option VoiceIx := voiceIxs.find? fun i => !(vs.voice i).active

/-- `vm_note_on` (R113): retrigger first, first-fit allocation second; with no free voice the note is dropped
(R114). -/
def Pool.noteOn (c : Config) (vs : Pool) (n : Note) : Pool :=
  match vs.holder n with
  | some i => vs.put i ((vs.voice i).noteOn c n)
  | none =>
    match vs.firstFree with
    | some i => vs.put i ((vs.voice i).noteOn c n)
    | none   => vs

/-- `vm_note_off` (R115): no holder, no effect. -/
def Pool.noteOff (vs : Pool) (n : Note) : Pool :=
  match vs.holder n with
  | some i => vs.put i ((vs.voice i).noteOff n)
  | none   => vs

/-- `vm_apply_param` (R118): every voice, active or not. -/
def Pool.applyParam (c : Config) (vs : Pool) (p : Param) : Pool := Pool.build fun i => (vs.voice i).applyParam c p

/-- The pool after the 16 `voice_process` calls of one SAMPLE (R117), the one with number `t`. -/
def Pool.advance (c : Config) (t : Nat) (vs : Pool) : Pool :=
  Pool.build fun i => ((vs.voice i).process c (noiseDraw t i)).1

/-- The output of voice `i` in SAMPLE number `t` (R106). -/
def Pool.voiceOut (c : Config) (t : Nat) (vs : Pool) (i : VoiceIx) : F32 := ((vs.voice i).process c (noiseDraw t i)).2

/-- The output summer (R117): "a left fold in that order starting from +0.0", one add32 per voice. -/
def Pool.mix (c : Config) (t : Nat) (vs : Pool) : F32 :=
  voiceIxs.foldl (fun acc i => F32.add acc (vs.voiceOut c t i)) F32.zero

/-- A command word's end: the pool it leaves, and `out <- none` (R120 to R132). -/
def State.command (s : State) (vs : Pool) : State := { s with voices := vs, out := none }

/-- `vm_apply_param` on the block, the shared effect of every SET_* word (R118). -/
def State.applyParam (s : State) (p : Param) : State := s.command (s.voices.applyParam s.cfg p)

/-- `vm_process_voices` on the block (R117, R133): the voices advance and the sum is the output transfer. -/
def State.sample (s : State) : State :=
  { s with voices := s.voices.advance s.cfg s.noiseTick
           out := some (s.voices.mix s.cfg s.noiseTick)
           noiseTick := s.noiseTick + 1 }

/-- `rst` (R153): every voice constructed anew, no output sample. The words still to come are the host's, and the
draws "do not depend on reset" (R154): the model's draw counter goes on. -/
def State.takeReset (s : State) : State := s.command (Pool.build fun _ => Voice.construct s.cfg)

/-- A step that performs no operation word, and a reserved word: no state change, `out <- none` (R134, R152). -/
def State.quiet (s : State) : State := { s with out := none }

/-- `smp_valid` (R7). -/
def State.smpValid (s : State) : Bool := s.out.isSome

end Sys2Proof.Machine
end

