-- ==== Sys2Proof/Machine/EnvelopeCommands.lean ====
section
/-! DEFINITION. The envelope parameter commands, `SetParam(EnvelopeStage(stage, value))` (R123 to R127). -/

namespace Sys2Proof.Machine

/-- SET_ENV.IDLE x (R123): "no state changes for any x, including NaN". -/
def execSetEnvIdle (x : F32) (s : State) : Result := .next (s.applyParam (.envelopeStage .idle x))

/-- SET_ENV.ATTACK x (R124). -/
def execSetEnvAttack (x : F32) (s : State) : Result := .next (s.applyParam (.envelopeStage .attack x))

/-- SET_ENV.DECAY x (R125). -/
def execSetEnvDecay (x : F32) (s : State) : Result := .next (s.applyParam (.envelopeStage .decay x))

/-- SET_ENV.SUSTAIN x (R126). -/
def execSetEnvSustain (x : F32) (s : State) : Result := .next (s.applyParam (.envelopeStage .sustain x))

/-- SET_ENV.RELEASE x (R127). -/
def execSetEnvRelease (x : F32) (s : State) : Result := .next (s.applyParam (.envelopeStage .release x))

end Sys2Proof.Machine
end

