-- ==== Sys2Proof/Machine/FilterCommands.lean ====
section
/-! DEFINITION. The filter coefficient commands (R130, R131). -/

namespace Sys2Proof.Machine

/-- SET_CUTOFF x (R130). -/
def execSetCutoff (x : F32) (s : State) : Result := .next (s.applyParam (.cutoff x))

/-- SET_RES x (R131). -/
def execSetRes (x : F32) (s : State) : Result := .next (s.applyParam (.resonance x))

end Sys2Proof.Machine
end

