-- ==== Sys2Proof/Machine/NoteCommands.lean ====
section
/-! DEFINITION. The note commands (R121, R122). -/

namespace Sys2Proof.Machine

/-- NOTE_ON n (R121). -/
def execNoteOn (n : Note) (s : State) : Result := .next (s.command (s.voices.noteOn s.cfg n))

/-- NOTE_OFF n (R122). -/
def execNoteOff (n : Note) (s : State) : Result := .next (s.command (s.voices.noteOff n))

end Sys2Proof.Machine
end

