-- ==== Sys2Proof/Machine/SampleCommands.lean ====
section
/-! DEFINITION. The sample-rate command (R132) and the sample request (R133). -/

namespace Sys2Proof.Machine

/-- SET_SRATE x (R132). -/
def execSetSrate (x : F32) (s : State) : Result := .next (s.applyParam (.sampleRate x))

/-- SAMPLE (R133). -/
def execSample (s : State) : Result := .next s.sample

end Sys2Proof.Machine
end

