-- ==== Sys2Proof/Machine/SelectorCommands.lean ====
section
/-! DEFINITION. The selector commands: SET_WAVE, one definition per waveform (R128), and SET_FMODE, one per filter
mode (R129). -/

namespace Sys2Proof.Machine

/-- SET_WAVE.SINE (R128). -/
def execSetWaveSine (s : State) : Result := .next (s.applyParam (.waveform .sine))

/-- SET_WAVE.SQUARE (R128). -/
def execSetWaveSquare (s : State) : Result := .next (s.applyParam (.waveform .square))

/-- SET_WAVE.TRIANGLE (R128). -/
def execSetWaveTriangle (s : State) : Result := .next (s.applyParam (.waveform .triangle))

/-- SET_WAVE.SAWTOOTH (R128). -/
def execSetWaveSawtooth (s : State) : Result := .next (s.applyParam (.waveform .sawtooth))

/-- SET_WAVE.NOISE (R128). -/
def execSetWaveNoise (s : State) : Result := .next (s.applyParam (.waveform .noise))

/-- SET_FMODE.LP (R129). -/
def execSetFmodeLp (s : State) : Result := .next (s.applyParam (.filterMode .lowpass))

/-- SET_FMODE.HP (R129). -/
def execSetFmodeHp (s : State) : Result := .next (s.applyParam (.filterMode .highpass))

/-- SET_FMODE.BP (R129). -/
def execSetFmodeBp (s : State) : Result := .next (s.applyParam (.filterMode .bandpass))

end Sys2Proof.Machine
end

