-- ==== Sys2Proof/Machine/Dispatch.lean ====
section
/-! DEFINITION. One arm per instruction: which meaning it has (R120). -/

namespace Sys2Proof.Machine

def exec (i : Instr) (s : State) : Host.Outcome State Fault Refusal :=
  match i with
  | .noteOn n => Sys2Proof.Machine.execNoteOn n s
  | .noteOff n => Sys2Proof.Machine.execNoteOff n s
  | .setEnvIdle x => Sys2Proof.Machine.execSetEnvIdle x s
  | .setEnvAttack x => Sys2Proof.Machine.execSetEnvAttack x s
  | .setEnvDecay x => Sys2Proof.Machine.execSetEnvDecay x s
  | .setEnvSustain x => Sys2Proof.Machine.execSetEnvSustain x s
  | .setEnvRelease x => Sys2Proof.Machine.execSetEnvRelease x s
  | .setWaveSine => Sys2Proof.Machine.execSetWaveSine s
  | .setWaveSquare => Sys2Proof.Machine.execSetWaveSquare s
  | .setWaveTriangle => Sys2Proof.Machine.execSetWaveTriangle s
  | .setWaveSawtooth => Sys2Proof.Machine.execSetWaveSawtooth s
  | .setWaveNoise => Sys2Proof.Machine.execSetWaveNoise s
  | .setFmodeLp => Sys2Proof.Machine.execSetFmodeLp s
  | .setFmodeHp => Sys2Proof.Machine.execSetFmodeHp s
  | .setFmodeBp => Sys2Proof.Machine.execSetFmodeBp s
  | .setCutoff x => Sys2Proof.Machine.execSetCutoff x s
  | .setRes x => Sys2Proof.Machine.execSetRes x s
  | .setSrate x => Sys2Proof.Machine.execSetSrate x s
  | .sample => Sys2Proof.Machine.execSample s

end Sys2Proof.Machine
end

