-- ==== Sys2Proof/Machine/Step.lean ====
section
/-! DEFINITION. The step of the block: it takes the first port event and performs it whole (R43, R45, R120).

There is no program counter (R16): "its step takes the next operation word as input", here the head of the inbox. -/

namespace Sys2Proof.Machine

/-- A word that has been taken is performed by its rule; a reserved word is ignored (R120, R134). -/
def stepWord (w : OpWord) (s : State) : Host.Outcome State Fault Refusal :=
  match decode w with
  | .ok i    => exec i s
  | .error _ => .next s.quiet

/-- One step: the next word (R120), `rst` between two words (R153), or, with nothing on the ports, a wait (R152). -/
def step (s : State) : Host.Outcome State Fault Refusal :=
  match s.inbox with
  | []               => .next s.quiet
  | .rst :: rest     => .next { s with inbox := rest }.takeReset
  | .word w :: rest  => stepWord w { s with inbox := rest }

/-- The state in which the instruction word `w` of `nbits` bits (the bits above them 0) is the next word taken. -/
def State.withFetchWord (s : State) (nbits w : Nat) : State :=
  { s with inbox := .word (BitVec.ofNat 64 (w % 2 ^ nbits)) :: s.inbox }

end Sys2Proof.Machine
end

