-- ==== Sys2Proof/Machine/AsmSyntax.lean ====
section
/-! DEFINITION. The statements of the assembler syntax (R63) and of the pseudo-instructions (R64), as data. Numbers
stand as they are written, so that a statement may be ill-formed; Sys2Proof/WellFormed.lean holds the checks. -/

namespace Sys2Proof

/-- An f32 literal (R63). -/
inductive F32Literal where
  /-- A decimal literal: its sign, its digits without the point, and how many of them stand after the point. -/
  | decimal (neg : Bool) (digits places : Nat)
  /-- "0x" and 8 hex digits, the bit pattern. -/
  | bits (b : F32)
  | nan
  | posInf
  | negInf
  deriving DecidableEq, Repr

/-- The kinds of `SET_PARAM`, each with its operands (R64). -/
inductive AsmParam where
  | envelope (s : Stage) (x : F32Literal)
  | waveform (w : Waveform)
  | filterMode (m : FilterMode)
  | cutoff (x : F32Literal)
  | resonance (x : F32Literal)
  | sampleRate (x : F32Literal)
  deriving DecidableEq, Repr

/-- One assembler statement: an instruction, a raw word, or a pseudo-instruction (R63, R64). -/
inductive AsmStmt where
  | noteOn (n : Nat)
  | noteOff (n : Nat)
  | setEnv (s : Stage) (x : F32Literal)
  | setWave (w : Waveform)
  | setFmode (m : FilterMode)
  | setCutoff (x : F32Literal)
  | setRes (x : F32Literal)
  | setSrate (x : F32Literal)
  | sample
  /-- `.word`, "the raw operation word, for any word (reserved ones included)". -/
  | rawWord (w : OpWord)
  | nop
  | samples (k : Nat)
  | setAdsr (a d s r : F32Literal)
  | setParam (p : AsmParam)
  deriving DecidableEq, Repr

end Sys2Proof
end

