-- ==== Sys2Proof/WellFormed.lean ====
section
/-! DEFINITION. What is well-formed.

An `Instr` is well-formed by its type: a note is 7 bits wide ("A note outside 0 to 127 cannot be encoded", R55), an f32
operand is any of the 2^32 patterns (R56), an enumerated operand is one constructor per code (R57). What can be
ill-formed is an assembler statement, whose numbers are written by hand: "note: decimal 0..127" (R63) and "`SAMPLES k`
(k ≥ 1)" (R64). -/

namespace Sys2Proof

/-- The range checks of R63 and R64. -/
def AsmStmt.wellFormed : AsmStmt → Bool
  | .noteOn n      => decide (n ≤ 127)
  | .noteOff n     => decide (n ≤ 127)
  | .samples k     => decide (1 ≤ k)
  | .setEnv _ _    => true
  | .setWave _     => true
  | .setFmode _    => true
  | .setCutoff _   => true
  | .setRes _      => true
  | .setSrate _    => true
  | .sample        => true
  | .rawWord _     => true
  | .nop           => true
  | .setAdsr _ _ _ _ => true
  | .setParam _    => true

/-- The statement that writes an instruction, its f32 operand as a bit pattern (R63). -/
def Instr.stmt : Instr → AsmStmt
  | .noteOn n        => .noteOn n.toNat
  | .noteOff n       => .noteOff n.toNat
  | .setEnvIdle x    => .setEnv .idle (.bits x)
  | .setEnvAttack x  => .setEnv .attack (.bits x)
  | .setEnvDecay x   => .setEnv .decay (.bits x)
  | .setEnvSustain x => .setEnv .sustain (.bits x)
  | .setEnvRelease x => .setEnv .release (.bits x)
  | .setWaveSine     => .setWave .sine
  | .setWaveSquare   => .setWave .square
  | .setWaveTriangle => .setWave .triangle
  | .setWaveSawtooth => .setWave .sawtooth
  | .setWaveNoise    => .setWave .noise
  | .setFmodeLp      => .setFmode .lowpass
  | .setFmodeHp      => .setFmode .highpass
  | .setFmodeBp      => .setFmode .bandpass
  | .setCutoff x     => .setCutoff (.bits x)
  | .setRes x        => .setRes (.bits x)
  | .setSrate x      => .setSrate (.bits x)
  | .sample          => .sample

/-- An instruction is well-formed when the statement that writes it is. -/
def Instr.wellFormed (i : Instr) : Bool := i.stmt.wellFormed

end Sys2Proof
end

