-- ==== Sys2Proof/Machine/Assembler.lean ====
section
/-! DEFINITION. The assembler: the words of a statement (R63, R64), and reading a line of text (R63). The block knows
nothing of it: it sees only the words. -/

namespace Sys2Proof

/-! ### From statements to words -/

/-- The bit pattern of a literal: "decimal literal, rounded to the nearest binary32, ties to even" (R63). -/
def F32Literal.value : F32Literal → F32
  | .decimal neg digits places => F32.ofMag neg (F32.roundMag (digits * 2 ^ 149) (10 ^ places))
  | .bits b  => b
  | .nan     => 0x7FC00000#32
  | .posInf  => 0x7F800000#32
  | .negInf  => 0xFF800000#32

/-- `SET_PARAM kind, ...` is "the SET_* word of that kind" (R64). -/
def AsmParam.instr : AsmParam → Instr
  | .envelope s x  => Instr.setEnv x.value s
  | .waveform w    => Instr.setWave w
  | .filterMode m  => Instr.setFmode m
  | .cutoff x      => .setCutoff x.value
  | .resonance x   => .setRes x.value
  | .sampleRate x  => .setSrate x.value

/-- The words of a statement, the pseudo-instructions expanded (R64). -/
def AsmStmt.words : AsmStmt → List OpWord
  | .noteOn n        => [encode (.noteOn (BitVec.ofNat 7 n))]
  | .noteOff n       => [encode (.noteOff (BitVec.ofNat 7 n))]
  | .setEnv s x      => [encode (Instr.setEnv x.value s)]
  | .setWave w       => [encode (Instr.setWave w)]
  | .setFmode m      => [encode (Instr.setFmode m)]
  | .setCutoff x     => [encode (.setCutoff x.value)]
  | .setRes x        => [encode (.setRes x.value)]
  | .setSrate x      => [encode (.setSrate x.value)]
  | .sample          => [encode .sample]
  | .rawWord w       => [w]
  | .nop             => [encode (.setEnvIdle 0)]
  | .samples k       => List.replicate k (encode .sample)
  | .setAdsr a d s r => [encode (.setEnvAttack a.value), encode (.setEnvDecay d.value),
                         encode (.setEnvSustain s.value), encode (.setEnvRelease r.value)]
  | .setParam p      => [encode p.instr]

/-- Assembling a statement: an ill-formed one has no words. -/
def AsmStmt.assemble (t : AsmStmt) : Option (List OpWord) := if t.wellFormed then some t.words else none

/-! ### From text to statements -/

namespace Asm

def isBlank (c : Char) : Bool := c == ' ' || c == '\t'

/-- The text without blanks at either end, in lower case: "Mnemonics and keywords are case-insensitive" (R63). -/
def trim (cs : List Char) : List Char :=
  ((cs.dropWhile isBlank).reverse.dropWhile isBlank).reverse.map Char.toLower

/-- A decimal number, most significant digit first. -/
def natOf (cs : List Char) : Option Nat :=
  if cs.isEmpty then none
  else cs.foldl (fun acc c => acc.bind fun n => if c.isDigit then some (10 * n + (c.toNat - 48)) else none) (some 0)

/-- The value of a hex digit in lower case. -/
def hexDigit (c : Char) : Option Nat :=
  if c.isDigit then some (c.toNat - 48)
  else if 'a' ≤ c ∧ c ≤ 'f' then some (c.toNat - 87)
  else none

/-- "0x" and exactly `n` hex digits. -/
def hexOf (n : Nat) : List Char → Option Nat
  | '0' :: 'x' :: cs =>
    if cs.length = n then cs.foldl (fun acc c => acc.bind fun v => (hexDigit c).map (16 * v + ·)) (some 0) else none
  | _ => none

/-- A decimal literal: an optional minus sign, digits, and optionally a point and more digits (log entry 8). -/
def decimalOf (cs : List Char) : Option F32Literal :=
  let neg := cs.head? == some '-'
  let body := if neg then cs.drop 1 else cs
  let whole := body.takeWhile (· != '.')
  let rest := body.dropWhile (· != '.')
  if rest.isEmpty then (natOf whole).map fun d => .decimal neg d 0
  else
    let frac := rest.drop 1
    if whole.isEmpty || frac.isEmpty then none else (natOf (whole ++ frac)).map fun d => .decimal neg d frac.length

/-- An f32 literal (R63). -/
def literalOf (cs : List Char) : Option F32Literal :=
  if cs = ['n', 'a', 'n'] then some .nan
  else if cs = ['+', 'i', 'n', 'f'] then some .posInf
  else if cs = ['-', 'i', 'n', 'f'] then some .negInf
  else
    match hexOf 8 cs with
    | some v => some (.bits (BitVec.ofNat 32 v))
    | none   => decimalOf cs

/-- "stage: idle | attack | decay | sustain | release" (R63). -/
def stageOf (cs : List Char) : Option Stage :=
  match String.ofList cs with
  | "idle" => some .idle | "attack" => some .attack | "decay" => some .decay
  | "sustain" => some .sustain | "release" => some .release | _ => none

/-- "wave: sine | square | triangle | sawtooth | noise" (R63). -/
def waveOf (cs : List Char) : Option Waveform :=
  match String.ofList cs with
  | "sine" => some .sine | "square" => some .square | "triangle" => some .triangle
  | "sawtooth" => some .sawtooth | "noise" => some .noise | _ => none

/-- "mode: lp | hp | bp" (R63). -/
def modeOf (cs : List Char) : Option FilterMode :=
  match String.ofList cs with
  | "lp" => some .lowpass | "hp" => some .highpass | "bp" => some .bandpass | _ => none

/-- A kind of `SET_PARAM` with its operands (R64). -/
def paramOf (kind : String) (ops : List (List Char)) : Option AsmParam :=
  match kind, ops with
  | "envelope", [a, b]    => (stageOf a).bind fun s => (literalOf b).map (.envelope s)
  | "waveform", [a]       => (waveOf a).map .waveform
  | "filter_mode", [a]    => (modeOf a).map .filterMode
  | "cutoff", [a]         => (literalOf a).map .cutoff
  | "resonance", [a]      => (literalOf a).map .resonance
  | "sample_rate", [a]    => (literalOf a).map .sampleRate
  | _, _ => none

/-- The statement of a mnemonic with its operands (R63, R64). -/
def stmtOf (mnemonic : String) (ops : List (List Char)) : Option AsmStmt :=
  match mnemonic, ops with
  | "note_on", [a]          => (natOf a).map .noteOn
  | "note_off", [a]         => (natOf a).map .noteOff
  | "set_env", [a, b]       => (stageOf a).bind fun s => (literalOf b).map (.setEnv s)
  | "set_wave", [a]         => (waveOf a).map .setWave
  | "set_fmode", [a]        => (modeOf a).map .setFmode
  | "set_cutoff", [a]       => (literalOf a).map .setCutoff
  | "set_res", [a]          => (literalOf a).map .setRes
  | "set_srate", [a]        => (literalOf a).map .setSrate
  | "sample", []            => some .sample
  | ".word", [a]            => (hexOf 16 a).map fun v => .rawWord (BitVec.ofNat 64 v)
  | "nop", []               => some .nop
  | "samples", [a]          => (natOf a).map .samples
  | "set_adsr", [a, d, s, r] =>
    (literalOf a).bind fun a => (literalOf d).bind fun d => (literalOf s).bind fun s =>
      (literalOf r).map (.setAdsr a d s)
  | "set_param", kind :: rest => (paramOf (String.ofList kind) rest).map .setParam
  | _, _ => none

/-- A statement's text: the mnemonic, then its operands between commas. -/
def stmtText (cs : List Char) : Option AsmStmt :=
  let mnemonic := String.ofList (cs.takeWhile fun c => !isBlank c)
  let tail := trim (cs.dropWhile fun c => !isBlank c)
  let ops := if tail.isEmpty then [] else (tail.splitOn ',').map trim
  stmtOf mnemonic ops

/-- A label: "Labels are allowed but no instruction refers to one" (R63); letters, digits and `_`, no digit first. -/
def isLabel (cs : List Char) : Bool :=
  match cs with
  | [] => false
  | c :: rest => (c.isAlpha || c == '_') && rest.all fun d => d.isAlphanum || d == '_'

/-- One line: `line := [label ":"] [mnemonic [operand {"," operand}]] [";" comment]` (R63). `none`: no line of the
syntax; `some []`: an empty line, or a label or comment alone. -/
def line (cs : List Char) : Option (List AsmStmt) :=
  let code := cs.takeWhile (· != ';')
  let after := code.dropWhile (· != ':')
  let body := if after.isEmpty then code else after.drop 1
  if !after.isEmpty && !isLabel (trim (code.takeWhile (· != ':'))) then none
  else if (trim body).isEmpty then some []
  else (stmtText (trim body)).map fun t => [t]

/-- The words of a line. -/
def lineWords (cs : List Char) : Option (List OpWord) :=
  (line cs).bind fun ts =>
    match ts with
    | []     => some []
    | t :: _ => t.assemble

end Asm
end Sys2Proof
end

