-- ==== Sys2Proof/Safety.lean ====
section
/-! DEFINITION. The terms claims are made in: the legal configurations (R8, R153), the invariants of 10_state.md
section 6 (R24 to R30), and the host's duties as premises on the stream (R46, R156, R164). -/

/-- The kinds of parameter word whose order does not matter (R64, R156): one number for each SET_ENV stage, for
SET_WAVE, SET_FMODE, SET_CUTOFF and SET_RES. SET_SRATE, which silences every voice, and the other words have none. -/
def Sys2Proof.Instr.paramKind : Sys2Proof.Instr → Option Nat
  | .setEnvIdle _    => some 0
  | .setEnvAttack _  => some 1
  | .setEnvDecay _   => some 2
  | .setEnvSustain _ => some 3
  | .setEnvRelease _ => some 4
  | .setWaveSine | .setWaveSquare | .setWaveTriangle | .setWaveSawtooth | .setWaveNoise => some 5
  | .setFmodeLp | .setFmodeHp | .setFmodeBp => some 6
  | .setCutoff _     => some 7
  | .setRes _        => some 8
  | .noteOn _ | .noteOff _ | .setSrate _ | .sample => none

/-- `r` is the rounding to nearest, ties to even (R11), of an exact result from which each value `c` lies `dist c` away:
it is no NaN, no value lies nearer, and where another lies as near, the pattern of `r` is even. -/
def Sys2Proof.F32.IsNearestEven (r : Sys2Proof.F32) (dist : Sys2Proof.F32 → Nat) : Prop :=
  Sys2Proof.F32.isNaN r = false ∧
  ∀ c, Sys2Proof.F32.isNaN c = false → dist r ≤ dist c ∧ (dist r = dist c → c ≠ r → r.toNat % 2 = 0)

namespace Sys2Proof.Machine

/-- `lo <= x <= hi`; no NaN is in a range. -/
def inRange (lo hi x : F32) : Bool := F32.le lo x && F32.le x hi

/-- The configurations a model may take as an argument: "`SAMPLE_RATE_INIT` finite and > 0; the times in [T_MIN, T_MAX];
sustain and resonance in [0, 1]; cutoff in [C_MIN, C_MAX]" (R153), a clamp bound that is no NaN and not negative (R11,
R99), and a pitch map that "yields a finite positive value" (R73). -/
structure LegalConfig (c : Config) : Prop where
  rate      : F32.isRate c.sampleRateInit = true
  attack    : inRange Config.tMin Config.tMax c.attackInit = true
  decay     : inRange Config.tMin Config.tMax c.decayInit = true
  release   : inRange Config.tMin Config.tMax c.releaseInit = true
  sustain   : inRange F32.zero F32.one c.sustainInit = true
  cutoff    : inRange Config.cMin Config.cMax c.cutoffInit = true
  resonance : inRange F32.zero F32.one c.resonanceInit = true
  fbMax     : F32.le F32.zero c.fbMax = true
  pitch     : ∀ n : Note, F32.isFinite (noteFreq c n) = true ∧ F32.gt (noteFreq c n) F32.zero = true

/-- R24: a voice holds a note if and only if it is active. -/
def NoteIffActive (s : State) : Prop :=
  ∀ i : VoiceIx, (∃ n, (s.voices.voice i).note = some n) ↔ (s.voices.voice i).active = true

/-- R25: "For every note n, at most one voice i has `V[i].active = true` and `V[i].note = Some(n)`." -/
def UniqueNotes (s : State) : Prop :=
  ∀ (n : Note) (i j : VoiceIx), (s.voices.voice i).holds n = true → (s.voices.voice j).holds n = true → i = j

/-- R26: level in [0, 1], phase in [0, 1), neither a NaN. -/
def LevelPhaseInRange (s : State) : Prop :=
  ∀ i : VoiceIx, inRange F32.zero F32.one (s.voices.voice i).env.level = true ∧
    F32.le F32.zero (s.voices.voice i).osc.phase = true ∧ F32.lt (s.voices.voice i).osc.phase F32.one = true

/-- R27: the frequency is finite and not negative, and at most half the sample rate while the voice is active. -/
def FrequencyInRange (s : State) : Prop :=
  ∀ i : VoiceIx, F32.isFinite (s.voices.voice i).osc.frequency = true ∧ F32.ge (s.voices.voice i).osc.frequency F32.zero = true ∧
    ((s.voices.voice i).active = true →
      F32.le (s.voices.voice i).osc.frequency (F32.div (s.voices.voice i).osc.sampleRate 0x40000000#32) = true)

/-- R28: cutoff and resonance in their ranges, the feedback never stale. -/
def CoefficientsDerived (s : State) : Prop :=
  ∀ i : VoiceIx, inRange Config.cMin Config.cMax (s.voices.voice i).flt.cutoff = true ∧
    inRange F32.zero F32.one (s.voices.voice i).flt.resonance = true ∧
    (s.voices.voice i).flt.feedback = feedbackOf s.cfg (s.voices.voice i).flt.cutoff (s.voices.voice i).flt.resonance

/-- R29: every rate is its time × the sample rate. -/
def RatesDerived (s : State) : Prop :=
  ∀ i : VoiceIx,
    (s.voices.voice i).env.attackRate = F32.mul (s.voices.voice i).env.attackTime (s.voices.voice i).env.sampleRate ∧
    (s.voices.voice i).env.decayRate = F32.mul (s.voices.voice i).env.decayTime (s.voices.voice i).env.sampleRate ∧
    (s.voices.voice i).env.releaseRate = F32.mul (s.voices.voice i).env.releaseTime (s.voices.voice i).env.sampleRate

/-- The parameter registers of a voice (R30): the sample rates, the waveform, the envelope parameters and rates, the
filter's coefficients and mode; not the frequency, which is per voice. -/
structure Params where
  oscSampleRate : F32
  waveform      : Waveform
  envSampleRate : F32
  attackTime    : F32
  decayTime     : F32
  sustainLevel  : F32
  releaseTime   : F32
  attackRate    : F32
  decayRate     : F32
  releaseRate   : F32
  cutoff        : F32
  resonance     : F32
  feedback      : F32
  mode          : FilterMode
  deriving DecidableEq, Repr

/-- The parameter registers of this voice. -/
def Voice.params (v : Voice) : Params where
  oscSampleRate := v.osc.sampleRate
  waveform      := v.osc.waveform
  envSampleRate := v.env.sampleRate
  attackTime    := v.env.attackTime
  decayTime     := v.env.decayTime
  sustainLevel  := v.env.sustainLevel
  releaseTime   := v.env.releaseTime
  attackRate    := v.env.attackRate
  decayRate     := v.env.decayRate
  releaseRate   := v.env.releaseRate
  cutoff        := v.flt.cutoff
  resonance     := v.flt.resonance
  feedback      := v.flt.feedback
  mode          := v.flt.mode

/-- R30: "Every parameter register holds the same value in every voice", and the two sample rates are equal. -/
def ParametersUniform (s : State) : Prop :=
  ∀ i j : VoiceIx, (s.voices.voice i).params = (s.voices.voice j).params ∧
    (s.voices.voice i).osc.sampleRate = (s.voices.voice i).env.sampleRate

/-- The legal values of the parameter registers that R24 to R30 do not already give (R21, R22, R23). -/
def LegalRegisters (s : State) : Prop :=
  ∀ i : VoiceIx, F32.isRate (s.voices.voice i).osc.sampleRate = true ∧ F32.isRate (s.voices.voice i).env.sampleRate = true ∧
    inRange Config.tMin Config.tMax (s.voices.voice i).env.attackTime = true ∧
    inRange Config.tMin Config.tMax (s.voices.voice i).env.decayTime = true ∧
    inRange Config.tMin Config.tMax (s.voices.voice i).env.releaseTime = true ∧
    inRange F32.zero F32.one (s.voices.voice i).env.sustainLevel = true ∧
    inRange F32.zero s.cfg.fbMax (s.voices.voice i).flt.feedback = true

/-- An inactive voice has an idle envelope (R108: "its envelope is Idle, so level is 0.0"), and an idle envelope has
level 0.0 (R86). -/
def IdleIsSilent (s : State) : Prop :=
  ∀ i : VoiceIx, ((s.voices.voice i).active = false → (s.voices.voice i).env.stage = .idle) ∧
    ((s.voices.voice i).env.stage = .idle → (s.voices.voice i).env.level = F32.zero)

/-- The invariant of the block: R24 to R30 and the legal register values, under a legal configuration. -/
structure State.Inv (s : State) : Prop where
  legalConfig : LegalConfig s.cfg
  noteActive  : NoteIffActive s
  uniqueNotes : UniqueNotes s
  levelPhase  : LevelPhaseInRange s
  frequency   : FrequencyInRange s
  coefficient : CoefficientsDerived s
  rates       : RatesDerived s
  uniform     : ParametersUniform s
  legal       : LegalRegisters s
  idleSilent  : IdleIsSilent s

/-- What a command word leaves of the ports and of the model's own fields: no output sample, no word taken, no draw
used, the configuration kept. -/
def PortsAfterCommand (s t : State) : Prop :=
  t.out = none ∧ t.inbox = s.inbox ∧ t.noiseTick = s.noiseTick ∧ t.cfg = s.cfg

/-- Voice `i` is `v`, every other voice is as before. -/
def OnlyVoice (s t : State) (i : VoiceIx) (v : Voice) : Prop :=
  t.voices.voice i = v ∧ ∀ j : VoiceIx, j ≠ i → t.voices.voice j = s.voices.voice j

/-- The instruction answers a state in which every voice, active or not, is `f` of what it was: a broadcast (R118). -/
def Broadcasts (i : Instr) (s : State) (f : Voice → Voice) : Prop :=
  ∃ t, exec i s = .next t ∧ PortsAfterCommand s t ∧ ∀ k : VoiceIx, t.voices.voice k = f (s.voices.voice k)

/-- The instruction answers the same state, with no output sample: a silent no-op (R140). -/
def ChangesNothing (i : Instr) (s : State) : Prop := exec i s = .next { s with out := none }

/-- The reserved space of R61 in numbers: the fields of the word by division and remainder. -/
def InReservedSpace (w : OpWord) : Prop :=
  let opc := w.toNat / 2 ^ 56
  let pid := w.toNat / 2 ^ 48 % 256
  let arg := w.toNat / 2 ^ 40 % 256
  let rsv := w.toNat / 2 ^ 32 % 256
  let val := w.toNat % 2 ^ 32
  opc = 0 ∨ 5 ≤ opc ∨
  ((opc = 1 ∨ opc = 2) ∧ w.toNat / 2 ^ 7 % 2 ^ 49 ≠ 0) ∨
  (opc = 4 ∧ w.toNat % 2 ^ 56 ≠ 0) ∨
  (opc = 3 ∧ (rsv ≠ 0 ∨ 6 ≤ pid ∨ (pid = 0 ∧ 5 ≤ arg) ∨ (pid = 1 ∧ (5 ≤ arg ∨ val ≠ 0)) ∨
    (pid = 2 ∧ (3 ≤ arg ∨ val ≠ 0)) ∨ (3 ≤ pid ∧ pid ≤ 5 ∧ arg ≠ 0)))

/-- One audio buffer of a host that follows the source: its commands, then `k` SAMPLE words (R46, R164). -/
def hostBuffer (k : Nat) (commands : List PortEvent) : List PortEvent :=
  commands ++ List.replicate k (.word (encode .sample))

/-- The batching contract of R46 and R164 as a premise on a stream: a sequence of buffers, each its number of samples and
its commands, with no SAMPLE among the commands. The rules leave three points open, and each is taken the wider way
(DESIGN CHOICE, log entry 13): every buffer has a size of its own, which covers a host with one size; `rst`, of which the
rules say nothing, may stand wherever a command may, so a stream may boot (HostBoots) and batch; and a reserved word may
stand among the commands. -/
def HostBatched (inbox : List PortEvent) : Prop :=
  ∃ buffers : List (Nat × List PortEvent), inbox = buffers.flatMap (fun b => hostBuffer b.1 b.2) ∧
    ∀ b ∈ buffers, ∀ e ∈ b.2, ∀ w, e = .word w → decode w ≠ .ok .sample

/-- The boot order of R156 as a premise on a stream: `rst`; at most one SET_SRATE; then SET_ENV, SET_WAVE, SET_FMODE,
SET_CUTOFF and SET_RES words in any order; then the stream goes on with a NOTE_ON, NOTE_OFF or SAMPLE word, or ends.
R156 does not say when the boot ends, nor what may follow it; here it ends at that first note or SAMPLE word, all of
step 3 stands before it, and any event may follow it, a SET_SRATE (R161), another parameter word or `rst` among them
(DESIGN CHOICE, log entry 14). -/
def HostBoots (inbox : List PortEvent) : Prop :=
  ∃ (rate : Option F32) (params : List OpWord) (later : List PortEvent),
    inbox = .rst :: (rate.toList.map fun x => .word (encode (.setSrate x))) ++ params.map .word ++ later ∧
    (∀ w ∈ params, ∃ i k, decode w = .ok i ∧ i.paramKind = some k) ∧
    ∀ e ∈ later.head?, ∃ w i, e = .word w ∧ decode w = .ok i ∧ i.paramKind = none ∧ ∀ x, i ≠ .setSrate x

end Sys2Proof.Machine
end

