-- ==== Sys2Proof/Certificates/Slice0/Obligations.lean ====
section
/-! DEFINITION. The statements about the model, for the provers. Each docstring says which rule of spec/ it formalises,
or which model's choice it rests on. -/

open Sys2Proof Sys2Proof.Machine

/-! ### Encoding -/

/-- R54, R60: decoding the word of an instruction gives it back, for every instruction and every operand. -/
def Obligations.DecodeOfEncode : Prop := ∀ i : Instr, decode (encode i) = .ok i

/-- R59: "a word w is the row's instruction iff (w & mask) == match", the free bits being its operand; and "No two rows
match the same word". -/
def Obligations.DecodeAgreesWithOpcodeMap : Prop :=
  (∀ (w : OpWord) (i : Instr),
    decode w = .ok i ↔ (w &&& i.row.mask = i.row.bits ∧ w &&& ~~~i.row.mask = i.operand)) ∧
  (∀ (w : OpWord) (i j : Instr), i.row.isMatch w = true → j.row.isMatch w = true → i.row = j.row)

/-- R61, R134: the words that decode to no instruction are exactly the reserved space; taking one changes no state and
produces no output sample. -/
def Obligations.ReservedWordsAreIgnored : Prop :=
  (∀ w : OpWord, (∃ r, decode w = .error r) ↔ InReservedSpace w) ∧
  (∀ (s : State) (w : OpWord) (rest : List PortEvent), s.inbox = .word w :: rest → InReservedSpace w →
    step s = .next { s with inbox := rest, out := none })

/-- R41: a word sent over a byte-wide medium, least significant byte first, arrives as the same word; byte k holds
`op_word[8k+7:8k]`; and a stream of whole words arrives as those words. -/
def Obligations.BytesCarryTheWords : Prop :=
  (∀ (w : OpWord) (rest : List Byte), OpWord.ofBytes (w.toBytes ++ rest) = some (w, rest)) ∧
  (∀ (w : OpWord) (k : Nat), k < 8 → w.toBytes[k]? = some (BitVec.ofNat 8 (w.toNat / 2 ^ (8 * k)))) ∧
  (∀ ws : List OpWord, wordsOfBytes ws.length (ws.flatMap OpWord.toBytes) = (ws, []))

/-- R65: the example encodings of the spec, the reserved ones among them. -/
def Obligations.ExampleWordsDecode : Prop :=
  decode 0x0100000000000045#64 = .ok (.noteOn 69) ∧
  decode 0x010000000000003C#64 = .ok (.noteOn 60) ∧
  decode 0x0200000000000045#64 = .ok (.noteOff 69) ∧
  decode 0x010000000000007F#64 = .ok (.noteOn 127) ∧
  decode 0x030001003C23D70A#64 = .ok (.setEnvAttack 0x3C23D70A#32) ∧
  decode 0x030002003DCCCCCD#64 = .ok (.setEnvDecay 0x3DCCCCCD#32) ∧
  decode 0x030003003F000000#64 = .ok (.setEnvSustain 0x3F000000#32) ∧
  decode 0x030004003E4CCCCD#64 = .ok (.setEnvRelease 0x3E4CCCCD#32) ∧
  decode 0x030000003F800000#64 = .ok (.setEnvIdle 0x3F800000#32) ∧
  decode 0x0301010000000000#64 = .ok .setWaveSquare ∧
  decode 0x0301040000000000#64 = .ok .setWaveNoise ∧
  decode 0x0302010000000000#64 = .ok .setFmodeHp ∧
  decode 0x030300003F000000#64 = .ok (.setCutoff 0x3F000000#32) ∧
  decode 0x030400003F000000#64 = .ok (.setRes 0x3F000000#32) ∧
  decode 0x03050000473B8000#64 = .ok (.setSrate 0x473B8000#32) ∧
  decode 0x0400000000000000#64 = .ok .sample ∧
  decode 0x0000000000000000#64 = .error .opcReserved ∧
  decode 0x0100000000000080#64 = .error .noteBitsNonzero ∧
  decode 0x0301050000000000#64 = .error .waveformReserved ∧
  decode 0x0306000000000000#64 = .error .pidReserved

/-- R63, R64: the statement that writes an instruction assembles to its word, whatever the form of its f32 literal; each
pseudo-instruction, every kind of SET_PARAM among them, assembles to the words of its expansion; a raw word stands for
itself; a note outside 0 to 127 and `SAMPLES 0` have no words. A decimal literal is "rounded to the nearest binary32,
ties to even" and keeps its sign; a bit pattern is itself; `nan`, `+inf` and `-inf` are the patterns R63 prints. -/
def Obligations.AssemblerExpandsPseudoInstructions : Prop :=
  (∀ i : Instr, i.stmt.assemble = some [encode i]) ∧
  (∀ (st : Stage) (x : F32Literal), AsmStmt.assemble (.setEnv st x) = some [encode (Instr.setEnv x.value st)] ∧
    AsmStmt.assemble (.setCutoff x) = some [encode (.setCutoff x.value)] ∧
    AsmStmt.assemble (.setRes x) = some [encode (.setRes x.value)] ∧
    AsmStmt.assemble (.setSrate x) = some [encode (.setSrate x.value)]) ∧
  (∀ w : OpWord, AsmStmt.assemble (.rawWord w) = some [w]) ∧
  AsmStmt.assemble .nop = some [0x0300000000000000#64] ∧
  (∀ k, 1 ≤ k → AsmStmt.assemble (.samples k) = some (List.replicate k (encode .sample))) ∧
  (∀ a d u r : F32Literal, AsmStmt.assemble (.setAdsr a d u r) =
    some [encode (.setEnvAttack a.value), encode (.setEnvDecay d.value), encode (.setEnvSustain u.value),
      encode (.setEnvRelease r.value)]) ∧
  (∀ (st : Stage) (w : Waveform) (m : FilterMode) (x : F32Literal),
    AsmStmt.assemble (.setParam (.envelope st x)) = AsmStmt.assemble (.setEnv st x) ∧
    AsmStmt.assemble (.setParam (.waveform w)) = AsmStmt.assemble (.setWave w) ∧
    AsmStmt.assemble (.setParam (.filterMode m)) = AsmStmt.assemble (.setFmode m) ∧
    AsmStmt.assemble (.setParam (.cutoff x)) = AsmStmt.assemble (.setCutoff x) ∧
    AsmStmt.assemble (.setParam (.resonance x)) = AsmStmt.assemble (.setRes x) ∧
    AsmStmt.assemble (.setParam (.sampleRate x)) = AsmStmt.assemble (.setSrate x)) ∧
  (∀ n, 127 < n → AsmStmt.assemble (.noteOn n) = none ∧ AsmStmt.assemble (.noteOff n) = none) ∧
  AsmStmt.assemble (.samples 0) = none ∧
  (∀ (neg : Bool) (digits places : Nat),
    F32.sign (F32Literal.decimal neg digits places).value = neg ∧
    F32.IsNearestEven (F32Literal.decimal neg digits places).value
      (fun c => (F32.value c * 10 ^ places - (if neg then -(digits : Int) else digits) * F32.value F32.one).natAbs)) ∧
  (∀ b : F32, (F32Literal.bits b).value = b) ∧
  F32Literal.nan.value = 0x7FC00000#32 ∧ F32Literal.posInf.value = 0x7F800000#32 ∧
  F32Literal.negInf.value = 0xFF800000#32

/-! ### The step -/

/-- R120, R45: the word taken first is performed by the rule of the instruction it decodes to, on the state from which
that word has been taken. -/
def Obligations.StepPerformsTheDecodedInstruction : Prop :=
  ∀ (s : State) (w : OpWord) (rest : List PortEvent) (i : Instr), s.inbox = .word w :: rest → decode w = .ok i →
    step s = exec i { s with inbox := rest }

/-- R139: no operation word, operand or state stops the block: every step answers a next state. -/
def Obligations.EveryStepCompletes : Prop := ∀ s : State, ∃ t, step s = .next t

/-- R152: with nothing on its ports the block holds its state; no output sample. -/
def Obligations.EmptyPortsHoldTheState : Prop :=
  ∀ s : State, s.inbox = [] → step s = .next { s with out := none }

/-- The words after the first do not matter to a step (R45: a SAMPLE sees "none taken after it"): two streams with the
same first event give the same block. Bit for bit this rests on two choices of the model: the draws of a SAMPLE depend on
the draw counter and the voice only (log entry 3), and the bits of a NaN on the operation and its operands only (log
entry 4); R120 itself says "deterministic except for the noise draws". -/
def Obligations.LaterWordsDoNotMatter : Prop :=
  ∀ (s : State) (e : PortEvent) (r1 r2 : List PortEvent), ∃ t1 t2,
    step { s with inbox := e :: r1 } = .next t1 ∧ step { s with inbox := e :: r2 } = .next t2 ∧
    t1 = { t2 with inbox := r1 } ∧ t2.inbox = r2

/-- R7: "A SAMPLE word produces exactly one `smp_data` transfer"; "No other word produces output". -/
def Obligations.OnlySampleProducesOutput : Prop :=
  ∀ (i : Instr) (s : State), ∃ t, exec i s = .next t ∧ (t.out.isSome = true ↔ i = .sample)

/-! ### Note commands -/

/-- R113, R108, first scan: the first active voice that holds the note is retriggered; its level, note and frequency,
and every other voice, are unchanged. -/
def Obligations.NoteOnRetriggersTheHolder : Prop :=
  ∀ (s : State) (n : Note) (i : VoiceIx), (s.voices.voice i).active = true → (s.voices.voice i).note = some n →
    (∀ j : VoiceIx, j < i → ¬((s.voices.voice j).active = true ∧ (s.voices.voice j).note = some n)) →
    ∃ t, exec (.noteOn n) s = .next t ∧ PortsAfterCommand s t ∧
      OnlyVoice s t i { s.voices.voice i with env := { (s.voices.voice i).env with stage := .attack } }

/-- R113, R108, R73, second scan: with no holder, the lowest-indexed inactive voice takes the note: frequency from the
pitch map clamped to [0, sample_rate/2], envelope in Attack at its level, active with the note; phase, filter and every
other voice unchanged. The premise on the pitch map is the "finite positive value" of R73. -/
def Obligations.NoteOnAllocatesTheFirstFreeVoice : Prop :=
  ∀ (s : State) (n : Note) (i : VoiceIx), F32.isNaN (noteFreq s.cfg n) = false →
    (∀ j : VoiceIx, ¬((s.voices.voice j).active = true ∧ (s.voices.voice j).note = some n)) →
    (s.voices.voice i).active = false → (∀ j : VoiceIx, j < i → (s.voices.voice j).active = true) →
    ∃ t, exec (.noteOn n) s = .next t ∧ PortsAfterCommand s t ∧
      OnlyVoice s t i { s.voices.voice i with
        active := true
        note := some n
        osc := { (s.voices.voice i).osc with
          frequency := F32.clamp (noteFreq s.cfg n) F32.zero (F32.div (s.voices.voice i).osc.sampleRate 0x40000000#32) }
        env := { (s.voices.voice i).env with stage := .attack } }

/-- R114: "when no voice holds n and all 16 voices are active, the note-on is dropped and no state changes". -/
def Obligations.NoteOnIsDroppedWhenThePoolIsFull : Prop :=
  ∀ (s : State) (n : Note), (∀ j : VoiceIx, (s.voices.voice j).active = true ∧ (s.voices.voice j).note ≠ some n) →
    ChangesNothing (.noteOn n) s

/-- R115, R109: the first active voice that holds the note goes to Release, its level and everything else unchanged;
with no holder nothing changes. -/
def Obligations.NoteOffReleasesTheHolder : Prop :=
  (∀ (s : State) (n : Note) (i : VoiceIx), (s.voices.voice i).active = true → (s.voices.voice i).note = some n →
    (∀ j : VoiceIx, j < i → ¬((s.voices.voice j).active = true ∧ (s.voices.voice j).note = some n)) →
    ∃ t, exec (.noteOff n) s = .next t ∧ PortsAfterCommand s t ∧
      OnlyVoice s t i { s.voices.voice i with env := { (s.voices.voice i).env with stage := .release } }) ∧
  (∀ (s : State) (n : Note),
    (∀ j : VoiceIx, ¬((s.voices.voice j).active = true ∧ (s.voices.voice j).note = some n)) →
    ChangesNothing (.noteOff n) s)

/-- C10, R106, R111, R153: no note command frees a voice. Among the instructions only an accepted SET_SRATE and the
SAMPLE that finds the envelope Idle do, and a step frees one by these words or by `rst`; no wait and no reserved word
does. -/
def Obligations.VoicesAreFreedOnlyByRateOrIdleSample : Prop :=
  (∀ (i : Instr) (s t : State) (k : VoiceIx), exec i s = .next t → (s.voices.voice k).active = true →
    (t.voices.voice k).active = false →
    (∃ x, i = .setSrate x ∧ F32.isFinite x = true ∧ F32.gt x F32.zero = true) ∨
    (i = .sample ∧ (s.voices.voice k).env.stage = .idle)) ∧
  (∀ (s t : State) (k : VoiceIx), step s = .next t → (s.voices.voice k).active = true →
    (t.voices.voice k).active = false →
    (∃ rest, s.inbox = .rst :: rest) ∨
    ∃ w rest, s.inbox = .word w :: rest ∧
      ((∃ x, decode w = .ok (.setSrate x) ∧ F32.isFinite x = true ∧ F32.gt x F32.zero = true) ∨
       (decode w = .ok .sample ∧ (s.voices.voice k).env.stage = .idle)))

/-! ### Parameter commands -/

/-- R123, R91: SET_ENV.IDLE changes no state for any operand. -/
def Obligations.SetEnvIdleChangesNothing : Prop := ∀ (x : F32) (s : State), ChangesNothing (.setEnvIdle x) s

/-- R124, R125, R127, R89: in every voice the time becomes the operand clamped to [T_MIN, T_MAX], the rate that time ×
the sample rate, and nothing else changes; a NaN is ignored. -/
def Obligations.SetEnvTimesAreBroadcast : Prop :=
  ∀ (x : F32) (s : State),
    (F32.isNaN x = false →
      Broadcasts (.setEnvAttack x) s (fun v => { v with env := { v.env with
        attackTime := F32.clamp x Config.tMin Config.tMax
        attackRate := F32.mul (F32.clamp x Config.tMin Config.tMax) v.env.sampleRate } }) ∧
      Broadcasts (.setEnvDecay x) s (fun v => { v with env := { v.env with
        decayTime := F32.clamp x Config.tMin Config.tMax
        decayRate := F32.mul (F32.clamp x Config.tMin Config.tMax) v.env.sampleRate } }) ∧
      Broadcasts (.setEnvRelease x) s (fun v => { v with env := { v.env with
        releaseTime := F32.clamp x Config.tMin Config.tMax
        releaseRate := F32.mul (F32.clamp x Config.tMin Config.tMax) v.env.sampleRate } })) ∧
    (F32.isNaN x = true →
      ChangesNothing (.setEnvAttack x) s ∧ ChangesNothing (.setEnvDecay x) s ∧ ChangesNothing (.setEnvRelease x) s)

/-- R126, R90: in every voice the sustain level becomes the operand clamped to [0, 1], and nothing else changes, the
level of a voice in Sustain among it; a NaN is ignored. -/
def Obligations.SetEnvSustainIsBroadcast : Prop :=
  ∀ (x : F32) (s : State),
    (F32.isNaN x = false →
      Broadcasts (.setEnvSustain x) s
        (fun v => { v with env := { v.env with sustainLevel := F32.clamp x F32.zero F32.one } })) ∧
    (F32.isNaN x = true → ChangesNothing (.setEnvSustain x) s)

/-- R128, R74: in every voice the waveform, and nothing else, changes. -/
def Obligations.SetWaveIsBroadcast : Prop :=
  ∀ s : State,
    Broadcasts .setWaveSine s (fun v => { v with osc := { v.osc with waveform := .sine } }) ∧
    Broadcasts .setWaveSquare s (fun v => { v with osc := { v.osc with waveform := .square } }) ∧
    Broadcasts .setWaveTriangle s (fun v => { v with osc := { v.osc with waveform := .triangle } }) ∧
    Broadcasts .setWaveSawtooth s (fun v => { v with osc := { v.osc with waveform := .sawtooth } }) ∧
    Broadcasts .setWaveNoise s (fun v => { v with osc := { v.osc with waveform := .noise } })

/-- R129, R102: in every voice the filter mode, and nothing else, changes; the buffers are not reset. -/
def Obligations.SetFmodeIsBroadcast : Prop :=
  ∀ s : State,
    Broadcasts .setFmodeLp s (fun v => { v with flt := { v.flt with mode := .lowpass } }) ∧
    Broadcasts .setFmodeHp s (fun v => { v with flt := { v.flt with mode := .highpass } }) ∧
    Broadcasts .setFmodeBp s (fun v => { v with flt := { v.flt with mode := .bandpass } })

/-- R130, R100, R99: in every voice the cutoff becomes the operand clamped to [C_MIN, C_MAX], the feedback is
recomputed, and nothing else changes; a NaN is ignored. -/
def Obligations.SetCutoffIsBroadcast : Prop :=
  ∀ (x : F32) (s : State),
    (F32.isNaN x = false →
      Broadcasts (.setCutoff x) s (fun v => { v with flt := { v.flt with
        cutoff := F32.clamp x Config.cMin Config.cMax
        feedback := F32.clamp
          (F32.add v.flt.resonance
            (F32.div v.flt.resonance (F32.sub F32.one (F32.clamp x Config.cMin Config.cMax))))
          F32.zero s.cfg.fbMax } })) ∧
    (F32.isNaN x = true → ChangesNothing (.setCutoff x) s)

/-- R131, R101, R99: in every voice the resonance becomes the operand clamped to [0, 1], the feedback is recomputed, and
nothing else changes; a NaN is ignored. -/
def Obligations.SetResIsBroadcast : Prop :=
  ∀ (x : F32) (s : State),
    (F32.isNaN x = false →
      Broadcasts (.setRes x) s (fun v => { v with flt := { v.flt with
        resonance := F32.clamp x F32.zero F32.one
        feedback := F32.clamp
          (F32.add (F32.clamp x F32.zero F32.one)
            (F32.div (F32.clamp x F32.zero F32.one) (F32.sub F32.one v.flt.cutoff)))
          F32.zero s.cfg.fbMax } })) ∧
    (F32.isNaN x = true → ChangesNothing (.setRes x) s)

/-- R132, R111, R119: an accepted rate makes every voice inactive, resets phase, stage, level and buffers, sets both
sample rates and recomputes the envelope rates, and keeps every other register; a NaN, an infinity, a zero or a negative
operand changes nothing. -/
def Obligations.SetSrateResetsEveryVoice : Prop :=
  ∀ (x : F32) (s : State),
    (F32.isFinite x = true → F32.gt x F32.zero = true →
      Broadcasts (.setSrate x) s (fun v =>
        { active := false
          note := none
          osc := { v.osc with phase := F32.zero, sampleRate := x }
          env := { v.env with
            stage := .idle
            level := F32.zero
            sampleRate := x
            attackRate := F32.mul v.env.attackTime x
            decayRate := F32.mul v.env.decayTime x
            releaseRate := F32.mul v.env.releaseTime x }
          flt := { v.flt with buf0 := F32.zero, buf1 := F32.zero, buf2 := F32.zero, buf3 := F32.zero } })) ∧
    (F32.isNaN x = true ∨ F32.isInf x = true ∨ F32.le x F32.zero = true → ChangesNothing (.setSrate x) s)

/-- R161, R119: after an accepted SET_SRATE no voice is active, and a SAMPLE right after it returns +0.0 and changes
no voice. -/
def Obligations.SampleAfterRateChangeIsSilent : Prop :=
  ∀ (x : F32) (s : State), F32.isFinite x = true → F32.gt x F32.zero = true →
    ∃ t u, exec (.setSrate x) s = .next t ∧ exec .sample t = .next u ∧
      (∀ i : VoiceIx, (t.voices.voice i).active = false) ∧ u.out = some F32.zero ∧ u.voices = t.voices

/-- R44: performing a SET_*, NOTE_ON or NOTE_OFF word twice in a row leaves the same state as performing it once. In
states that no run reaches, where a stored time or coefficient is a NaN, it rests on log entry 4 (the bits of a NaN). -/
def Obligations.CommandsAreIdempotent : Prop :=
  ∀ (i : Instr) (s : State), i ≠ .sample → ∃ t, exec i s = .next t ∧ exec i t = .next t

/-- R156, R64: the SET_ENV, SET_WAVE, SET_FMODE, SET_CUTOFF and SET_RES words of different kinds may come in any order:
"each writes its own registers, and the feedback depends only on the final cutoff and resonance". In states that no run
reaches, where a coefficient is a NaN, it rests on log entry 4 (the bits of a NaN). -/
def Obligations.ParameterOrderDoesNotMatter : Prop :=
  ∀ (a b : Instr) (m n : Nat) (s : State), a.paramKind = some m → b.paramKind = some n → m ≠ n →
    ∃ ta tb u, exec a s = .next ta ∧ exec b ta = .next u ∧ exec b s = .next tb ∧ exec a tb = .next u

/-- R35, R21: NOTE_ON, NOTE_OFF and SAMPLE write no parameter register of any voice, and only NOTE_ON writes a
frequency, that of a voice it allocates. -/
def Obligations.ParametersAreWrittenOnlyByTheirCommands : Prop :=
  ∀ (i : Instr) (s t : State) (k : VoiceIx), exec i s = .next t →
    ((∃ n, i = .noteOn n) ∨ (∃ n, i = .noteOff n) ∨ i = .sample →
      (t.voices.voice k).params = (s.voices.voice k).params) ∧
    ((t.voices.voice k).osc.frequency ≠ (s.voices.voice k).osc.frequency →
      (∃ n, i = .noteOn n) ∧ (s.voices.voice k).active = false ∧ (t.voices.voice k).active = true)

/-! ### SAMPLE -/

/-- R133, R117, R106: every voice is processed once. An inactive one is unchanged and gives +0.0; an active one with an
idle envelope is deactivated and gives +0.0; any other ticks (R66, R67), steps its envelope (R81) and filters the product
of the two (R96). The output is the left fold of the 16 outputs in index order from +0.0. It holds whatever the draw
counter and the draws; the counter advances by one, so that the next SAMPLE takes fresh draws (R72; how they are
numbered is the model's choice, log entry 3). -/
def Obligations.SampleProcessesEveryVoice : Prop :=
  ∀ s : State, ∃ (t : State) (y : VoiceIx → F32),
    exec .sample s = .next t ∧ t.inbox = s.inbox ∧ t.cfg = s.cfg ∧ t.noiseTick = s.noiseTick + 1 ∧
    t.out = some ((List.finRange 16).foldl (fun acc i => F32.add acc (y i)) F32.zero) ∧
    ∀ (i : VoiceIx) (v : Voice), v = s.voices.voice i →
      (v.active = false → t.voices.voice i = v ∧ y i = F32.zero) ∧
      (v.active = true → v.env.stage = .idle →
        t.voices.voice i = { v with active := false, note := none } ∧ y i = F32.zero) ∧
      (v.active = true → v.env.stage ≠ .idle →
        ∀ ph smp, ph = F32.remEuclidOne (F32.add v.osc.phase (F32.div v.osc.frequency v.osc.sampleRate)) →
          smp = oscWave s.cfg (noiseDraw s.noiseTick i) v.osc.waveform ph →
          t.voices.voice i = { v with
            osc := { v.osc with phase := ph }
            env := v.env.process
            flt := (v.flt.process (F32.mul smp v.env.process.level)).1 } ∧
          y i = (v.flt.process (F32.mul smp v.env.process.level)).2)

/-- R133, R152: "a SAMPLE with no active voice outputs +0.0 and changes no state" (the model's own draw counter
apart, log entry 3). -/
def Obligations.SampleOfASilentPoolIsZero : Prop :=
  ∀ s : State, (∀ i : VoiceIx, (s.voices.voice i).active = false) →
    exec .sample s = .next { s with out := some F32.zero, noiseTick := s.noiseTick + 1 }

/-- R117: with one voice sounding and the others inactive the sum is that voice's output: every value but -0.0 comes out
unchanged, -0.0 as +0.0, a NaN as a NaN. -/
def Obligations.SampleOfOneVoiceIsItsOutput : Prop :=
  ∀ (s : State) (i : VoiceIx) (y : F32), (∀ j : VoiceIx, j ≠ i → (s.voices.voice j).active = false) →
    y = ((s.voices.voice i).process s.cfg (noiseDraw s.noiseTick i)).2 →
    ∃ t z, exec .sample s = .next t ∧ t.out = some z ∧
      (F32.isNaN y = false → y ≠ F32.negZero → z = y) ∧ (y = F32.negZero → z = F32.zero) ∧
      (F32.isNaN y = true → F32.isNaN z = true)

/-- R19, R117 (the voices share nothing): what a SAMPLE does to a voice depends on that voice alone, besides the
configuration and the draws. That the two runs agree bit for bit rests on two choices of the model: the draws depend on
the draw counter and the voice only (log entry 3), and the bits of a NaN, which a filter buffer may hold (R104), on the
operation and its operands only (log entry 4). -/
def Obligations.VoicesDoNotInterfere : Prop :=
  ∀ (s t : State) (i : VoiceIx), s.voices.voice i = t.voices.voice i → s.cfg = t.cfg → s.noiseTick = t.noiseTick →
    ∃ s' t', exec .sample s = .next s' ∧ exec .sample t = .next t' ∧ s'.voices.voice i = t'.voices.voice i

/-- R32, R159, R106: the SAMPLE in which a release reaches 0.0 leaves the voice active with its note, in Idle at 0.0;
the next SAMPLE frees it, without a tick. -/
def Obligations.VoiceIsFreedOneSampleAfterIdle : Prop :=
  ∀ (s : State) (i : VoiceIx), (s.voices.voice i).active = true → (s.voices.voice i).env.stage = .release →
    F32.le (F32.sub (s.voices.voice i).env.level (F32.div F32.one (s.voices.voice i).env.releaseRate)) F32.zero = true →
    ∃ t u, exec .sample s = .next t ∧ exec .sample t = .next u ∧
      (t.voices.voice i).active = true ∧ (t.voices.voice i).note = (s.voices.voice i).note ∧
      (t.voices.voice i).env = { (s.voices.voice i).env with stage := .idle, level := F32.zero } ∧
      u.voices.voice i = { t.voices.voice i with active := false, note := none }

/-! ### Components -/

/-- R78, R79, R80, R94: the transitions of the stage register, complete, with the level each one leaves. -/
def Obligations.EnvelopeTransitions : Prop :=
  ∀ e : Env,
    e.trigger = { e with stage := .attack } ∧ e.release = { e with stage := .release } ∧
    e.reset = { e with stage := .idle, level := F32.zero } ∧
    (∀ l, l = F32.add e.level (F32.div F32.one e.attackRate) → e.stage = .attack →
      (F32.ge l F32.one = true → e.process = { e with level := F32.one, stage := .decay }) ∧
      (F32.ge l F32.one = false → e.process = { e with level := l })) ∧
    (∀ l, l = F32.sub e.level (F32.div F32.one e.decayRate) → e.stage = .decay →
      (F32.le l e.sustainLevel = true → e.process = { e with level := e.sustainLevel, stage := .sustain }) ∧
      (F32.le l e.sustainLevel = false → e.process = { e with level := l })) ∧
    (∀ l, l = F32.sub e.level (F32.div F32.one e.releaseRate) → e.stage = .release →
      (F32.le l F32.zero = true → e.process = { e with level := F32.zero, stage := .idle }) ∧
      (F32.le l F32.zero = false → e.process = { e with level := l })) ∧
    (e.stage = .sustain → e.process = e) ∧ (e.stage = .idle → e.process = e)

/-- R97: a zero input, of either sign, is returned unchanged and no register of the filter changes, in any mode and
after any number of calls. -/
def Obligations.SilentInputFreezesTheFilter : Prop :=
  ∀ (f : Flt) (x : F32), x = F32.zero ∨ x = F32.negZero → f.process x = (f, x)

/-- R96, R98: any other input, a NaN among them, runs the four stages in order, each from the new value of the stage
before it, and the tap of the mode gives the output; the coefficients and the mode are kept. -/
def Obligations.FilterCascade : Prop :=
  ∀ (f : Flt) (x b0 b1 b2 b3 : F32), F32.eq x F32.zero = false →
    b0 = F32.add f.buf0 (F32.mul f.cutoff
      (F32.add (F32.sub x f.buf0) (F32.mul f.feedback (F32.sub f.buf0 f.buf1)))) →
    b1 = F32.add f.buf1 (F32.mul f.cutoff (F32.sub b0 f.buf1)) →
    b2 = F32.add f.buf2 (F32.mul f.cutoff (F32.sub b1 f.buf2)) →
    b3 = F32.add f.buf3 (F32.mul f.cutoff (F32.sub b2 f.buf3)) →
    (f.process x).1 = { f with buf0 := b0, buf1 := b1, buf2 := b2, buf3 := b3 } ∧
    (f.mode = .lowpass → (f.process x).2 = b3) ∧ (f.mode = .highpass → (f.process x).2 = F32.sub x b3) ∧
    (f.mode = .bandpass → (f.process x).2 = F32.sub b0 b3)

/-- R96, "a NaN input ... makes all four buffers NaN; a NaN stays in the buffers": after a NaN input all four buffers
are NaN; a NaN in any one buffer stays there whatever the input, a zero included; and with an input that is not zero a
NaN in buffer 0 or 1, which stage 0 reads (R96), reaches all four buffers, and one in buffer 2 reaches buffer 3. -/
def Obligations.NaNStaysInTheFilter : Prop :=
  ∀ (f : Flt) (x : F32),
    (F32.isNaN f.buf0 = true → F32.isNaN (f.process x).1.buf0 = true) ∧
    (F32.isNaN f.buf1 = true → F32.isNaN (f.process x).1.buf1 = true) ∧
    (F32.isNaN f.buf2 = true → F32.isNaN (f.process x).1.buf2 = true) ∧
    (F32.isNaN f.buf3 = true → F32.isNaN (f.process x).1.buf3 = true) ∧
    (F32.eq x F32.zero = false → F32.isNaN f.buf2 = true → F32.isNaN (f.process x).1.buf3 = true) ∧
    (F32.isNaN x = true ∨ (F32.eq x F32.zero = false ∧ (F32.isNaN f.buf0 = true ∨ F32.isNaN f.buf1 = true)) →
      F32.isNaN (f.process x).1.buf0 = true ∧ F32.isNaN (f.process x).1.buf1 = true ∧
      F32.isNaN (f.process x).1.buf2 = true ∧ F32.isNaN (f.process x).1.buf3 = true)

/-- R69, R70, R71, R72, and R68 for a sine whose result at this phase is in [-1, 1]: for a phase in [0, 1) every
waveform gives a value in [-1, 1], never a NaN, and the sawtooth stays below 1. -/
def Obligations.WaveformsAreBounded : Prop :=
  ∀ (c : Config) (ph : F32) (w : Waveform) (t : Nat) (i : VoiceIx),
    F32.le F32.zero ph = true → F32.lt ph F32.one = true →
    (w = .sine → inRange F32.negOne F32.one (c.sin32 (F32.mul Config.tau ph)) = true) →
    inRange F32.negOne F32.one (oscWave c (noiseDraw t i) w ph) = true ∧
    F32.lt (oscWave c (noiseDraw t i) .sawtooth ph) F32.one = true

/-- R72: a noise draw is a binary32 value in [-1, 1], not a NaN, and the tick returns it whatever the phase. -/
def Obligations.NoiseDrawsAreInRange : Prop :=
  ∀ (t : Nat) (i : VoiceIx),
    F32.isNaN (noiseDraw t i) = false ∧ inRange F32.negOne F32.one (noiseDraw t i) = true ∧
    ∀ (c : Config) (o : Osc), o.waveform = .noise →
      (o.tick c (noiseDraw t i)).2 = noiseDraw t i ∧ (o.tick c (noiseDraw t i)).1 = o.advance

/-- R107, with the default `exp2_f32` (D5, log entry 5): note 69 is exactly 440.0, and a note that is k octaves from it
has exactly 440.0 with k added to its exponent. -/
def Obligations.OctavesAreExact : Prop :=
  ∀ (n : Note) (k : Int), (n.toNat : Int) = 69 + 12 * k →
    noteFreq Config.default n = BitVec.ofInt 32 (0x43DC0000 + k * 2 ^ 23)

/-! ### Arithmetic -/

/-- R11: "rounded once to nearest, ties to even". The rounding of num/den units is a binary32 magnitude, that of a finite
value or of an infinity and never that of a NaN, whatever the size of the exact value; no other one is nearer, an
infinity counting as 2^128, and of two equally near it is the one with the even pattern. -/
def Obligations.RoundingIsNearestTiesToEven : Prop :=
  ∀ num den : Nat, 0 < den →
    F32.roundMag num den ≤ F32.infMag ∧
    ∀ m ≤ F32.infMag,
      ((F32.magValue (F32.roundMag num den) * den : Int) - num).natAbs ≤
        ((F32.magValue m * den : Int) - num).natAbs ∧
      (((F32.magValue (F32.roundMag num den) * den : Int) - num).natAbs =
          ((F32.magValue m * den : Int) - num).natAbs → m ≠ F32.roundMag num den →
        F32.roundMag num den % 2 = 0)

/-- R11: "the IEEE 754 operation, rounded once to nearest, ties to even". The sum, difference, product and quotient of
finite operands are no NaN, no binary32 value is nearer to the exact result, and of two equally near the result is the
one with the even pattern (distances in units of 2^-149 for sum and difference, of 2^-298 for the product, scaled by the
divisor for the quotient; an infinite result counts as 2^128). -/
def Obligations.ArithmeticRoundsToNearest : Prop :=
  ∀ a b : F32, F32.isFinite a = true → F32.isFinite b = true →
    F32.IsNearestEven (F32.add a b) (fun c => (F32.value c - (F32.value a + F32.value b)).natAbs) ∧
    F32.IsNearestEven (F32.sub a b) (fun c => (F32.value c - (F32.value a - F32.value b)).natAbs) ∧
    F32.IsNearestEven (F32.mul a b) (fun c => (F32.value c * 2 ^ 149 - F32.value a * F32.value b).natAbs) ∧
    (F32.isZero b = false →
      F32.IsNearestEven (F32.div a b) (fun c => (F32.value c * F32.value b - F32.value a * 2 ^ 149).natAbs))

/-- R11, D25: for bounds in order and an operand that is no NaN, the clamp lies between the bounds, is the operand
itself inside them (so -0.0 is kept where the lower bound is 0.0), and the bound that is passed outside them. -/
def Obligations.ClampKeepsTheRange : Prop :=
  ∀ x lo hi : F32, F32.isNaN x = false → F32.le lo hi = true →
    inRange lo hi (F32.clamp x lo hi) = true ∧ (inRange lo hi x = true → F32.clamp x lo hi = x) ∧
    (F32.lt x lo = true → F32.clamp x lo hi = lo) ∧ (F32.gt x hi = true → F32.clamp x lo hi = hi) ∧
    F32.clamp F32.negZero F32.zero F32.one = F32.negZero

/-! ### Reset and the invariants -/

/-- R153: `rst`, taken between two words, sets every register of every voice to its reset value, whatever the state, and
produces no output sample; the words still to come are untouched. -/
def Obligations.ResetConstructsEveryVoice : Prop :=
  ∀ (s : State) (rest : List PortEvent), s.inbox = .rst :: rest →
    ∃ t, step s = .next t ∧ t.out = none ∧ t.inbox = rest ∧ t.cfg = s.cfg ∧
    ∀ i : VoiceIx, t.voices.voice i =
      { active := false
        note := none
        osc := { sampleRate := s.cfg.sampleRateInit, frequency := F32.zero, phase := F32.zero, waveform := .sine }
        env := {
          sampleRate := s.cfg.sampleRateInit
          attackTime := s.cfg.attackInit
          decayTime := s.cfg.decayInit
          sustainLevel := s.cfg.sustainInit
          releaseTime := s.cfg.releaseInit
          attackRate := F32.mul s.cfg.attackInit s.cfg.sampleRateInit
          decayRate := F32.mul s.cfg.decayInit s.cfg.sampleRateInit
          releaseRate := F32.mul s.cfg.releaseInit s.cfg.sampleRateInit
          level := F32.zero
          stage := .idle }
        flt := {
          cutoff := s.cfg.cutoffInit
          resonance := s.cfg.resonanceInit
          feedback := F32.clamp (F32.add s.cfg.resonanceInit
            (F32.div s.cfg.resonanceInit (F32.sub F32.one s.cfg.cutoffInit))) F32.zero s.cfg.fbMax
          mode := .lowpass
          buf0 := F32.zero
          buf1 := F32.zero
          buf2 := F32.zero
          buf3 := F32.zero } }

/-- R20 to R23, R153: the registers at the defaults: rates 441.0, 4410.0, 8820.0, feedback 0.0, and the rest of the
reset columns. -/
def Obligations.ResetValuesAtTheDefaults : Prop :=
  State.reset.out = none ∧ ∀ i : VoiceIx, State.reset.voices.voice i =
    { active := false
      note := none
      osc := { sampleRate := 0x472C4400#32, frequency := 0x00000000#32, phase := 0x00000000#32, waveform := .sine }
      env := {
        sampleRate := 0x472C4400#32
        attackTime := 0x3C23D70A#32
        decayTime := 0x3DCCCCCD#32
        sustainLevel := 0x3F333333#32
        releaseTime := 0x3E4CCCCD#32
        attackRate := 0x43DC8000#32
        decayRate := 0x4589D000#32
        releaseRate := 0x4609D000#32
        level := 0x00000000#32
        stage := .idle }
      flt := {
        cutoff := 0x3F7D70A4#32
        resonance := 0x00000000#32
        feedback := 0x00000000#32
        mode := .lowpass
        buf0 := 0x00000000#32
        buf1 := 0x00000000#32
        buf2 := 0x00000000#32
        buf3 := 0x00000000#32 } }

/-- R24: note and active agree at reset and after every step. -/
def Obligations.NoteIffActiveIsKept : Prop :=
  NoteIffActive State.reset ∧ ∀ s t : State, NoteIffActive s → step s = .next t → NoteIffActive t

/-- R25: no two active voices hold the same note, at reset and after every step. -/
def Obligations.UniqueNotesAreKept : Prop :=
  UniqueNotes State.reset ∧ ∀ s t : State, UniqueNotes s → step s = .next t → UniqueNotes t

/-- R29: every stored rate is its time × the sample rate, at reset and after every step. -/
def Obligations.RatesStayDerived : Prop :=
  RatesDerived State.reset ∧ ∀ s t : State, RatesDerived s → step s = .next t → RatesDerived t

/-- R30: the parameter registers are the same in every voice, and the two sample rates equal, at reset and after every
step. -/
def Obligations.ParametersStayUniform : Prop :=
  ParametersUniform State.reset ∧ ∀ s t : State, ParametersUniform s → step s = .next t → ParametersUniform t

/-- R28: cutoff and resonance stay in range and the feedback is never stale, at reset and after every step, for every
legal configuration. -/
def Obligations.CoefficientsStayDerived : Prop :=
  CoefficientsDerived State.reset ∧
  ∀ s t : State, LegalConfig s.cfg → CoefficientsDerived s → step s = .next t → CoefficientsDerived t

/-- R34: no step changes the configuration. -/
def Obligations.ConfigurationNeverChanges : Prop := ∀ s t : State, step s = .next t → t.cfg = s.cfg

/-- R24 to R30, R153: the invariant holds right after reset, at the defaults. -/
def Obligations.ResetMeetsTheInvariant : Prop := State.reset.Inv

/-- R24 to R30 together, R26 and R27 among them: every step, of any word, reset or wait, from any state that meets the
invariant, under any legal configuration and whatever the free values, answers a state that meets it. -/
def Obligations.EveryStepKeepsTheInvariant : Prop := ∀ s t : State, s.Inv → step s = .next t → t.Inv

/-! ### Formulas, remainders and special operands -/

/-- R67 to R72, the formula of every waveform: `sin_f32(TAU * ph)`; "+1.0 if phase < 0.5 else -1.0"; "4·phase − 1 for
phase<0.5, else 3 − 4·phase"; "2·phase − 1"; the draw. The tick takes them at the advanced phase (R66). At the defaults
the sines that R68 prints (the default sine as the model computes it, log entry 5). -/
def Obligations.WaveformFormulas : Prop :=
  (∀ (c : Config) (d ph : F32),
    oscWave c d .sine ph = c.sin32 (F32.mul 0x40C90FDB#32 ph) ∧
    (F32.lt ph 0x3F000000#32 = true →
      oscWave c d .square ph = 0x3F800000#32 ∧
      oscWave c d .triangle ph = F32.sub (F32.mul 0x40800000#32 ph) 0x3F800000#32) ∧
    (F32.lt ph 0x3F000000#32 = false →
      oscWave c d .square ph = 0xBF800000#32 ∧
      oscWave c d .triangle ph = F32.sub 0x40400000#32 (F32.mul 0x40800000#32 ph)) ∧
    oscWave c d .sawtooth ph = F32.sub (F32.mul 0x40000000#32 ph) 0x3F800000#32 ∧
    oscWave c d .noise ph = d) ∧
  (∀ (c : Config) (d : F32) (o : Osc), o.tick c d = (o.advance, oscWave c d o.waveform o.advance.phase)) ∧
  (∀ d : F32,
    oscWave Config.default d .sine 0x00000000#32 = 0x00000000#32 ∧
    oscWave Config.default d .sine 0x3C2377EE#32 = 0x3D804DC4#32 ∧
    oscWave Config.default d .sine 0x3E800000#32 = 0x3F800000#32 ∧
    oscWave Config.default d .sine 0x3F000000#32 = 0xB3BBBD2E#32 ∧
    oscWave Config.default d .sine 0x3F400000#32 = 0xBF800000#32)

/-- R11, "the IEEE 754 remainder with the sign of x (C `fmodf`), which is exact": of finite operands the remainder of the
division truncated towards zero, exactly, with the sign of `x`; `x` itself for an infinite `y`; a NaN for a NaN operand,
an infinite `x` or a zero `y`. -/
def Obligations.RemainderIsExact : Prop :=
  ∀ x y : F32,
    (F32.isFinite x = true → F32.isFinite y = true → F32.isZero y = false →
      F32.isNaN (F32.fmod x y) = false ∧ F32.value (F32.fmod x y) = (F32.value x).tmod (F32.value y) ∧
      F32.sign (F32.fmod x y) = F32.sign x) ∧
    (F32.isFinite x = true → F32.isInf y = true → F32.fmod x y = x) ∧
    (F32.isNaN x = true ∨ F32.isNaN y = true ∨ F32.isInf x = true ∨ F32.isZero y = true →
      F32.isNaN (F32.fmod x y) = true)

/-- R66, R11: the phase after a tick, from the sum `p` of phase and increment. A tick writes the phase only. A sum in
[0, 1) is the new phase itself; one in [1, 2) gives `p - 1`, exactly; any finite sum that is not negative gives its
exact remainder modulo 1; a negative one gives its remainder, plus 1.0 if that is below 0.0; a sum that is no finite
value gives a NaN. -/
def Obligations.PhaseWraps : Prop :=
  ∀ (o : Osc) (p : F32), p = F32.add o.phase (F32.div o.frequency o.sampleRate) →
    o.advance = { o with phase := o.advance.phase } ∧
    (F32.le F32.zero p = true → F32.lt p F32.one = true → o.advance.phase = p) ∧
    (F32.le F32.one p = true → F32.lt p 0x40000000#32 = true →
      o.advance.phase = F32.sub p F32.one ∧ F32.value o.advance.phase = F32.value p - F32.value F32.one) ∧
    (F32.isFinite p = true → F32.le F32.zero p = true →
      F32.isNaN o.advance.phase = false ∧ F32.value o.advance.phase = F32.value p % F32.value F32.one) ∧
    (F32.isFinite p = true → F32.lt p F32.zero = true →
      (F32.lt (F32.fmod p F32.one) F32.zero = true → o.advance.phase = F32.add (F32.fmod p F32.one) F32.one) ∧
      (F32.lt (F32.fmod p F32.one) F32.zero = false → o.advance.phase = F32.fmod p F32.one)) ∧
    (F32.isFinite p = false → F32.isNaN o.advance.phase = true)

/-- R107, D5: the pitch map of every note and every configuration. `i2f32(n)` is exact; with an `exp2_f32` the frequency
is `440.0 * exp2_f32((i2f32(n) - 69.0) / 12.0)`, each operation rounded once; with a table it is the entry of the note.
At the default the two ends of the range that R107 prints (log entry 5). -/
def Obligations.PitchMapFormula : Prop :=
  (∀ n : Note, F32.isNaN n.toF32 = false ∧ F32.sign n.toF32 = false ∧
    F32.value n.toF32 = (n.toNat : Int) * F32.value F32.one) ∧
  (∀ (c : Config) (f : FnChoice) (n : Note), c.pitchFn = .exp2 f →
    noteFreq c n =
      F32.mul 0x43DC0000#32 (f.exp232 (F32.div (F32.sub n.toF32 0x428A0000#32) 0x41400000#32))) ∧
  (∀ (c : Config) (k : Nat) (n : Note), c.pitchFn = .table k → noteFreq c n = Config.noteTable k n) ∧
  noteFreq Config.default 0 = 0x4102D012#32 ∧ noteFreq Config.default 127 = 0x4643FF6C#32

/-- R11, R141: the IEEE 754 results of operands and quotients that are not finite, and the sign of every result. A NaN
operand, infinity − infinity, 0 × infinity, 0 / 0 and infinity / infinity give a NaN, and every NaN result is quiet; an
infinity with a finite operand is kept; a finite divided by zero is an infinity, by an infinity a zero. An exact zero sum
is +0.0 unless both operands are -0.0; any other finite sum has the sign of the exact one; a product or quotient that is
no NaN has the product of the signs. A difference is the sum with the negated operand. -/
def Obligations.SpecialOperandsFollowIEEE : Prop :=
  ∀ a b : F32,
    (∀ r ∈ [F32.add a b, F32.sub a b, F32.mul a b, F32.div a b, F32.fmod a b],
      (F32.isNaN a = true ∨ F32.isNaN b = true → F32.isNaN r = true) ∧
      (F32.isNaN r = true → r.toNat / 2 ^ 22 % 2 = 1)) ∧
    (F32.isInf a = true → F32.isFinite b = true → F32.add a b = a ∧ F32.sub a b = a) ∧
    (F32.isFinite a = true → F32.isInf b = true → F32.add a b = b ∧ F32.sub a b = F32.negate b) ∧
    (F32.isInf a = true → F32.isInf b = true →
      (F32.sign a = F32.sign b → F32.add a b = a ∧ F32.isNaN (F32.sub a b) = true) ∧
      (F32.sign a ≠ F32.sign b → F32.isNaN (F32.add a b) = true ∧ F32.sub a b = a)) ∧
    (F32.isFinite a = true → F32.isFinite b = true →
      (F32.value a + F32.value b = 0 →
        F32.add a b = if a = F32.negZero ∧ b = F32.negZero then F32.negZero else F32.zero) ∧
      (F32.value a + F32.value b ≠ 0 → F32.sign (F32.add a b) = decide (F32.value a + F32.value b < 0)) ∧
      (F32.value a - F32.value b = 0 →
        F32.sub a b = if a = F32.negZero ∧ b = F32.zero then F32.negZero else F32.zero) ∧
      (F32.value a - F32.value b ≠ 0 → F32.sign (F32.sub a b) = decide (F32.value a - F32.value b < 0))) ∧
    (F32.isNaN (F32.mul a b) = false → F32.sign (F32.mul a b) = (F32.sign a != F32.sign b)) ∧
    (F32.isNaN (F32.div a b) = false → F32.sign (F32.div a b) = (F32.sign a != F32.sign b)) ∧
    (F32.isNaN a = false → F32.isNaN b = false →
      (F32.isInf a = true ∨ F32.isInf b = true →
        F32.isNaN (F32.mul a b) = (F32.isZero a || F32.isZero b) ∧
        (F32.isZero a = false → F32.isZero b = false → F32.isInf (F32.mul a b) = true)) ∧
      (F32.isInf a = true → F32.isNaN (F32.div a b) = F32.isInf b ∧
        (F32.isInf b = false → F32.isInf (F32.div a b) = true)) ∧
      (F32.isFinite a = true → F32.isInf b = true → F32.isZero (F32.div a b) = true) ∧
      (F32.isFinite a = true → F32.isZero b = true → F32.isNaN (F32.div a b) = F32.isZero a ∧
        (F32.isZero a = false → F32.isInf (F32.div a b) = true)))

/-- R11: "Any comparison with a NaN operand is false; `+0.0 == -0.0` is true". Without a NaN the five comparisons are
those of the values, an infinity lying beyond every finite value on its side. -/
def Obligations.ComparisonsFollowIEEE : Prop :=
  ∀ a b : F32,
    (F32.isNaN a = true ∨ F32.isNaN b = true →
      F32.lt a b = false ∧ F32.le a b = false ∧ F32.gt a b = false ∧ F32.ge a b = false ∧ F32.eq a b = false) ∧
    (F32.isNaN a = false → F32.isNaN b = false →
      (F32.lt a b = true ↔ F32.value a < F32.value b) ∧ (F32.le a b = true ↔ F32.value a ≤ F32.value b) ∧
      (F32.gt a b = true ↔ F32.value b < F32.value a) ∧ (F32.ge a b = true ↔ F32.value b ≤ F32.value a) ∧
      (F32.eq a b = true ↔ F32.value a = F32.value b)) ∧
    F32.eq F32.zero F32.negZero = true ∧
    (F32.isFinite a = true → F32.lt a 0x7F800000#32 = true ∧ F32.lt 0xFF800000#32 a = true)

/-- R141: the envelope at the rates a product can underflow or overflow to. At a rate of 0.0 the step is +infinity and
each ramp ends in one call; at a rate of +infinity the step is 0.0 and a ramp that has not reached its end changes
nothing, so it never ends, but that an Attack at level -0.0 makes it +0.0 (R11: -0.0 + 0.0) and stays in Attack. -/
def Obligations.EnvelopeAtExtremeRates : Prop :=
  ∀ e : Env, inRange F32.zero F32.one e.level = true → inRange F32.zero F32.one e.sustainLevel = true →
    (e.stage = .attack →
      (e.attackRate = F32.zero → e.process = { e with level := F32.one, stage := .decay }) ∧
      (e.attackRate = 0x7F800000#32 → F32.lt e.level F32.one = true →
        e.process = { e with level := if e.level = F32.negZero then F32.zero else e.level })) ∧
    (e.stage = .decay →
      (e.decayRate = F32.zero → e.process = { e with level := e.sustainLevel, stage := .sustain }) ∧
      (e.decayRate = 0x7F800000#32 → F32.gt e.level e.sustainLevel = true → e.process = e)) ∧
    (e.stage = .release →
      (e.releaseRate = F32.zero → e.process = { e with level := F32.zero, stage := .idle }) ∧
      (e.releaseRate = 0x7F800000#32 → F32.gt e.level F32.zero = true → e.process = e))
end

