-- ==== Sys2Proof/Laws/State.lean ====
section
/-! SUPPORT. What each update of State leaves in each field, true by rfl, so that no later proof unfolds an update. -/

namespace Sys2Proof.Machine

/-! ### A command's end -/

@[simp] theorem State.command_voices (s : State) (vs : Pool) : (s.command vs).voices = vs := rfl
@[simp] theorem State.command_out (s : State) (vs : Pool) : (s.command vs).out = none := rfl
@[simp] theorem State.command_inbox (s : State) (vs : Pool) : (s.command vs).inbox = s.inbox := rfl
@[simp] theorem State.command_noiseTick (s : State) (vs : Pool) : (s.command vs).noiseTick = s.noiseTick := rfl
@[simp] theorem State.command_cfg (s : State) (vs : Pool) : (s.command vs).cfg = s.cfg := rfl

/-! ### The shared effect of the SET_* words -/

@[simp] theorem State.applyParam_voices (s : State) (p : Param) :
    (s.applyParam p).voices = s.voices.applyParam s.cfg p := rfl
@[simp] theorem State.applyParam_out (s : State) (p : Param) : (s.applyParam p).out = none := rfl
@[simp] theorem State.applyParam_inbox (s : State) (p : Param) : (s.applyParam p).inbox = s.inbox := rfl
@[simp] theorem State.applyParam_noiseTick (s : State) (p : Param) : (s.applyParam p).noiseTick = s.noiseTick := rfl
@[simp] theorem State.applyParam_cfg (s : State) (p : Param) : (s.applyParam p).cfg = s.cfg := rfl

/-! ### SAMPLE -/

@[simp] theorem State.sample_voices (s : State) : s.sample.voices = s.voices.advance s.cfg s.noiseTick := rfl
@[simp] theorem State.sample_out (s : State) : s.sample.out = some (s.voices.mix s.cfg s.noiseTick) := rfl
@[simp] theorem State.sample_inbox (s : State) : s.sample.inbox = s.inbox := rfl
@[simp] theorem State.sample_noiseTick (s : State) : s.sample.noiseTick = s.noiseTick + 1 := rfl
@[simp] theorem State.sample_cfg (s : State) : s.sample.cfg = s.cfg := rfl

/-! ### Reset and wait -/

@[simp] theorem State.takeReset_voices (s : State) :
    s.takeReset.voices = Pool.build fun _ => Voice.construct s.cfg := rfl
@[simp] theorem State.takeReset_out (s : State) : s.takeReset.out = none := rfl
@[simp] theorem State.takeReset_inbox (s : State) : s.takeReset.inbox = s.inbox := rfl
@[simp] theorem State.takeReset_noiseTick (s : State) : s.takeReset.noiseTick = s.noiseTick := rfl
@[simp] theorem State.takeReset_cfg (s : State) : s.takeReset.cfg = s.cfg := rfl

@[simp] theorem State.quiet_voices (s : State) : s.quiet.voices = s.voices := rfl
@[simp] theorem State.quiet_out (s : State) : s.quiet.out = none := rfl
@[simp] theorem State.quiet_inbox (s : State) : s.quiet.inbox = s.inbox := rfl
@[simp] theorem State.quiet_noiseTick (s : State) : s.quiet.noiseTick = s.noiseTick := rfl
@[simp] theorem State.quiet_cfg (s : State) : s.quiet.cfg = s.cfg := rfl

/-! ### The component updates -/

@[simp] theorem Voice.deactivate_active (v : Voice) : v.deactivate.active = false := rfl
@[simp] theorem Voice.deactivate_note (v : Voice) : v.deactivate.note = none := rfl
@[simp] theorem Voice.deactivate_osc (v : Voice) : v.deactivate.osc = v.osc := rfl
@[simp] theorem Voice.deactivate_env (v : Voice) : v.deactivate.env = v.env := rfl
@[simp] theorem Voice.deactivate_flt (v : Voice) : v.deactivate.flt = v.flt := rfl
@[simp] theorem Voice.reset_active (v : Voice) : v.reset.active = false := rfl
@[simp] theorem Voice.reset_note (v : Voice) : v.reset.note = none := rfl
@[simp] theorem Voice.reset_osc (v : Voice) : v.reset.osc = v.osc.reset := rfl
@[simp] theorem Voice.reset_env (v : Voice) : v.reset.env = v.env.reset := rfl
@[simp] theorem Voice.reset_flt (v : Voice) : v.reset.flt = v.flt.reset := rfl
@[simp] theorem Voice.sound_active (c : Config) (d : F32) (v : Voice) : (v.sound c d).1.active = v.active := rfl
@[simp] theorem Voice.sound_note (c : Config) (d : F32) (v : Voice) : (v.sound c d).1.note = v.note := rfl
@[simp] theorem Voice.sound_osc (c : Config) (d : F32) (v : Voice) : (v.sound c d).1.osc = v.osc.advance := rfl
@[simp] theorem Voice.sound_env (c : Config) (d : F32) (v : Voice) : (v.sound c d).1.env = v.env.process := rfl

@[simp] theorem Osc.advance_sampleRate (o : Osc) : o.advance.sampleRate = o.sampleRate := rfl
@[simp] theorem Osc.advance_frequency (o : Osc) : o.advance.frequency = o.frequency := rfl
@[simp] theorem Osc.advance_waveform (o : Osc) : o.advance.waveform = o.waveform := rfl
@[simp] theorem Osc.reset_sampleRate (o : Osc) : o.reset.sampleRate = o.sampleRate := rfl
@[simp] theorem Osc.reset_frequency (o : Osc) : o.reset.frequency = o.frequency := rfl
@[simp] theorem Osc.reset_phase (o : Osc) : o.reset.phase = F32.zero := rfl
@[simp] theorem Osc.reset_waveform (o : Osc) : o.reset.waveform = o.waveform := rfl

@[simp] theorem Env.trigger_stage (e : Env) : e.trigger.stage = .attack := rfl
@[simp] theorem Env.trigger_level (e : Env) : e.trigger.level = e.level := rfl
@[simp] theorem Env.release_stage (e : Env) : e.release.stage = .release := rfl
@[simp] theorem Env.release_level (e : Env) : e.release.level = e.level := rfl
@[simp] theorem Env.reset_stage (e : Env) : e.reset.stage = .idle := rfl
@[simp] theorem Env.reset_level (e : Env) : e.reset.level = F32.zero := rfl
@[simp] theorem Env.isIdle_iff (e : Env) : e.isIdle = true ↔ e.stage = .idle := by unfold Env.isIdle; simp

end Sys2Proof.Machine
end

