-- ==== Sys2Proof/Laws/Pool.lean ====
section
/-! SUPPORT. Laws of the pool operations: which voice a scan finds, and what each operation leaves in each voice. -/

namespace Sys2Proof.Machine

@[simp] theorem Pool.build_get (f : VoiceIx → Voice) (i : VoiceIx) : (Pool.build f).voice i = f i := by
  unfold Pool.voice Pool.build; simp

/-- Two pools are equal when their voices are. -/
theorem Pool.ext_get (vs ws : Pool) (h : ∀ i : VoiceIx, vs.voice i = ws.voice i) : vs = ws := by
  apply Vector.ext
  intro i hi
  exact h ⟨i, hi⟩

/-- Building a pool from its own voices gives it back. -/
@[simp] theorem Pool.build_self (vs : Pool) : (Pool.build fun i => vs.voice i) = vs :=
  Pool.ext_get _ _ fun i => Pool.build_get _ i

@[simp] theorem Pool.put_same (vs : Pool) (i : VoiceIx) (v : Voice) : (vs.put i v).voice i = v := by
  unfold Pool.put; rw [Pool.build_get]; simp

theorem Pool.put_other (vs : Pool) (i j : VoiceIx) (v : Voice) (h : j ≠ i) : (vs.put i v).voice j = vs.voice j := by
  unfold Pool.put; rw [Pool.build_get]; simp [h]

theorem Voice.holds_iff (v : Voice) (n : Note) : v.holds n = true ↔ v.active = true ∧ v.note = some n := by
  unfold Voice.holds; simp

/-- A scan from index 0 up finds the first voice that passes its test. -/
theorem find_voiceIxs_some (p : VoiceIx → Bool) (i : VoiceIx) :
    voiceIxs.find? p = some i ↔ p i = true ∧ ∀ j < i, p j = false := by
  unfold voiceIxs
  rw [List.find?_eq_some_iff_getElem]
  constructor
  · rintro ⟨hp, k, hk, hki, hj⟩
    refine ⟨hp, fun j hji => ?_⟩
    have e : k = i.val := by
      have := congrArg Fin.val hki
      simpa using this
    have := hj j.val (by rw [e]; exact hji)
    simpa using this
  · rintro ⟨hp, hj⟩
    refine ⟨hp, i.val, by simp, by simp, fun j hji => ?_⟩
    have := hj ⟨j, by omega⟩ (by simpa [Fin.lt_def] using hji)
    simpa using this

theorem find_voiceIxs_none (p : VoiceIx → Bool) : voiceIxs.find? p = none ↔ ∀ i, p i = false := by
  unfold voiceIxs
  rw [List.find?_eq_none]
  simp

theorem Pool.holder_some (vs : Pool) (n : Note) (i : VoiceIx) :
    vs.holder n = some i ↔ (vs.voice i).holds n = true ∧ ∀ j < i, (vs.voice j).holds n = false := find_voiceIxs_some _ i

theorem Pool.holder_none (vs : Pool) (n : Note) : vs.holder n = none ↔ ∀ i : VoiceIx, (vs.voice i).holds n = false :=
  find_voiceIxs_none _

theorem Pool.firstFree_some (vs : Pool) (i : VoiceIx) :
    vs.firstFree = some i ↔ (vs.voice i).active = false ∧ ∀ j < i, (vs.voice j).active = true := by
  unfold Pool.firstFree
  rw [find_voiceIxs_some]
  simp

theorem Pool.firstFree_none (vs : Pool) : vs.firstFree = none ↔ ∀ i : VoiceIx, (vs.voice i).active = true := by
  unfold Pool.firstFree
  rw [find_voiceIxs_none]
  simp

/-- Everything NOTE_ON can do to the pool (R113, R114): retrigger the first holder, allocate the first free voice, or
drop the note. -/
theorem Pool.noteOn_cases (c : Config) (vs : Pool) (n : Note) :
    (∃ i, vs.holder n = some i ∧ vs.noteOn c n = vs.put i { vs.voice i with env := (vs.voice i).env.trigger }) ∨
    (∃ i, vs.holder n = none ∧ vs.firstFree = some i ∧
      vs.noteOn c n = vs.put i { vs.voice i with
        osc := (vs.voice i).osc.setFrequency (noteFreq c n)
        env := (vs.voice i).env.trigger
        active := true
        note := some n }) ∨
    (vs.holder n = none ∧ vs.firstFree = none ∧ vs.noteOn c n = vs) := by
  unfold Pool.noteOn
  cases h : vs.holder n with
  | some i =>
    have := ((Voice.holds_iff _ _).1 ((vs.holder_some n i).1 h).1).1
    exact .inl ⟨i, rfl, by simp [Voice.noteOn, this]⟩
  | none =>
    cases g : vs.firstFree with
    | some i =>
      have := ((vs.firstFree_some i).1 g).1
      exact .inr (.inl ⟨i, rfl, rfl, by simp [Voice.noteOn, this]⟩)
    | none => exact .inr (.inr ⟨rfl, rfl, rfl⟩)

/-- Everything NOTE_OFF can do to the pool (R115): release the first holder, or nothing. -/
theorem Pool.noteOff_cases (vs : Pool) (n : Note) :
    (∃ i, vs.holder n = some i ∧ vs.noteOff n = vs.put i { vs.voice i with env := (vs.voice i).env.release }) ∨
    (vs.holder n = none ∧ vs.noteOff n = vs) := by
  unfold Pool.noteOff
  cases h : vs.holder n with
  | some i =>
    have := ((Voice.holds_iff _ _).1 ((vs.holder_some n i).1 h).1).1
    exact .inl ⟨i, rfl, by simp [Voice.noteOff, this]⟩
  | none => exact .inr ⟨rfl, rfl⟩

@[simp] theorem Pool.applyParam_get (c : Config) (vs : Pool) (p : Param) (i : VoiceIx) :
    (vs.applyParam c p).voice i = (vs.voice i).applyParam c p := Pool.build_get _ i

@[simp] theorem Pool.advance_get (c : Config) (t : Nat) (vs : Pool) (i : VoiceIx) :
    (vs.advance c t).voice i = ((vs.voice i).process c (noiseDraw t i)).1 := Pool.build_get _ i

/-- Everything one SAMPLE can do to a voice (R106): nothing, deactivate it, or sound it. -/
theorem Voice.process_cases (c : Config) (d : F32) (v : Voice) :
    (v.active = false ∧ v.process c d = (v, F32.zero)) ∨
    (v.active = true ∧ v.env.stage = .idle ∧ v.process c d = (v.deactivate, F32.zero)) ∨
    (v.active = true ∧ v.env.stage ≠ .idle ∧ v.process c d = v.sound c d) := by
  unfold Voice.process Env.isIdle
  cases h : v.active
  · exact .inl ⟨rfl, by simp⟩
  · by_cases g : v.env.stage = .idle
    · exact .inr (.inl ⟨rfl, g, by simp [g]⟩)
    · exact .inr (.inr ⟨rfl, g, by simp [g]⟩)

end Sys2Proof.Machine
end

