-- ==== Sys2Proof/Laws/Exec.lean ====
section
/-! SUPPORT. What one operation word can do: exec answers a next state for every instruction (R139), keeps what no
operation writes (R34), and leaves the pool one of three shared operations leaves. -/

namespace Sys2Proof.Machine

/-- The pool after an instruction. -/
def poolAfter (s : State) : Instr → Pool
  | .noteOn n        => s.voices.noteOn s.cfg n
  | .noteOff n       => s.voices.noteOff n
  | .setEnvIdle x    => s.voices.applyParam s.cfg (.envelopeStage .idle x)
  | .setEnvAttack x  => s.voices.applyParam s.cfg (.envelopeStage .attack x)
  | .setEnvDecay x   => s.voices.applyParam s.cfg (.envelopeStage .decay x)
  | .setEnvSustain x => s.voices.applyParam s.cfg (.envelopeStage .sustain x)
  | .setEnvRelease x => s.voices.applyParam s.cfg (.envelopeStage .release x)
  | .setWaveSine     => s.voices.applyParam s.cfg (.waveform .sine)
  | .setWaveSquare   => s.voices.applyParam s.cfg (.waveform .square)
  | .setWaveTriangle => s.voices.applyParam s.cfg (.waveform .triangle)
  | .setWaveSawtooth => s.voices.applyParam s.cfg (.waveform .sawtooth)
  | .setWaveNoise    => s.voices.applyParam s.cfg (.waveform .noise)
  | .setFmodeLp      => s.voices.applyParam s.cfg (.filterMode .lowpass)
  | .setFmodeHp      => s.voices.applyParam s.cfg (.filterMode .highpass)
  | .setFmodeBp      => s.voices.applyParam s.cfg (.filterMode .bandpass)
  | .setCutoff x     => s.voices.applyParam s.cfg (.cutoff x)
  | .setRes x        => s.voices.applyParam s.cfg (.resonance x)
  | .setSrate x      => s.voices.applyParam s.cfg (.sampleRate x)
  | .sample          => s.voices.advance s.cfg s.noiseTick

/-- Every instruction answers a next state, with this pool; inbox and configuration are kept. -/
theorem exec_spec (i : Instr) (s : State) :
    ∃ t, exec i s = .next t ∧ t.voices = poolAfter s i ∧ t.inbox = s.inbox ∧ t.cfg = s.cfg := by
  have cmd : ∀ vs, ∃ t, Host.Outcome.next (φ := Fault) (ρ := Refusal) (s.command vs) = .next t ∧ t.voices = vs ∧
      t.inbox = s.inbox ∧ t.cfg = s.cfg := fun vs => ⟨s.command vs, by simp⟩
  cases i
  case sample => exact ⟨s.sample, by simp [exec, execSample, poolAfter]⟩
  all_goals exact cmd _

/-- Everything a step can do: wait, reset, ignore a reserved word, or perform an instruction. -/
theorem step_cases (s : State) :
    (s.inbox = [] ∧ step s = .next s.quiet) ∨
    (∃ rest, s.inbox = .rst :: rest ∧ step s = .next { s with inbox := rest }.takeReset) ∨
    (∃ w rest e, s.inbox = .word w :: rest ∧ decode w = .error e ∧ step s = .next { s with inbox := rest }.quiet) ∨
    (∃ w rest i, s.inbox = .word w :: rest ∧ decode w = .ok i ∧ step s = exec i { s with inbox := rest }) := by
  unfold step
  match h : s.inbox with
  | [] => exact .inl ⟨rfl, rfl⟩
  | .rst :: rest => exact .inr (.inl ⟨rest, rfl, rfl⟩)
  | .word w :: rest =>
    cases hd : decode w with
    | error e => exact .inr (.inr (.inl ⟨w, rest, e, rfl, hd, by simp [stepWord, hd]⟩))
    | ok i => exact .inr (.inr (.inr ⟨w, rest, i, rfl, hd, by simp [stepWord, hd]⟩))

end Sys2Proof.Machine
end

