-- ==== Sys2Proof/Laws/Rounding.lean ====
section
/-! SUPPORT. Laws of the rounding of R11: `roundHalfEven` and `roundMag` are monotone, `roundMag` is exact on the
binary32 values, and magnitude patterns are ordered as their values. -/

namespace Sys2Proof.F32

/-- What `roundHalfEven` answers: within half a unit, and even when exactly half. -/
theorem roundHalfEven_spec (n d : Nat) (hd : 0 < d) :
    2 * (roundHalfEven n d * d) ≤ 2 * n + d ∧ 2 * n ≤ 2 * (roundHalfEven n d * d) + d ∧
      ((2 * (roundHalfEven n d * d) = 2 * n + d ∨ 2 * n = 2 * (roundHalfEven n d * d) + d) →
        roundHalfEven n d % 2 = 0) := by
  have hn : d * (n / d) + n % d = n := Nat.div_add_mod n d
  have hr : n % d < d := Nat.mod_lt n hd
  unfold roundHalfEven
  simp only
  generalize hq : n / d = q at *
  generalize n % d = r at *
  have h1 : (q + 1) * d = d * q + d := by ring
  have h0 : q * d = d * q := by ring
  split
  · rw [h0]; omega
  · split
    · rw [h1]; omega
    · rcases Nat.mod_two_eq_zero_or_one q with h | h
      · rw [h, Nat.add_zero, h0]; omega
      · rw [h, h1]; omega

theorem roundHalfEven_mono (n d n' d' : Nat) (hd : 0 < d) (hd' : 0 < d') (h : n * d' ≤ n' * d) :
    roundHalfEven n d ≤ roundHalfEven n' d' := by
  obtain ⟨a1, -, a3⟩ := roundHalfEven_spec n d hd
  obtain ⟨-, b2, b3⟩ := roundHalfEven_spec n' d' hd'
  generalize roundHalfEven n d = r at *
  generalize roundHalfEven n' d' = r' at *
  by_contra hlt
  have hlt : r' + 1 ≤ r := by omega
  have e1 : 2 * (r * d) * d' ≤ (2 * n + d) * d' := Nat.mul_le_mul_right d' a1
  have e2 : 2 * n' * d ≤ (2 * (r' * d') + d') * d := Nat.mul_le_mul_right d b2
  have e3 : (r' + 1) * (d * d') ≤ r * (d * d') := Nat.mul_le_mul_right _ hlt
  have hpos : 0 < d * d' := Nat.mul_pos hd hd'
  have f1 : 2 * (r * (d * d')) ≤ 2 * (n * d') + d * d' := by nlinarith
  have f2 : 2 * (n' * d) ≤ 2 * (r' * (d * d')) + d * d' := by nlinarith
  have f3 : r' * (d * d') + d * d' ≤ r * (d * d') := by nlinarith
  have g1 : 2 * (r * (d * d')) = 2 * (n * d') + d * d' := by omega
  have g2 : 2 * (n' * d) = 2 * (r' * (d * d')) + d * d' := by omega
  have g3 : r * (d * d') = (r' + 1) * (d * d') := by nlinarith
  have hr : r = r' + 1 := Nat.eq_of_mul_eq_mul_right hpos g3
  have c1 : 2 * (r * d) = 2 * n + d :=
    Nat.eq_of_mul_eq_mul_right hd' (by nlinarith : 2 * (r * d) * d' = (2 * n + d) * d')
  have c2 : 2 * n' = 2 * (r' * d') + d' :=
    Nat.eq_of_mul_eq_mul_right hd (by nlinarith : 2 * n' * d = (2 * (r' * d') + d') * d)
  have := a3 (Or.inl c1)
  have := b3 (Or.inr c2)
  omega

/-- A multiple of the divisor is rounded to its quotient. -/
theorem roundHalfEven_mul (q d : Nat) (hd : 0 < d) : roundHalfEven (q * d) d = q := by
  unfold roundHalfEven
  simp [Nat.mul_div_cancel q hd, hd]

/-- The rounded significand has at most 24 places, or is the carry 2^24. -/
theorem roundHalfEven_shift_le (num den : Nat) (hd : 0 < den) :
    roundHalfEven num (den * 2 ^ roundShift num den) ≤ 2 ^ 24 := by
  have hlog : num / den < 2 ^ (roundShift num den + 24) := by
    unfold roundShift
    rcases Nat.eq_zero_or_pos (num / den) with h | h
    · rw [h]; positivity
    · calc num / den < 2 ^ (Nat.log2 (num / den) + 1) := Nat.lt_log2_self
        _ ≤ _ := Nat.pow_le_pow_right (by norm_num) (by omega)
  set k := roundShift num den
  have h1 : num < 2 ^ (k + 24) * den := (Nat.div_lt_iff_lt_mul hd).1 hlog
  calc roundHalfEven num (den * 2 ^ k) ≤ roundHalfEven (2 ^ 24 * (den * 2 ^ k)) (den * 2 ^ k) := by
        apply roundHalfEven_mono _ _ _ _ (by positivity) (by positivity)
        apply Nat.mul_le_mul_right
        calc num ≤ 2 ^ (k + 24) * den := h1.le
          _ = 2 ^ 24 * (den * 2 ^ k) := by ring
    _ = 2 ^ 24 := roundHalfEven_mul _ _ (by positivity)

/-- Where places are dropped, the rounded significand has its leading place. -/
theorem le_roundHalfEven_shift (num den : Nat) (hd : 0 < den) (hk : 0 < roundShift num den) :
    2 ^ 23 ≤ roundHalfEven num (den * 2 ^ roundShift num den) := by
  have hlog : 2 ^ (roundShift num den + 23) ≤ num / den := by
    have : num / den ≠ 0 := by
      intro h; unfold roundShift at hk; rw [h] at hk; revert hk; decide
    calc 2 ^ (roundShift num den + 23) = 2 ^ Nat.log2 (num / den) := by
          congr 1; unfold roundShift at hk ⊢; omega
      _ ≤ _ := Nat.log2_self_le this
  set k := roundShift num den
  have h1 : 2 ^ (k + 23) * den ≤ num := (Nat.le_div_iff_mul_le hd).1 hlog
  calc 2 ^ 23 = roundHalfEven (2 ^ 23 * (den * 2 ^ k)) (den * 2 ^ k) :=
        (roundHalfEven_mul _ _ (by positivity)).symm
    _ ≤ _ := by
        apply roundHalfEven_mono _ _ _ _ (by positivity) (by positivity)
        apply Nat.mul_le_mul_right
        calc 2 ^ 23 * (den * 2 ^ k) = 2 ^ (k + 23) * den := by ring
          _ ≤ num := h1

theorem roundMag_le_infMag (num den : Nat) : roundMag num den ≤ infMag := Nat.min_le_right _ _

/-- Rounding keeps the order of the exact values `num / den`. -/
theorem roundMag_mono (num den num' den' : Nat) (hd : 0 < den) (hd' : 0 < den') (h : num * den' ≤ num' * den) :
    roundMag num den ≤ roundMag num' den' := by
  have hq : num / den ≤ num' / den' := by
    rw [Nat.le_div_iff_mul_le hd']
    have h2 : num / den * den ≤ num := Nat.div_mul_le_self num den
    have h3 : num / den * den' * den ≤ num' * den := by
      calc num / den * den' * den = num / den * den * den' := by ring
        _ ≤ num * den' := Nat.mul_le_mul_right _ h2
        _ ≤ _ := h
    exact Nat.le_of_mul_le_mul_right h3 hd
  have hk : roundShift num den ≤ roundShift num' den' := by
    have : Nat.log2 (num / den) ≤ Nat.log2 (num' / den') := by
      rcases Nat.eq_zero_or_pos (num / den) with h0 | h0
      · rw [h0]; exact Nat.zero_le _
      · rw [Nat.le_log2 (by omega)]
        exact le_trans (Nat.log2_self_le (by omega)) hq
    unfold roundShift; omega
  unfold roundMag
  apply min_le_min_right
  rcases Nat.eq_or_lt_of_le hk with heq | hlt
  · rw [← heq]
    apply Nat.add_le_add_left
    apply roundHalfEven_mono _ _ _ _ (by positivity) (by positivity)
    calc num * (den' * 2 ^ roundShift num den) = num * den' * 2 ^ roundShift num den := by ring
      _ ≤ num' * den * 2 ^ roundShift num den := Nat.mul_le_mul_right _ h
      _ = _ := by ring
  · have hu := roundHalfEven_shift_le num den hd
    have hl := le_roundHalfEven_shift num' den' hd' (by omega)
    generalize roundHalfEven num _ = a at *
    generalize roundHalfEven num' _ = b at *
    omega

/-- Magnitude patterns are ordered as their values. -/
theorem magValue_lt_succ (m : Nat) : magValue m < magValue (m + 1) := by
  unfold magValue
  rcases Nat.lt_or_ge (m + 1) (2 ^ 23) with h | h
  · rw [Nat.div_eq_of_lt h, Nat.div_eq_of_lt (by omega)]; simp
  · obtain ⟨e, f, hf, rfl⟩ : ∃ e f, f < 2 ^ 23 ∧ m = 2 ^ 23 * e + f :=
      ⟨m / 2 ^ 23, m % 2 ^ 23, Nat.mod_lt _ (by norm_num), (Nat.div_add_mod m _).symm⟩
    have d1 : (2 ^ 23 * e + f) / 2 ^ 23 = e := by omega
    have m1 : (2 ^ 23 * e + f) % 2 ^ 23 = f := by omega
    rcases Nat.lt_or_ge (f + 1) (2 ^ 23) with hc | hc
    · have d2 : (2 ^ 23 * e + f + 1) / 2 ^ 23 = e := by omega
      have m2 : (2 ^ 23 * e + f + 1) % 2 ^ 23 = f + 1 := by omega
      rw [d1, m1, d2, m2]
      have : e ≠ 0 := by rintro rfl; omega
      simp only [this, if_false]
      exact Nat.mul_lt_mul_of_pos_right (by omega) (by positivity)
    · have d2 : (2 ^ 23 * e + f + 1) / 2 ^ 23 = e + 1 := by omega
      have m2 : (2 ^ 23 * e + f + 1) % 2 ^ 23 = 0 := by omega
      rw [d1, m1, d2, m2]
      rcases Nat.eq_zero_or_pos e with rfl | he
      · simp; omega
      · obtain ⟨e', rfl⟩ : ∃ e', e = e' + 1 := ⟨e - 1, by omega⟩
        simp only [Nat.succ_ne_zero, if_false, Nat.add_sub_cancel, Nat.add_zero]
        have hp : 0 < 2 ^ e' := by positivity
        rw [pow_succ 2 e']
        nlinarith

theorem magValue_strictMono : StrictMono magValue := strictMono_nat_of_lt_succ magValue_lt_succ

/-- A binary32 value is its own rounding. -/
theorem roundMag_exact (m den : Nat) (hd : 0 < den) (hm : m ≤ infMag) : roundMag (magValue m * den) den = m := by
  obtain ⟨e, f, hf, rfl⟩ : ∃ e f, f < 2 ^ 23 ∧ m = 2 ^ 23 * e + f :=
    ⟨m / 2 ^ 23, m % 2 ^ 23, Nat.mod_lt _ (by norm_num), (Nat.div_add_mod m _).symm⟩
  have d1 : (2 ^ 23 * e + f) / 2 ^ 23 = e := by omega
  have m1 : (2 ^ 23 * e + f) % 2 ^ 23 = f := by omega
  unfold roundMag
  have hdiv : magValue (2 ^ 23 * e + f) * den / den = magValue (2 ^ 23 * e + f) := Nat.mul_div_cancel _ hd
  unfold roundShift
  rw [hdiv]
  rcases Nat.eq_zero_or_pos e with rfl | he
  · have hv : magValue (2 ^ 23 * 0 + f) = f := by unfold magValue; rw [d1]; simp
    have hl : Nat.log2 f - 23 = 0 := by
      rcases Nat.eq_zero_or_pos f with rfl | h0
      · decide
      · have := (Nat.log2_lt (by omega)).2 hf; omega
    rw [hv, hl]
    simp only [pow_zero, mul_one, zero_mul, Nat.zero_add, mul_zero]
    rw [roundHalfEven_mul f den hd]
    have : f ≤ infMag := by omega
    omega
  · have hv : magValue (2 ^ 23 * e + f) = (2 ^ 23 + f) * 2 ^ (e - 1) := by
      unfold magValue; rw [d1, m1, if_neg (by omega)]
    have hl : Nat.log2 ((2 ^ 23 + f) * 2 ^ (e - 1)) - 23 = e - 1 := by
      have hne : (2 ^ 23 + f) * 2 ^ (e - 1) ≠ 0 := by positivity
      have h1 : 23 + (e - 1) ≤ Nat.log2 ((2 ^ 23 + f) * 2 ^ (e - 1)) := by
        rw [Nat.le_log2 hne, pow_add]
        exact Nat.mul_le_mul_right _ (by omega)
      have h2 : Nat.log2 ((2 ^ 23 + f) * 2 ^ (e - 1)) < 24 + (e - 1) := by
        rw [Nat.log2_lt hne, pow_add]
        exact Nat.mul_lt_mul_of_pos_right (by omega) (by positivity)
      omega
    rw [hv, hl]
    have : (2 ^ 23 + f) * 2 ^ (e - 1) * den = (2 ^ 23 + f) * (den * 2 ^ (e - 1)) := by ring
    simp only [this, roundHalfEven_mul _ _ (show 0 < den * 2 ^ (e - 1) by positivity)]
    have e1 : (e - 1) * 2 ^ 23 + (2 ^ 23 + f) = 2 ^ 23 * e + f := by
      obtain ⟨e', rfl⟩ : ∃ e', e = e' + 1 := ⟨e - 1, by omega⟩
      rw [Nat.add_sub_cancel]; ring
    rw [e1, Nat.min_eq_left hm]

/-- Rounding does not pass a binary32 value from below. -/
theorem roundMag_le (num den m : Nat) (hd : 0 < den) (hm : m ≤ infMag) (h : num ≤ magValue m * den) :
    roundMag num den ≤ m := by
  calc roundMag num den ≤ roundMag (magValue m * den) den :=
        roundMag_mono _ _ _ _ hd hd (Nat.mul_le_mul_right _ h)
    _ = m := roundMag_exact m den hd hm

/-- Rounding does not pass a binary32 value from above. -/
theorem le_roundMag (num den m : Nat) (hd : 0 < den) (hm : m ≤ infMag) (h : magValue m * den ≤ num) :
    m ≤ roundMag num den := by
  calc m = roundMag (magValue m * den) den := (roundMag_exact m den hd hm).symm
    _ ≤ roundMag num den := roundMag_mono _ _ _ _ hd hd (Nat.mul_le_mul_right _ h)

/-- A binary32 value is a 24-place significand times a power of two. -/
theorem magValue_significand (m : Nat) : ∃ a k, a < 2 ^ 24 ∧ magValue m = a * 2 ^ k := by
  unfold magValue
  split
  · next h => exact ⟨m, 0, by omega, by simp⟩
  · exact ⟨2 ^ 23 + m % 2 ^ 23, m / 2 ^ 23 - 1, by omega, rfl⟩

/-- The remainder of a binary32 value by 1.0 is itself one below 1.0 (R11: `fmod32` "is exact"). -/
theorem roundMag_mod_one_lt (m : Nat) : roundMag (magValue m % 2 ^ 149) 1 < 0x3F800000 := by
  obtain ⟨a, k, ha, hv⟩ := magValue_significand m
  rw [hv]
  have hlt : a * 2 ^ k % 2 ^ 149 < 2 ^ 149 := Nat.mod_lt _ (by positivity)
  have hle : a * 2 ^ k % 2 ^ 149 ≤ a * 2 ^ k := Nat.mod_le _ _
  have hdvd : ∀ s, s ≤ k → s ≤ 149 → 2 ^ s ∣ a * 2 ^ k % 2 ^ 149 := fun s h1 h2 =>
    (Nat.dvd_mod_iff (pow_dvd_pow 2 h2)).2 (Dvd.dvd.mul_left (pow_dvd_pow 2 h1) a)
  generalize a * 2 ^ k % 2 ^ 149 = r at *
  unfold roundMag roundShift
  rw [Nat.div_one]
  simp only [Nat.one_mul]
  rcases Nat.eq_zero_or_pos r with rfl | hr
  · decide
  have hlog1 : Nat.log2 r < 149 := (Nat.log2_lt (by omega)).2 hlt
  have hlog2 : Nat.log2 r < 24 + k := by
    rw [Nat.log2_lt (by omega), pow_add]
    calc r ≤ a * 2 ^ k := hle
      _ < 2 ^ 24 * 2 ^ k := Nat.mul_lt_mul_of_pos_right ha (by positivity)
  obtain ⟨q, hq⟩ := hdvd (Nat.log2 r - 23) (by omega) (by omega)
  have hq24 : q < 2 ^ 24 := by
    have h1 : r < 2 ^ (Nat.log2 r + 1) := Nat.lt_log2_self
    have h2 : 2 ^ (Nat.log2 r + 1) ≤ 2 ^ (Nat.log2 r - 23) * 2 ^ 24 := by
      rw [← pow_add]; exact Nat.pow_le_pow_right (by norm_num) (by omega)
    have h3 : 2 ^ (Nat.log2 r - 23) * q < 2 ^ (Nat.log2 r - 23) * 2 ^ 24 := by omega
    exact Nat.lt_of_mul_lt_mul_left h3
  generalize hs : Nat.log2 r - 23 = s at *
  rw [hq, Nat.mul_comm (2 ^ s) q, roundHalfEven_mul _ _ (by positivity)]
  apply lt_of_le_of_lt (Nat.min_le_left _ _)
  omega

end Sys2Proof.F32
end

