-- ==== Sys2Proof/Laws/Float.lean ====
section
/-! SUPPORT. Laws of the binary32 primitives of R11, in terms of the exact value of an operand: what each operation
answers, that it keeps the order of exact results, and when it gives no NaN. -/

namespace Sys2Proof.F32

/-! ### Patterns -/

theorem toNat_ofMag (s : Bool) (m : Nat) (h : m < 2 ^ 31) :
    (ofMag s m).toNat = if s then 2 ^ 31 + m else m := by
  unfold ofMag; rw [BitVec.toNat_ofNat]; cases s <;> simp <;> omega

@[simp] theorem mag_ofMag (s : Bool) (m : Nat) (h : m < 2 ^ 31) : mag (ofMag s m) = m := by
  unfold mag; rw [toNat_ofMag s m h]; cases s <;> simp <;> omega

@[simp] theorem sign_ofMag (s : Bool) (m : Nat) (h : m < 2 ^ 31) : sign (ofMag s m) = s := by
  unfold sign; rw [toNat_ofMag s m h]; cases s <;> simp; omega

theorem mag_lt (x : F32) : mag x < 2 ^ 31 := Nat.mod_lt _ (by norm_num)

/-- A value is its sign and its magnitude pattern. -/
theorem ofMag_sign_mag (x : F32) : ofMag (sign x) (mag x) = x := by
  apply BitVec.eq_of_toNat_eq
  rw [toNat_ofMag _ _ (mag_lt x)]
  have := x.isLt
  unfold sign mag
  simp only [decide_eq_true_eq]
  split <;> omega

theorem infMag_lt : infMag < 2 ^ 31 := by decide

@[simp] theorem isNaN_nanOf (op : FOp) (a b : F32) : isNaN (nanOf op a b) = true := by
  unfold nanOf quietNaN isNaN mag infMag
  simp only [decide_eq_true_eq]
  generalize Config.nanBits op a b = c
  have h1 : (c.extractLsb' 22 1).toNat < 2 := (c.extractLsb' 22 1).isLt
  have h2 : (c.extractLsb' 0 22).toNat < 2 ^ 22 := (c.extractLsb' 0 22).isLt
  rw [BitVec.toNat_append, BitVec.toNat_append]
  generalize (c.extractLsb' 22 1).toNat = s at *
  generalize (c.extractLsb' 0 22).toNat = p at *
  rw [← Nat.shiftLeft_add_eq_or_of_lt h2, ← Nat.shiftLeft_add_eq_or_of_lt (by decide)]
  simp only [Nat.shiftLeft_eq, BitVec.toNat_ofNat]
  omega

@[simp] theorem isNaN_ofMag (s : Bool) (m : Nat) (h : m ≤ infMag) : isNaN (ofMag s m) = false := by
  unfold isNaN; rw [mag_ofMag s m (by have := infMag_lt; omega)]; simp; omega

@[simp] theorem value_ofMag (s : Bool) (m : Nat) (h : m < 2 ^ 31) :
    value (ofMag s m) = if s then -(magValue m : Int) else magValue m := by
  unfold value; rw [mag_ofMag s m h, sign_ofMag s m h]

/-- A NaN operand gives a NaN sum. -/
theorem isNaN_add (a b : F32) (h : isNaN a = true ∨ isNaN b = true) : isNaN (add a b) = true := by
  unfold add; rcases h with h | h <;> simp [h]

/-- A NaN operand gives a NaN product. -/
theorem isNaN_mul (a b : F32) (h : isNaN a = true ∨ isNaN b = true) : isNaN (mul a b) = true := by
  unfold mul; rcases h with h | h <;> simp [h]

theorem isFinite_iff (x : F32) : isFinite x = true ↔ isNaN x = false ∧ isInf x = false := by
  unfold isFinite isNaN isInf; simp; omega

theorem value_neg_iff (x : F32) : value x < 0 ↔ sign x = true ∧ mag x ≠ 0 := by
  have h0 : magValue 0 = 0 := by decide
  have hp : mag x ≠ 0 → 0 < magValue (mag x) := fun h => by
    have := magValue_strictMono (Nat.pos_of_ne_zero h); omega
  unfold value
  cases hs : sign x <;> simp
  constructor
  · rintro h e; rw [e, h0] at h; omega
  · intro h; exact hp h

theorem magValue_eq_zero_iff (m : Nat) : magValue m = 0 ↔ m = 0 := by
  have h0 : magValue 0 = 0 := by decide
  constructor
  · intro h; by_contra hne
    have := magValue_strictMono (Nat.pos_of_ne_zero hne); omega
  · rintro rfl; exact h0

theorem natAbs_value (x : F32) : (value x).natAbs = magValue (mag x) := by
  unfold value; split <;> simp

/-! ### Comparison and range -/

theorem le_iff (a b : F32) : le a b = true ↔ isNaN a = false ∧ isNaN b = false ∧ value a ≤ value b := by
  unfold le; simp [and_assoc]

theorem lt_iff (a b : F32) : lt a b = true ↔ isNaN a = false ∧ isNaN b = false ∧ value a < value b := by
  unfold lt; simp [and_assoc]

theorem eq_iff (a b : F32) : eq a b = true ↔ isNaN a = false ∧ isNaN b = false ∧ value a = value b := by
  unfold eq; simp [and_assoc]

theorem value_zero : value zero = 0 := by decide
theorem value_one : value one = 2 ^ 149 := by decide +kernel

/-- What `clamp` answers: the bound that is passed, or the operand itself (R11). -/
theorem clamp_cases (x lo hi : F32) :
    (lt x lo = true ∧ clamp x lo hi = lo) ∨ (lt x lo = false ∧ gt x hi = true ∧ clamp x lo hi = hi) ∨
      (lt x lo = false ∧ gt x hi = false ∧ clamp x lo hi = x) := by
  unfold clamp
  cases h1 : lt x lo <;> cases h2 : gt x hi <;> simp

/-- A clamped operand lies between the bounds. -/
theorem clamp_between (x lo hi : F32) (hx : isNaN x = false) (h : le lo hi = true) :
    le lo (clamp x lo hi) = true ∧ le (clamp x lo hi) hi = true := by
  obtain ⟨h1, h2, h3⟩ := (le_iff _ _).1 h
  rcases clamp_cases x lo hi with ⟨a, e⟩ | ⟨a, b, e⟩ | ⟨a, b, e⟩ <;> rw [e]
  · exact ⟨(le_iff _ _).2 ⟨h1, h1, le_refl _⟩, h⟩
  · exact ⟨h, (le_iff _ _).2 ⟨h2, h2, le_refl _⟩⟩
  · unfold gt at b
    simp only [lt, hx, h1, h2, Bool.not_false, Bool.true_and, decide_eq_false_iff_not, not_lt] at a b
    exact ⟨(le_iff _ _).2 ⟨h1, hx, a⟩, (le_iff _ _).2 ⟨hx, h2, b⟩⟩

/-- A value between two finite values is finite. -/
theorem isFinite_of_between (x lo hi : F32) (h1 : le lo x = true) (h2 : le x hi = true) (hl : isFinite lo = true)
    (hh : isFinite hi = true) : isFinite x = true := by
  obtain ⟨-, nx, v1⟩ := (le_iff _ _).1 h1
  obtain ⟨-, -, v2⟩ := (le_iff _ _).1 h2
  unfold isFinite at *
  simp only [decide_eq_true_eq] at *
  by_contra hc
  have hx : infMag ≤ mag x := by omega
  have big : magValue infMag ≤ magValue (mag x) := magValue_strictMono.monotone hx
  have b1 := magValue_strictMono hl
  have b2 := magValue_strictMono hh
  unfold value at v1 v2
  split_ifs at v1 v2 <;> omega

/-! ### Rounding an exact value -/

/-- An exact number of units, rounded: the value of the binary32 nearest to it. -/
def roundInt (v : Int) : Int := if v < 0 then -(magValue (roundMag v.natAbs 1) : Int) else magValue (roundMag v.natAbs 1)

theorem roundInt_mono (v w : Int) (h : v ≤ w) : roundInt v ≤ roundInt w := by
  have key : ∀ a b : Nat, a ≤ b → magValue (roundMag a 1) ≤ magValue (roundMag b 1) := fun a b hab =>
    magValue_strictMono.monotone (roundMag_mono _ _ _ _ Nat.one_pos Nat.one_pos (by omega))
  unfold roundInt
  split <;> split
  · have := key w.natAbs v.natAbs (by omega); omega
  · omega
  · omega
  · have := key v.natAbs w.natAbs (by omega); omega

theorem roundInt_value (x : F32) (h : isNaN x = false) : roundInt (value x) = value x := by
  have hm : mag x ≤ infMag := by unfold isNaN at h; simpa using h
  have he := roundMag_exact (mag x) 1 Nat.one_pos hm
  rw [Nat.mul_one] at he
  unfold roundInt
  rw [natAbs_value, he]
  unfold value
  cases hs : sign x <;> simp only [if_true, Bool.false_eq_true, if_false]
  · rw [if_neg (by omega)]
  · split
    · rfl
    · omega

theorem roundInt_zero : roundInt 0 = 0 := by decide

/-- A finite sum: no NaN, and its value is the exact sum, rounded once. -/
theorem add_finite (a b : F32) (ha : isFinite a = true) (hb : isFinite b = true) :
    isNaN (add a b) = false ∧ value (add a b) = roundInt (value a + value b) := by
  obtain ⟨a1, a2⟩ := (isFinite_iff a).1 ha
  obtain ⟨b1, b2⟩ := (isFinite_iff b).1 hb
  unfold add
  simp only [a1, b1, a2, b2, Bool.or_self, Bool.false_eq_true, if_false]
  have hr := roundMag_le_infMag (value a + value b).natAbs 1
  have hi := infMag_lt
  split
  · next h =>
    rw [isNaN_ofMag _ _ (Nat.zero_le _), value_ofMag _ _ (by norm_num), h, roundInt_zero]
    have : magValue 0 = 0 := by decide
    simp [this]
  · rw [isNaN_ofMag _ _ hr, value_ofMag _ _ (by omega)]
    refine ⟨rfl, ?_⟩
    unfold roundInt
    by_cases h : value a + value b < 0 <;> simp [h]

@[simp] theorem mag_negate (x : F32) : mag (negate x) = mag x := mag_ofMag _ _ (mag_lt x)

@[simp] theorem sign_negate (x : F32) : sign (negate x) = !sign x := sign_ofMag _ _ (mag_lt x)

@[simp] theorem value_negate (x : F32) : value (negate x) = -value x := by
  unfold value; rw [sign_negate, mag_negate]; cases sign x <;> simp

@[simp] theorem isNaN_negate (x : F32) : isNaN (negate x) = isNaN x := by unfold isNaN; rw [mag_negate]
@[simp] theorem isInf_negate (x : F32) : isInf (negate x) = isInf x := by unfold isInf; rw [mag_negate]
@[simp] theorem isFinite_negate (x : F32) : isFinite (negate x) = isFinite x := by unfold isFinite; rw [mag_negate]

/-- A finite difference: no NaN, and its value is the exact difference, rounded once. -/
theorem sub_finite (a b : F32) (ha : isFinite a = true) (hb : isFinite b = true) :
    isNaN (sub a b) = false ∧ value (sub a b) = roundInt (value a - value b) := by
  have := add_finite a (negate b) ha (by rw [isFinite_negate]; exact hb)
  rwa [value_negate, ← Int.sub_eq_add_neg] at this

/-- A finite operand plus an infinity is that infinity. -/
theorem add_inf (a b : F32) (ha : isFinite a = true) (hb : isInf b = true) : add a b = b := by
  obtain ⟨a1, a2⟩ := (isFinite_iff a).1 ha
  have b1 : isNaN b = false := by unfold isInf at hb; unfold isNaN; simp at hb ⊢; omega
  unfold add; simp [a1, a2, b1, hb]

/-- A product of two finite values: no NaN, the sign of the product, the exact magnitude rounded once. -/
theorem mul_finite (a b : F32) (ha : isFinite a = true) (hb : isFinite b = true) :
    mul a b = ofMag (sign a != sign b) (roundMag (magValue (mag a) * magValue (mag b)) (2 ^ 149)) := by
  obtain ⟨a1, a2⟩ := (isFinite_iff a).1 ha
  obtain ⟨b1, b2⟩ := (isFinite_iff b).1 hb
  unfold mul; simp [a1, b1, a2, b2]

/-- A quotient of a finite value by a finite one that is not zero: the exact magnitude rounded once. -/
theorem div_finite (a b : F32) (ha : isFinite a = true) (hb : isFinite b = true) (h0 : isZero b = false) :
    div a b = ofMag (sign a != sign b) (roundMag (magValue (mag a) * 2 ^ 149) (magValue (mag b))) := by
  obtain ⟨a1, a2⟩ := (isFinite_iff a).1 ha
  obtain ⟨b1, b2⟩ := (isFinite_iff b).1 hb
  unfold div; simp [a1, b1, a2, b2, h0]

/-! ### The bounds the invariant rests on -/

/-- A value that is positive or +0.0, or +infinity: no NaN and no sign. -/
def isPlus (x : F32) : Bool := !isNaN x && !sign x

theorem isPlus_iff (x : F32) : isPlus x = true ↔ isNaN x = false ∧ sign x = false := by unfold isPlus; simp

theorem isPlus_ofMag (m : Nat) (h : m ≤ infMag) : isPlus (ofMag false m) = true := by
  have := infMag_lt
  rw [isPlus_iff, isNaN_ofMag _ _ h, sign_ofMag _ _ (by omega)]; simp

theorem value_nonneg_of_isPlus (x : F32) (h : isPlus x = true) : 0 ≤ value x := by
  have := (isPlus_iff x).1 h
  unfold value; rw [this.2]; simp

/-- A sample rate is finite, positive and without a sign. -/
theorem isRate_spec (x : F32) (h : isRate x = true) :
    isFinite x = true ∧ isNaN x = false ∧ sign x = false ∧ isZero x = false ∧ 0 < value x := by
  unfold isRate gt at h
  simp only [Bool.and_eq_true] at h
  obtain ⟨hf, hg⟩ := h
  obtain ⟨-, n, v⟩ := (lt_iff _ _).1 hg
  rw [value_zero] at v
  refine ⟨hf, n, ?_, ?_, v⟩
  · by_contra hs
    have hs : sign x = true := by simpa using hs
    unfold value at v; rw [hs] at v; simp at v; omega
  · unfold isZero; simp only [decide_eq_false_iff_not]
    intro h0
    have : magValue (mag x) = 0 := (magValue_eq_zero_iff _).2 h0
    unfold value at v; rw [this] at v; revert v; split <;> decide

/-- A product of two values without a sign, both finite, has no sign and is no NaN. -/
theorem isPlus_mul (a b : F32) (ha : isFinite a = true) (hb : isFinite b = true) (sa : sign a = false)
    (sb : sign b = false) : isPlus (mul a b) = true := by
  rw [mul_finite a b ha hb, sa, sb]
  exact isPlus_ofMag _ (roundMag_le_infMag _ _)

/-- The step `1.0 / rate` of a rate without a sign has no sign and is no NaN: +infinity for a rate of 0.0, 0.0 for an
infinite one (R141). -/
theorem isPlus_one_div (r : F32) (h : isPlus r = true) : isPlus (div one r) = true := by
  obtain ⟨h1, h2⟩ := (isPlus_iff r).1 h
  have n1 : isNaN one = false := by decide
  have i1 : isInf one = false := by decide
  have z1 : isZero one = false := by decide
  have s1 : sign one = false := by decide
  unfold div
  simp only [n1, i1, z1, s1, h1, h2, Bool.or_self, Bool.false_eq_true, if_false, bne_self_eq_false]
  split
  · exact isPlus_ofMag 0 (Nat.zero_le _)
  · split
    · exact isPlus_ofMag _ le_rfl
    · exact isPlus_ofMag _ (roundMag_le_infMag _ _)

theorem isFinite_or_isInf (x : F32) (h : isNaN x = false) : isFinite x = true ∨ isInf x = true := by
  unfold isNaN at h; unfold isFinite isInf; simp at *; omega

theorem isFinite_of_unit (x : F32) (h1 : le zero x = true) (h2 : le x one = true) : isFinite x = true :=
  isFinite_of_between x zero one h1 h2 (by decide) (by decide)

/-- Attack: a level in [0, 1] plus a step without a sign is no NaN and not negative. -/
theorem add_unit_plus (l d : F32) (h1 : le zero l = true) (h2 : le l one = true) (hd : isPlus d = true) :
    isNaN (add l d) = false ∧ 0 ≤ value (add l d) := by
  have hl := isFinite_of_unit l h1 h2
  have hn := ((isPlus_iff d).1 hd).1
  rcases isFinite_or_isInf d hn with hf | hi
  · obtain ⟨a, b⟩ := add_finite l d hl hf
    refine ⟨a, ?_⟩
    rw [b, ← roundInt_zero]
    apply roundInt_mono
    have := value_nonneg_of_isPlus d hd
    have := ((le_iff _ _).1 h1).2.2
    rw [value_zero] at this
    omega
  · rw [add_inf l d hl hi]
    exact ⟨hn, value_nonneg_of_isPlus d hd⟩

/-- Decay and release: a level in [0, 1] less a step without a sign is no NaN and at most 1. -/
theorem sub_unit_plus (l d : F32) (h1 : le zero l = true) (h2 : le l one = true) (hd : isPlus d = true) :
    isNaN (sub l d) = false ∧ value (sub l d) ≤ value one := by
  have hl := isFinite_of_unit l h1 h2
  have hn := ((isPlus_iff d).1 hd).1
  have h0 := value_nonneg_of_isPlus d hd
  rcases isFinite_or_isInf d hn with hf | hi
  · obtain ⟨a, b⟩ := sub_finite l d hl hf
    refine ⟨a, ?_⟩
    rw [b, ← roundInt_value one (by decide)]
    apply roundInt_mono
    have := ((le_iff _ _).1 h2).2.2
    omega
  · unfold sub
    rw [add_inf l (negate d) hl (by rw [isInf_negate]; exact hi), isNaN_negate, value_negate]
    refine ⟨hn, ?_⟩
    have : value one = 2 ^ 149 := value_one
    have : (0 : Int) ≤ 2 ^ 149 := by positivity
    omega

/-- A NaN operand gives a NaN difference. -/
theorem isNaN_sub (a b : F32) (h : isNaN a = true ∨ isNaN b = true) : isNaN (sub a b) = true :=
  isNaN_add _ _ (by rwa [isNaN_negate])

/-- A NaN operand gives a NaN quotient. -/
theorem isNaN_div (a b : F32) (h : isNaN a = true ∨ isNaN b = true) : isNaN (div a b) = true := by
  unfold div; rcases h with h | h <;> simp [h]

/-- A NaN made by an operation is quiet. -/
theorem quiet_nanOf (op : FOp) (a b : F32) : (nanOf op a b).toNat / 2 ^ 22 % 2 = 1 := by
  unfold nanOf quietNaN
  generalize Config.nanBits op a b = c
  have h2 : (c.extractLsb' 0 22).toNat < 2 ^ 22 := (c.extractLsb' 0 22).isLt
  rw [BitVec.toNat_append, BitVec.toNat_append, ← Nat.shiftLeft_add_eq_or_of_lt h2,
    ← Nat.shiftLeft_add_eq_or_of_lt (by decide)]
  generalize (c.extractLsb' 22 1).toNat = s
  generalize (c.extractLsb' 0 22).toNat = p at *
  simp only [Nat.shiftLeft_eq, BitVec.toNat_ofNat]
  omega

/-- Half a sample rate is finite, not negative, and at most the rate (R73). -/
theorem half_rate (sr : F32) (h : isRate sr = true) :
    isFinite (div sr 0x40000000#32) = true ∧ le zero (div sr 0x40000000#32) = true ∧
      value (div sr 0x40000000#32) ≤ value sr := by
  obtain ⟨hf, hn, hs, -, -⟩ := isRate_spec sr h
  have two : magValue (mag (0x40000000#32 : F32)) = 2 ^ 150 := by decide +kernel
  have hm : mag sr < infMag := by unfold isFinite at hf; simpa using hf
  have hle : roundMag (magValue (mag sr) * 2 ^ 149) (2 ^ 150) ≤ mag sr :=
    roundMag_le _ _ _ (by positivity) hm.le (Nat.mul_le_mul_left _ (by norm_num))
  have hlt := infMag_lt
  have s2 : sign (0x40000000#32 : F32) = false := by decide
  rw [div_finite sr _ hf (by decide) (by decide), two, hs, s2]
  generalize hr : roundMag (magValue (mag sr) * 2 ^ 149) (2 ^ 150) = r at *
  have hv := magValue_strictMono.monotone hle
  refine ⟨?_, ?_, ?_⟩
  · unfold isFinite; rw [mag_ofMag _ _ (by omega)]; simp; omega
  · rw [le_iff, isNaN_ofMag _ _ (by omega), value_ofMag _ _ (by omega), value_zero]
    refine ⟨by decide, rfl, ?_⟩
    simp
  · rw [value_ofMag _ _ (by omega)]; unfold value; rw [hs]; simp; omega

/-- The phase increment of a frequency in [0, sample_rate/2] lies in [0, 1] (R66). -/
theorem increment_unit (f sr : F32) (h : isRate sr = true) (h0 : le zero f = true)
    (h1 : le f (div sr 0x40000000#32) = true) : le zero (div f sr) = true ∧ le (div f sr) one = true := by
  obtain ⟨hf, -, hs, hz, hv⟩ := isRate_spec sr h
  obtain ⟨g1, g2, g3⟩ := half_rate sr h
  have ff := isFinite_of_between f zero _ h0 h1 (by decide) g1
  obtain ⟨-, nf, vf⟩ := (le_iff _ _).1 h0
  rw [value_zero] at vf
  have vle : value f ≤ value sr := le_trans ((le_iff _ _).1 h1).2.2 g3
  have hmag : magValue (mag f) ≤ magValue (mag sr) := by
    rw [← natAbs_value, ← natAbs_value]; omega
  have hpos : 0 < magValue (mag sr) := by
    rw [← natAbs_value]; omega
  rw [div_finite f sr ff hf hz, hs]
  have hone : magValue (mag one) = 2 ^ 149 := by decide +kernel
  have hm1 : mag one ≤ infMag := by decide
  have hle : roundMag (magValue (mag f) * 2 ^ 149) (magValue (mag sr)) ≤ mag one := by
    apply roundMag_le _ _ _ hpos hm1
    rw [hone, Nat.mul_comm]
    exact Nat.mul_le_mul_left _ hmag
  have hlt := infMag_lt
  -- a negative sign is possible only on -0.0
  have hzero : sign f = true → roundMag (magValue (mag f) * 2 ^ 149) (magValue (mag sr)) = 0 := by
    intro hsf
    have : magValue (mag f) = 0 := by
      unfold value at vf; rw [hsf] at vf; simp at vf; omega
    rw [this, Nat.zero_mul]
    apply Nat.le_zero.1
    apply roundMag_le _ _ _ hpos (Nat.zero_le _)
    exact Nat.zero_le _
  generalize hr : roundMag (magValue (mag f) * 2 ^ 149) (magValue (mag sr)) = r at *
  have hv := magValue_strictMono.monotone hle
  rw [le_iff, le_iff, isNaN_ofMag _ _ (by omega), value_ofMag _ _ (by omega), value_zero, value_one]
  rw [hone] at hv
  have hcast : (magValue r : Int) ≤ 2 ^ 149 := by exact_mod_cast hv
  have hmz : magValue 0 = 0 := by decide
  refine ⟨⟨by decide, rfl, ?_⟩, rfl, by decide, ?_⟩
  · cases hsf : sign f
    · simp
    · rw [hzero hsf, hmz]; simp
  · cases hsf : sign f
    · simpa using hcast
    · rw [hzero hsf, hmz]; simp

/-- The phase after a tick lies in [0, 1): the sum is finite, the remainder by 1.0 exact, the correction never taken
(R66). -/
theorem wrap_unit (p : F32) (hf : isFinite p = true) (h0 : 0 ≤ value p) :
    le zero (remEuclidOne p) = true ∧ lt (remEuclidOne p) one = true := by
  obtain ⟨p1, p2⟩ := (isFinite_iff p).1 hf
  have hone : magValue (mag one) = 2 ^ 149 := by decide +kernel
  have hlt := infMag_lt
  have hr := roundMag_mod_one_lt (mag p)
  have hi : (0x3F800000 : Nat) < infMag := by decide
  have hfm : fmod p one = ofMag (sign p) (roundMag (magValue (mag p) % 2 ^ 149) 1) := by
    have n1 : isNaN one = false := by decide
    have i1 : isInf one = false := by decide
    have z1 : isZero one = false := by decide
    unfold fmod; simp only [p1, p2, n1, i1, z1, hone, Bool.or_self, Bool.false_eq_true, if_false]
  -- a negative sign is possible only on -0.0
  have hzero : sign p = true → roundMag (magValue (mag p) % 2 ^ 149) 1 = 0 := by
    intro hsp
    have : magValue (mag p) = 0 := by
      unfold value at h0; rw [hsp] at h0; simp at h0; omega
    rw [this]; decide
  generalize roundMag (magValue (mag p) % 2 ^ 149) 1 = r at *
  have hv : magValue r < 2 ^ 149 := by
    have := magValue_strictMono hr
    have e : magValue 0x3F800000 = 2 ^ 149 := by decide +kernel
    omega
  have hmz : magValue 0 = 0 := by decide
  have hval : 0 ≤ value (fmod p one) ∧ value (fmod p one) < 2 ^ 149 ∧ isNaN (fmod p one) = false := by
    rw [hfm, isNaN_ofMag _ _ (by omega), value_ofMag _ _ (by omega)]
    cases hsp : sign p
    · simp; exact_mod_cast hv
    · rw [hzero hsp, hmz]; simp
  have hneg : lt (fmod p one) zero = false := by
    unfold lt; rw [value_zero]; simp; intros; omega
  unfold remEuclidOne
  simp only [hneg, Bool.false_eq_true, if_false]
  rw [le_iff, lt_iff, value_zero, value_one]
  exact ⟨⟨by decide, hval.2.2, hval.1⟩, hval.2.2, by decide, hval.2.1⟩

/-- One tick from a phase in [0, 1) by an increment in [0, 1] (R66). -/
theorem advance_unit (ph inc : F32) (h0 : le zero ph = true) (h1 : lt ph one = true) (i0 : le zero inc = true)
    (i1 : le inc one = true) :
    le zero (remEuclidOne (add ph inc)) = true ∧ lt (remEuclidOne (add ph inc)) one = true := by
  obtain ⟨-, np, v0⟩ := (le_iff _ _).1 h0
  obtain ⟨-, n1, v1⟩ := (lt_iff _ _).1 h1
  have fp := isFinite_of_unit ph h0 ((le_iff _ _).2 ⟨np, n1, v1.le⟩)
  have fi := isFinite_of_unit inc i0 i1
  obtain ⟨-, -, w0⟩ := (le_iff _ _).1 i0
  obtain ⟨-, -, w1⟩ := (le_iff _ _).1 i1
  obtain ⟨na, va⟩ := add_finite ph inc fp fi
  rw [value_zero] at v0 w0
  have two : value (0x40000000#32 : F32) = 2 ^ 150 := by decide +kernel
  have lo : 0 ≤ value (add ph inc) := by rw [va, ← roundInt_zero]; exact roundInt_mono _ _ (by omega)
  have hi : value (add ph inc) ≤ value (0x40000000#32 : F32) := by
    rw [va, ← roundInt_value _ (by decide : isNaN (0x40000000#32 : F32) = false)]
    apply roundInt_mono
    rw [two]; rw [value_one] at v1 w1; omega
  apply wrap_unit _ _ lo
  exact isFinite_of_between _ zero 0x40000000#32 ((le_iff _ _).2 ⟨by decide, na, by rw [value_zero]; exact lo⟩)
    ((le_iff _ _).2 ⟨na, by decide, hi⟩) (by decide) (by decide)

end Sys2Proof.F32

namespace Sys2Proof

/-- The feedback of a legal cutoff and resonance is no NaN and lies in [0, FB_MAX] (R28, R99). -/
theorem feedbackOf_range (c : Config) (co r : F32) (hc0 : F32.le Config.cMin co = true)
    (hc1 : F32.le co Config.cMax = true) (hr0 : F32.le F32.zero r = true) (hr1 : F32.le r F32.one = true)
    (hm : F32.le F32.zero c.fbMax = true) :
    F32.le F32.zero (feedbackOf c co r) = true ∧ F32.le (feedbackOf c co r) c.fbMax = true := by
  have fc := F32.isFinite_of_between co _ _ hc0 hc1 (by decide) (by decide)
  have fr := F32.isFinite_of_unit r hr0 hr1
  obtain ⟨sn, sv⟩ := F32.sub_finite F32.one co (by decide) fc
  -- 1.0 - c lies between 1.0 - 0.99 and 1.0, so it is finite and not zero
  have lo : F32.value (F32.sub F32.one Config.cMax) ≤ F32.value (F32.sub F32.one co) := by
    rw [sv, (F32.sub_finite F32.one Config.cMax (by decide) (by decide)).2]
    apply F32.roundInt_mono
    have := ((F32.le_iff _ _).1 hc1).2.2
    omega
  have hi : F32.value (F32.sub F32.one co) ≤ F32.value F32.one := by
    rw [sv]
    refine le_of_le_of_eq (F32.roundInt_mono _ (F32.value F32.one) ?_) (F32.roundInt_value _ (by decide))
    have := ((F32.le_iff _ _).1 hc0).2.2
    have : 0 ≤ F32.value Config.cMin := by decide +kernel
    omega
  have pos : 0 < F32.value (F32.sub F32.one Config.cMax) := by decide +kernel
  have fs : F32.isFinite (F32.sub F32.one co) = true :=
    F32.isFinite_of_between _ F32.zero F32.one
      ((F32.le_iff _ _).2 ⟨by decide, sn, by rw [F32.value_zero]; omega⟩)
      ((F32.le_iff _ _).2 ⟨sn, by decide, hi⟩) (by decide) (by decide)
  have zs : F32.isZero (F32.sub F32.one co) = false := by
    unfold F32.isZero; simp only [decide_eq_false_iff_not]
    intro h0
    have h1 := F32.natAbs_value (F32.sub F32.one co)
    rw [h0, show F32.magValue 0 = 0 by decide] at h1
    omega
  have nd : F32.isNaN (F32.div r (F32.sub F32.one co)) = false := by
    rw [F32.div_finite r _ fr fs zs]; exact F32.isNaN_ofMag _ _ (F32.roundMag_le_infMag _ _)
  have nx : F32.isNaN (F32.add r (F32.div r (F32.sub F32.one co))) = false := by
    rcases F32.isFinite_or_isInf _ nd with hf | hi
    · exact (F32.add_finite _ _ fr hf).1
    · rw [F32.add_inf _ _ fr hi]; exact nd
  exact F32.clamp_between _ _ _ nx hm

end Sys2Proof
end

