-- ==== Sys2Proof/Laws/Components.lean ====
section
/-! SUPPORT. Laws of the components: which registers an operation keeps, and that a level, a phase and a frequency stay
in their ranges. -/

namespace Sys2Proof.Machine

/-! ### What an operation keeps -/

/-- Everything `env_process` can do: write level and stage, nothing else (R81 to R86). -/
theorem Env.process_eq (e : Env) : e.process = { e with level := e.process.level, stage := e.process.stage } := by
  unfold Env.process Env.attackStep Env.decayStep Env.releaseStep
  cases h : e.stage <;> simp only [← h] <;> split <;> rfl

@[simp] theorem Env.process_sampleRate (e : Env) : e.process.sampleRate = e.sampleRate := by rw [Env.process_eq]
@[simp] theorem Env.process_attackTime (e : Env) : e.process.attackTime = e.attackTime := by rw [Env.process_eq]
@[simp] theorem Env.process_decayTime (e : Env) : e.process.decayTime = e.decayTime := by rw [Env.process_eq]
@[simp] theorem Env.process_sustainLevel (e : Env) : e.process.sustainLevel = e.sustainLevel := by
  rw [Env.process_eq]
@[simp] theorem Env.process_releaseTime (e : Env) : e.process.releaseTime = e.releaseTime := by rw [Env.process_eq]
@[simp] theorem Env.process_attackRate (e : Env) : e.process.attackRate = e.attackRate := by rw [Env.process_eq]
@[simp] theorem Env.process_decayRate (e : Env) : e.process.decayRate = e.decayRate := by rw [Env.process_eq]
@[simp] theorem Env.process_releaseRate (e : Env) : e.process.releaseRate = e.releaseRate := by rw [Env.process_eq]

/-- Everything `flt_process` can do to the filter: write the four buffers, nothing else (R96, R97). -/
theorem Flt.process_eq (f : Flt) (x : F32) : (f.process x).1 = { f with
    buf0 := (f.process x).1.buf0
    buf1 := (f.process x).1.buf1
    buf2 := (f.process x).1.buf2
    buf3 := (f.process x).1.buf3 } := by
  unfold Flt.process Flt.cascade
  split <;> rfl

@[simp] theorem Flt.process_cutoff (f : Flt) (x : F32) : (f.process x).1.cutoff = f.cutoff := by
  rw [Flt.process_eq]
@[simp] theorem Flt.process_resonance (f : Flt) (x : F32) : (f.process x).1.resonance = f.resonance := by
  rw [Flt.process_eq]
@[simp] theorem Flt.process_feedback (f : Flt) (x : F32) : (f.process x).1.feedback = f.feedback := by
  rw [Flt.process_eq]
@[simp] theorem Flt.process_mode (f : Flt) (x : F32) : (f.process x).1.mode = f.mode := by rw [Flt.process_eq]

/-- A SAMPLE writes no parameter register of a voice (R30, R35). -/
@[simp] theorem Voice.process_params (c : Config) (d : F32) (v : Voice) : (v.process c d).1.params = v.params := by
  rcases v.process_cases c d with ⟨-, h⟩ | ⟨-, -, h⟩ | ⟨-, -, h⟩ <;> rw [h]
  · rfl
  · simp only [Voice.params, Voice.sound_osc, Voice.sound_env, Osc.advance_sampleRate, Osc.advance_waveform,
      Env.process_sampleRate, Env.process_attackTime, Env.process_decayTime, Env.process_sustainLevel,
      Env.process_releaseTime, Env.process_attackRate, Env.process_decayRate, Env.process_releaseRate]
    simp [Voice.sound]

/-! ### Ranges -/

/-- `lo <= x <= hi`, unfolded. -/
theorem inRange_iff (lo hi x : F32) : inRange lo hi x = true ↔ F32.le lo x = true ∧ F32.le x hi = true := by
  unfold inRange; simp

/-- A time in [T_MIN, T_MAX] is finite and has no sign (R22). -/
theorem time_spec (t : F32) (h : inRange Config.tMin Config.tMax t = true) :
    F32.isFinite t = true ∧ F32.sign t = false := by
  obtain ⟨h1, h2⟩ := (inRange_iff _ _ _).1 h
  refine ⟨F32.isFinite_of_between t _ _ h1 h2 (by decide) (by decide), ?_⟩
  have hv := ((F32.le_iff _ _).1 h1).2.2
  have hp : 0 < F32.value Config.tMin := by decide +kernel
  by_contra hs
  have hs : F32.sign t = true := by simpa using hs
  unfold F32.value at hv hp
  rw [hs] at hv
  simp only [if_true] at hv
  omega

/-- The rate of a legal time at a legal sample rate has no sign and is no NaN, so its step has none either (R141). -/
theorem rampStep_plus (t sr : F32) (ht : inRange Config.tMin Config.tMax t = true) (hr : F32.isRate sr = true) :
    F32.isPlus (rampStep (F32.mul t sr)) = true := by
  obtain ⟨t1, t2⟩ := time_spec t ht
  obtain ⟨r1, -, r2, -, -⟩ := F32.isRate_spec sr hr
  exact F32.isPlus_one_div _ (F32.isPlus_mul _ _ t1 r1 t2 r2)

/-- An attack, decay or release step keeps a level in [0, 1] (R26, R82, R83, R85). -/
theorem Env.process_level (e : Env) (h : inRange F32.zero F32.one e.level = true)
    (hs : inRange F32.zero F32.one e.sustainLevel = true) (ha : F32.isPlus (rampStep e.attackRate) = true)
    (hd : F32.isPlus (rampStep e.decayRate) = true) (hr : F32.isPlus (rampStep e.releaseRate) = true) :
    inRange F32.zero F32.one e.process.level = true := by
  obtain ⟨h0, h1⟩ := (inRange_iff _ _ _).1 h
  have hz : inRange F32.zero F32.one F32.zero = true := by decide +kernel
  have ho : inRange F32.zero F32.one F32.one = true := by decide +kernel
  -- a result that is no NaN, at most 1.0 and not at or below a bound that is not negative
  have below : ∀ l b : F32, F32.isNaN l = false → F32.value l ≤ F32.value F32.one → F32.le F32.zero b = true →
      F32.le l b = false → inRange F32.zero F32.one l = true := by
    intro l b hn hv hb hl
    obtain ⟨-, nb, vb⟩ := (F32.le_iff _ _).1 hb
    have : ¬ F32.value l ≤ F32.value b := fun hle => by
      rw [(F32.le_iff l b).2 ⟨hn, nb, hle⟩] at hl; cases hl
    exact (inRange_iff _ _ _).2 ⟨(F32.le_iff _ _).2 ⟨by decide, hn, by omega⟩, (F32.le_iff _ _).2 ⟨hn, by decide, hv⟩⟩
  unfold Env.process
  cases e.stage <;> simp only
  · exact h
  · obtain ⟨n, v⟩ := F32.add_unit_plus _ _ h0 h1 ha
    unfold Env.attackStep; simp only
    split
    · exact ho
    · next hlt =>
      show inRange F32.zero F32.one (F32.add e.level (rampStep e.attackRate)) = true
      have : ¬ F32.value F32.one ≤ F32.value (F32.add e.level (rampStep e.attackRate)) := fun hle =>
        hlt ((F32.le_iff _ _).2 ⟨by decide, n, hle⟩)
      exact (inRange_iff _ _ _).2 ⟨(F32.le_iff _ _).2 ⟨by decide, n, by rw [F32.value_zero]; exact v⟩,
        (F32.le_iff _ _).2 ⟨n, by decide, by omega⟩⟩
  · obtain ⟨n, v⟩ := F32.sub_unit_plus _ _ h0 h1 hd
    unfold Env.decayStep; simp only
    split
    · exact hs
    · next hl => exact below _ _ n v ((inRange_iff _ _ _).1 hs).1 (by simpa using hl)
  · exact h
  · obtain ⟨n, v⟩ := F32.sub_unit_plus _ _ h0 h1 hr
    unfold Env.releaseStep; simp only
    split
    · exact hz
    · next hl => exact below _ _ n v ((inRange_iff _ _ _).1 hz).1 (by simpa using hl)

/-- A step that ends in Idle leaves level 0.0, from an envelope whose idle level is 0.0 (R85, R86). -/
theorem Env.process_idle (e : Env) (h : e.stage = .idle → e.level = F32.zero) :
    e.process.stage = .idle → e.process.level = F32.zero := by
  unfold Env.process
  cases hs : e.stage <;> simp only
  · intro _; exact h hs
  · unfold Env.attackStep; simp only; split <;> intro h' <;> simp [hs] at h'
  · unfold Env.decayStep; simp only; split <;> intro h' <;> simp [hs] at h'
  · intro h'; rw [hs] at h'; cases h'
  · unfold Env.releaseStep; simp only; split
    · intro _; rfl
    · intro h'; simp [hs] at h'

/-- A tick keeps a phase in [0, 1), for a frequency in [0, sample_rate/2] (R26, R66). -/
theorem Osc.advance_phase (o : Osc) (h0 : F32.le F32.zero o.phase = true) (h1 : F32.lt o.phase F32.one = true)
    (hr : F32.isRate o.sampleRate = true) (f0 : F32.le F32.zero o.frequency = true)
    (f1 : F32.le o.frequency (F32.div o.sampleRate 0x40000000#32) = true) :
    F32.le F32.zero o.advance.phase = true ∧ F32.lt o.advance.phase F32.one = true := by
  obtain ⟨i0, i1⟩ := F32.increment_unit _ _ hr f0 f1
  exact F32.advance_unit _ _ h0 h1 i0 i1

/-- A frequency that is no NaN is stored in [0, sample_rate/2], finite (R73). -/
theorem Osc.setFrequency_range (o : Osc) (f : F32) (hf : F32.isNaN f = false) (hr : F32.isRate o.sampleRate = true) :
    F32.isFinite (o.setFrequency f).frequency = true ∧ F32.le F32.zero (o.setFrequency f).frequency = true ∧
      F32.le (o.setFrequency f).frequency (F32.div o.sampleRate 0x40000000#32) = true := by
  obtain ⟨h1, h2, -⟩ := F32.half_rate _ hr
  have e : (o.setFrequency f).frequency = F32.clamp f F32.zero (F32.div o.sampleRate 0x40000000#32) := by
    unfold Osc.setFrequency; simp [hf]
  obtain ⟨c1, c2⟩ := F32.clamp_between f _ _ hf h2
  rw [e]
  exact ⟨F32.isFinite_of_between _ _ _ c1 c2 (by decide) h1, c1, c2⟩

@[simp] theorem Osc.setFrequency_sampleRate (o : Osc) (f : F32) : (o.setFrequency f).sampleRate = o.sampleRate := by
  unfold Osc.setFrequency; split <;> rfl
@[simp] theorem Osc.setFrequency_phase (o : Osc) (f : F32) : (o.setFrequency f).phase = o.phase := by
  unfold Osc.setFrequency; split <;> rfl
@[simp] theorem Osc.setFrequency_waveform (o : Osc) (f : F32) : (o.setFrequency f).waveform = o.waveform := by
  unfold Osc.setFrequency; split <;> rfl

end Sys2Proof.Machine
end

