-- ==== Sys2Proof/Laws/Encoding.lean ====
section
/-! SUPPORT. The fields of a word built by format N or P (R53, R54), and the codes read back (R57): what a proof about
decoding an encoded instruction cites. -/

namespace Sys2Proof

/-- A format N word as a number. -/
theorem toNat_formatN (o : BitVec 8) (n : Note) : (formatN o n).toNat = o.toNat * 2 ^ 56 + n.toNat := by
  have h : (formatN o n).toNat = ((o ++ 0#49 : BitVec 57) ++ n : BitVec (57 + 7)).toNat := rfl
  rw [h, BitVec.toNat_append, BitVec.toNat_append]
  rw [← Nat.shiftLeft_add_eq_or_of_lt n.isLt]
  simp [Nat.shiftLeft_eq]
  ring

/-- A format P word as a number. -/
theorem toNat_formatP (p a : BitVec 8) (v : F32) :
    (formatP p a v).toNat = 3 * 2 ^ 56 + p.toNat * 2 ^ 48 + a.toNat * 2 ^ 40 + v.toNat := by
  have h : (formatP p a v).toNat = ((((3#8 ++ p : BitVec 16) ++ a : BitVec 24) ++ 0#8 : BitVec 32) ++ v : BitVec (32 + 32)).toNat := rfl
  rw [h, BitVec.toNat_append, BitVec.toNat_append, BitVec.toNat_append, BitVec.toNat_append]
  rw [← Nat.shiftLeft_add_eq_or_of_lt v.isLt, ← Nat.shiftLeft_add_eq_or_of_lt a.isLt,
    ← Nat.shiftLeft_add_eq_or_of_lt p.isLt]
  simp [Nat.shiftLeft_eq]
  ring

theorem opc_formatN (o : BitVec 8) (n : Note) : (formatN o n).opc = o := by
  apply BitVec.eq_of_toNat_eq
  have := And.intro o.isLt n.isLt
  unfold OpWord.opc
  rw [BitVec.extractLsb'_toNat, toNat_formatN, Nat.shiftRight_eq_div_pow]
  omega

theorem zeroN_formatN (o : BitVec 8) (n : Note) : (formatN o n).zeroN = 0#49 := by
  apply BitVec.eq_of_toNat_eq
  have := And.intro o.isLt n.isLt
  unfold OpWord.zeroN
  rw [BitVec.extractLsb'_toNat, toNat_formatN, Nat.shiftRight_eq_div_pow]
  simp only [BitVec.toNat_ofNat]
  omega

theorem noteField_formatN (o : BitVec 8) (n : Note) : (formatN o n).noteField = n := by
  apply BitVec.eq_of_toNat_eq
  have := And.intro o.isLt n.isLt
  unfold OpWord.noteField
  rw [BitVec.extractLsb'_toNat, toNat_formatN, Nat.shiftRight_eq_div_pow]
  omega

theorem opc_formatP (p a : BitVec 8) (v : F32) : (formatP p a v).opc = 0x03#8 := by
  apply BitVec.eq_of_toNat_eq
  have := And.intro p.isLt (And.intro a.isLt v.isLt)
  unfold OpWord.opc
  rw [BitVec.extractLsb'_toNat, toNat_formatP, Nat.shiftRight_eq_div_pow]
  simp only [BitVec.toNat_ofNat]
  omega

theorem pid_formatP (p a : BitVec 8) (v : F32) : (formatP p a v).pid = p := by
  apply BitVec.eq_of_toNat_eq
  have := And.intro p.isLt (And.intro a.isLt v.isLt)
  unfold OpWord.pid
  rw [BitVec.extractLsb'_toNat, toNat_formatP, Nat.shiftRight_eq_div_pow]
  omega

theorem arg_formatP (p a : BitVec 8) (v : F32) : (formatP p a v).arg = a := by
  apply BitVec.eq_of_toNat_eq
  have := And.intro p.isLt (And.intro a.isLt v.isLt)
  unfold OpWord.arg
  rw [BitVec.extractLsb'_toNat, toNat_formatP, Nat.shiftRight_eq_div_pow]
  omega

theorem rsv_formatP (p a : BitVec 8) (v : F32) : (formatP p a v).rsv = 0#8 := by
  apply BitVec.eq_of_toNat_eq
  have := And.intro p.isLt (And.intro a.isLt v.isLt)
  unfold OpWord.rsv
  rw [BitVec.extractLsb'_toNat, toNat_formatP, Nat.shiftRight_eq_div_pow]
  simp only [BitVec.toNat_ofNat]
  omega

theorem val_formatP (p a : BitVec 8) (v : F32) : (formatP p a v).val = v := by
  apply BitVec.eq_of_toNat_eq
  have := And.intro p.isLt (And.intro a.isLt v.isLt)
  unfold OpWord.val
  rw [BitVec.extractLsb'_toNat, toNat_formatP, Nat.shiftRight_eq_div_pow]
  omega

theorem Stage.ofCode_code (s : Stage) : Stage.ofCode s.code = some s := by cases s <;> rfl
theorem Waveform.ofCode_code (w : Waveform) : Waveform.ofCode w.code = some w := by cases w <;> rfl
theorem FilterMode.ofCode_code (m : FilterMode) : FilterMode.ofCode m.code = some m := by cases m <;> rfl

end Sys2Proof
end

