-- ==== Sys2Proof/Laws/PerInstr.lean ====
section
/-! SUPPORT. A statement for every instruction, one lemma per constructor: the word of an instruction matches its own
row of the opcode map, and its free bits are the operand (R59). -/

namespace Sys2Proof.Laws.RowMatch

/-- The word of `i` matches the row of `i`, and outside the row's mask it holds the operand of `i` (R59). -/
def Statement (i : Instr) : Prop := encode i &&& i.row.mask = i.row.bits ∧ encode i &&& ~~~i.row.mask = i.operand

/-- A mask over the upper half of a word keeps the upper half; the rest is the lower half. -/
theorem halves (h v : BitVec 32) :
    ((h ++ v : BitVec (32 + 32)) &&& 0xFFFFFFFF00000000#64 = (h ++ 0#32 : BitVec (32 + 32))) ∧
    ((h ++ v : BitVec (32 + 32)) &&& ~~~0xFFFFFFFF00000000#64 = v.setWidth 64) := by
  have m1 : (0xFFFFFFFF00000000#64 : BitVec (32 + 32)) = BitVec.allOnes 32 ++ 0#32 := by decide
  have m2 : (~~~0xFFFFFFFF00000000#64 : BitVec (32 + 32)) = 0#32 ++ BitVec.allOnes 32 := by decide
  constructor
  · rw [m1, BitVec.and_append, BitVec.and_allOnes, BitVec.and_zero]
  · rw [m2, BitVec.and_append, BitVec.and_allOnes, BitVec.and_zero]
    apply BitVec.eq_of_toNat_eq
    have := v.isLt
    rw [BitVec.toNat_append, BitVec.toNat_setWidth, ← Nat.shiftLeft_add_eq_or_of_lt v.isLt]
    simp
    omega

/-- Every parameter word with an f32 operand: its row's mask covers the upper half. -/
theorem formatP_matches (p a : BitVec 8) (x : F32) (b : OpWord) (hb : b = formatP p a 0) :
    formatP p a x &&& 0xFFFFFFFF00000000#64 = b ∧ formatP p a x &&& ~~~0xFFFFFFFF00000000#64 = x.setWidth 64 := by
  subst hb
  exact halves (0x03#8 ++ p ++ a ++ 0#8) x

theorem noteOn (n : Note) : Statement (.noteOn n) := by unfold Statement; revert n; decide +kernel
theorem noteOff (n : Note) : Statement (.noteOff n) := by unfold Statement; revert n; decide +kernel
theorem setEnvIdle (x : F32) : Statement (.setEnvIdle x) := formatP_matches _ _ x _ rfl
theorem setEnvAttack (x : F32) : Statement (.setEnvAttack x) := formatP_matches _ _ x _ rfl
theorem setEnvDecay (x : F32) : Statement (.setEnvDecay x) := formatP_matches _ _ x _ rfl
theorem setEnvSustain (x : F32) : Statement (.setEnvSustain x) := formatP_matches _ _ x _ rfl
theorem setEnvRelease (x : F32) : Statement (.setEnvRelease x) := formatP_matches _ _ x _ rfl
theorem setWaveSine : Statement .setWaveSine := by unfold Statement; decide
theorem setWaveSquare : Statement .setWaveSquare := by unfold Statement; decide
theorem setWaveTriangle : Statement .setWaveTriangle := by unfold Statement; decide
theorem setWaveSawtooth : Statement .setWaveSawtooth := by unfold Statement; decide
theorem setWaveNoise : Statement .setWaveNoise := by unfold Statement; decide
theorem setFmodeLp : Statement .setFmodeLp := by unfold Statement; decide
theorem setFmodeHp : Statement .setFmodeHp := by unfold Statement; decide
theorem setFmodeBp : Statement .setFmodeBp := by unfold Statement; decide
theorem setCutoff (x : F32) : Statement (.setCutoff x) := formatP_matches _ _ x _ rfl
theorem setRes (x : F32) : Statement (.setRes x) := formatP_matches _ _ x _ rfl
theorem setSrate (x : F32) : Statement (.setSrate x) := formatP_matches _ _ x _ rfl
theorem sample : Statement .sample := by unfold Statement; decide

end Sys2Proof.Laws.RowMatch
end

