-- ==== Sys2Proof/Tests/Slice0.lean ====
section
/-! SUPPORT. Tests whose expected results come from the spec: the words of 30_encoding.md, the vectors of
95_test_vectors.md (its section in each docstring), and, for every statement with hypotheses, a concrete input that
meets them. -/

namespace Sys2Proof.Tests

open Sys2Proof Sys2Proof.Machine

-- One theorem at a time: with all of them at once, Lean runs out of threads under the memory limit.
set_option Elab.async false

/-! ### The checks of WellFormed refuse -/

theorem test_note_on_128_is_ill_formed : (AsmStmt.noteOn 128).wellFormed = false ∧ (AsmStmt.noteOn 127).wellFormed = true := by
  decide
theorem test_note_off_128_is_ill_formed : (AsmStmt.noteOff 128).wellFormed = false ∧ (AsmStmt.noteOff 127).wellFormed = true := by
  decide
theorem test_samples_0_is_ill_formed : (AsmStmt.samples 0).wellFormed = false ∧ (AsmStmt.samples 1).wellFormed = true := by
  decide

/-! ### Decoding, from the words of R59, R65 and section 2.1 -/

theorem test_decode_notes :
    decode 0x0100000000000045#64 = .ok (.noteOn 69) ∧ decode 0x0100000000000000#64 = .ok (.noteOn 0) ∧
    decode 0x010000000000007F#64 = .ok (.noteOn 127) ∧ decode 0x0200000000000045#64 = .ok (.noteOff 69) := by decide

theorem test_decode_set_env :
    decode 0x030000003F800000#64 = .ok (.setEnvIdle 0x3F800000#32) ∧
    decode 0x030001003C23D70A#64 = .ok (.setEnvAttack 0x3C23D70A#32) ∧
    decode 0x030002003DCCCCCD#64 = .ok (.setEnvDecay 0x3DCCCCCD#32) ∧
    decode 0x030003003F000000#64 = .ok (.setEnvSustain 0x3F000000#32) ∧
    decode 0x030004003E4CCCCD#64 = .ok (.setEnvRelease 0x3E4CCCCD#32) := by decide

theorem test_decode_selectors :
    decode 0x0301000000000000#64 = .ok .setWaveSine ∧ decode 0x0301010000000000#64 = .ok .setWaveSquare ∧
    decode 0x0301020000000000#64 = .ok .setWaveTriangle ∧ decode 0x0301030000000000#64 = .ok .setWaveSawtooth ∧
    decode 0x0301040000000000#64 = .ok .setWaveNoise ∧ decode 0x0302000000000000#64 = .ok .setFmodeLp ∧
    decode 0x0302010000000000#64 = .ok .setFmodeHp ∧ decode 0x0302020000000000#64 = .ok .setFmodeBp := by decide

theorem test_decode_filter_rate_sample :
    decode 0x030300003F000000#64 = .ok (.setCutoff 0x3F000000#32) ∧
    decode 0x030400003F800000#64 = .ok (.setRes 0x3F800000#32) ∧
    decode 0x03050000473B8000#64 = .ok (.setSrate 0x473B8000#32) ∧ decode 0x0400000000000000#64 = .ok .sample := by decide

/-- Section 2.1: the reserved words, each by the name of its part of the reserved space. -/
theorem test_reserved_words :
    decode 0x0100000000000080#64 = .error .noteBitsNonzero ∧ decode 0x0180000000000045#64 = .error .noteBitsNonzero ∧
    decode 0x0300050000000000#64 = .error .stageReserved ∧ decode 0x0300010100000000#64 = .error .rsvNonzero ∧
    decode 0x0301010000000001#64 = .error .valNonzero ∧ decode 0x0301050000000000#64 = .error .waveformReserved ∧
    decode 0x0302030000000000#64 = .error .modeReserved ∧ decode 0x030301003F000000#64 = .error .argNonzero ∧
    decode 0x0306000000000000#64 = .error .pidReserved ∧ decode 0x0400000000000001#64 = .error .sampleBitsNonzero ∧
    decode 0x0000000000000000#64 = .error .opcReserved ∧ decode 0xFFFFFFFFFFFFFFFF#64 = .error .opcReserved := by decide

/-- R41: byte 7 of the stream is the OPC, byte 0 the low byte. -/
theorem test_bytes :
    OpWord.toBytes 0x030001003C23D70A#64 = [0x0A#8, 0xD7#8, 0x23#8, 0x3C#8, 0x00#8, 0x01#8, 0x00#8, 0x03#8] ∧
    OpWord.ofBytes [0x0A#8, 0xD7#8, 0x23#8] = none := by decide

theorem test_table_word :
    decodeTableWord 64 0x0200000000000045 = some (.noteOff 69) ∧ decodeTableWord 64 0x0000000000000000 = none := by decide

/-! ### The assembler (R63, R64, R65) -/

theorem test_asm_line :
    Asm.lineWords "l1: SET_ENV attack, 0.01 ; 10 ms".toList = some [0x030001003C23D70A#64] := by decide +kernel
theorem test_asm_literals :
    Asm.lineWords "SET_SRATE -48000".toList = some [0x03050000C73B8000#64] ∧
    Asm.lineWords "set_cutoff NaN".toList = some [0x030300007FC00000#64] ∧
    Asm.lineWords ".word 0x0301050000000000".toList = some [0x0301050000000000#64] := by decide +kernel
theorem test_asm_pseudo :
    Asm.lineWords "NOP".toList = some [0x0300000000000000#64] ∧
    Asm.lineWords "NOTE_ON 128".toList = none ∧ Asm.lineWords "SAMPLES 0".toList = none := by decide +kernel
/-- R64 with the words of R65. -/
theorem test_asm_set_param :
    Asm.lineWords "SET_PARAM envelope, attack, 0.01".toList = some [0x030001003C23D70A#64] ∧
    Asm.lineWords "SET_PARAM waveform, noise".toList = some [0x0301040000000000#64] ∧
    Asm.lineWords "SET_PARAM filter_mode, hp".toList = some [0x0302010000000000#64] ∧
    Asm.lineWords "SET_PARAM cutoff, 0.5".toList = some [0x030300003F000000#64] ∧
    Asm.lineWords "SET_PARAM resonance, 0.5".toList = some [0x030400003F000000#64] ∧
    Asm.lineWords "SET_PARAM sample_rate, 48000".toList = some [0x03050000473B8000#64] := by decide +kernel

/-! ### Small states -/

/-- The reset state with this voice 0. -/
def with0 (v : Voice) : State := { State.reset with voices := State.reset.voices.put 0 v }

/-- The state an instruction leaves. -/
def after (i : Instr) (s : State) : State :=
  match exec i s with
  | .next t    => t
  | .fault _   => s
  | .refused _ => s

/-- The state one step leaves. -/
def stepped (s : State) : State :=
  match step s with
  | .next t    => t
  | .fault _   => s
  | .refused _ => s

/-- A voice after NOTE_ON 69 from reset (2.5): 440 Hz, Attack at 0.0. -/
def a4 : Voice := { Voice.construct Config.default with
  active := true
  note := some 69
  osc := { (Voice.construct Config.default).osc with frequency := 0x43DC0000#32 }
  env := { (Voice.construct Config.default).env with stage := .attack } }

/-- The same voice with another stage and level. -/
def a4At (s : Stage) (l : F32) : Voice := { a4 with env := { a4.env with stage := s, level := l } }

/-- Voice 0 as an instruction leaves it. -/
def v0 (i : Instr) (s : State) : Voice := (after i s).voices.voice 0

/-- Every voice sounds its own note, 60 to 75. -/
def full : State := { State.reset with
  voices := Pool.build fun i => { a4 with note := some (BitVec.ofNat 7 (60 + i.val)) } }

/-- The reset state with these events on its ports. -/
def sent (es : List PortEvent) : State := { State.reset with inbox := es }

/-! ### Note commands (2.5, 2.6) -/

theorem test_note_on_allocates : v0 (.noteOn 69) State.reset = a4 := by decide +kernel
theorem test_note_on_retriggers :
    v0 (.noteOn 69) (with0 (a4At .release 0x3ECCCCCD#32)) = a4At .attack 0x3ECCCCCD#32 ∧
    ((after (.noteOn 69) (with0 (a4At .release 0x3ECCCCCD#32))).voices.voice 1).active = false := by decide +kernel
theorem test_note_off_releases :
    v0 (.noteOff 69) (with0 (a4At .sustain 0x3F333333#32)) = a4At .release 0x3F333333#32 := by decide +kernel
theorem test_note_off_without_holder : v0 (.noteOff 65) (with0 a4) = a4 := by decide +kernel

/-! ### Parameter commands (2.3, 2.4, 2.5) -/

theorem test_set_env_idle : v0 (.setEnvIdle 0x7FC00000#32) (with0 a4) = a4 := by decide +kernel
theorem test_set_env_attack_minimum :
    (v0 (.setEnvAttack 0x00000000#32) State.reset).env.attackTime = 0x358637BD#32 ∧
    (v0 (.setEnvAttack 0x00000000#32) State.reset).env.attackRate = 0x3D34A234#32 := by decide +kernel
theorem test_set_env_attack_maximum :
    (v0 (.setEnvAttack 0x42C80000#32) State.reset).env.attackTime = 0x41200000#32 ∧
    (v0 (.setEnvAttack 0x42C80000#32) State.reset).env.attackRate = 0x48D75500#32 := by decide +kernel
theorem test_set_env_decay_NaN : v0 (.setEnvDecay 0x7FC00000#32) (with0 a4) = a4 := by decide +kernel
theorem test_set_env_decay :
    (v0 (.setEnvDecay 0x00000000#32) State.reset).env.decayRate = 0x3D34A234#32 := by decide +kernel
theorem test_set_env_sustain_clamps :
    (v0 (.setEnvSustain 0x3FC00000#32) State.reset).env.sustainLevel = 0x3F800000#32 ∧
    (v0 (.setEnvSustain 0xBE4CCCCD#32) State.reset).env.sustainLevel = 0x00000000#32 ∧
    (v0 (.setEnvSustain 0x80000000#32) State.reset).env.sustainLevel = 0x80000000#32 := by decide +kernel
theorem test_set_env_sustain_keeps_the_level :
    (v0 (.setEnvSustain 0x3E4CCCCD#32) (with0 (a4At .sustain 0x3F333333#32))).env.level = 0x3F333333#32 := by decide +kernel
/-- P3: 0.0001 s gives the rate 4.41. -/
theorem test_set_env_release : (v0 (.setEnvRelease 0x38D1B717#32) State.reset).env.releaseRate = 0x408D1EB8#32 := by
  decide +kernel
theorem test_set_wave :
    (v0 .setWaveSquare State.reset).osc.waveform = .square ∧ (v0 .setWaveTriangle State.reset).osc.waveform = .triangle ∧
    (v0 .setWaveSawtooth State.reset).osc.waveform = .sawtooth ∧ (v0 .setWaveNoise State.reset).osc.waveform = .noise ∧
    (v0 .setWaveSine (after .setWaveNoise State.reset)).osc.waveform = .sine := by decide +kernel
theorem test_set_fmode :
    (v0 .setFmodeHp State.reset).flt.mode = .highpass ∧ (v0 .setFmodeBp State.reset).flt.mode = .bandpass ∧
    (v0 .setFmodeLp (after .setFmodeBp State.reset)).flt.mode = .lowpass := by decide +kernel
/-- 2.4: (0.01, 0.5) from SET_CUTOFF -1.0. -/
theorem test_set_cutoff :
    (v0 (.setCutoff 0xBF800000#32) (after (.setRes 0x3F000000#32) State.reset)).flt.cutoff = 0x3C23D70A#32 ∧
    (v0 (.setCutoff 0xBF800000#32) (after (.setRes 0x3F000000#32) State.reset)).flt.feedback = 0x3F80A57E#32 := by
  decide +kernel
/-- 2.4: resonance 2.0 with cutoff 0.5, and resonance 1.0 with cutoff 0.99. -/
theorem test_set_res :
    (v0 (.setRes 0x40000000#32) (after (.setCutoff 0x3F000000#32) State.reset)).flt.feedback = 0x40400000#32 ∧
    (v0 (.setRes 0x3F800000#32) State.reset).flt.feedback = 0x407F5C29#32 := by decide +kernel
/-- R99, 2.4: a resonance of -0.0 gives a feedback of -0.0. -/
theorem test_set_res_negative_zero : (v0 (.setRes 0x80000000#32) State.reset).flt.feedback = 0x80000000#32 := by
  decide +kernel
/-- 2.5, P4: rates 480.0, 4800.0, 9600.0. -/
theorem test_set_srate :
    v0 (.setSrate 0x473B8000#32) (with0 (a4At .sustain 0x3F333333#32)) =
      { Voice.construct Config.default with
        osc := { a4.osc with sampleRate := 0x473B8000#32 }
        env := { (Voice.construct Config.default).env with
          sampleRate := 0x473B8000#32
          attackRate := 0x43F00000#32
          decayRate := 0x45960000#32
          releaseRate := 0x46160000#32 } } := by decide +kernel
theorem test_set_srate_ignores :
    v0 (.setSrate 0x00000000#32) (with0 a4) = a4 ∧ v0 (.setSrate 0x7FC00000#32) (with0 a4) = a4 ∧
    v0 (.setSrate 0x7F800000#32) (with0 a4) = a4 ∧ v0 (.setSrate 0xC73B8000#32) (with0 a4) = a4 := by decide +kernel

/-! ### SAMPLE (L1.8, P1) and the components -/

theorem test_sample_first_of_a4 : (after .sample (with0 a4)).out = some 0x390F173C#32 := by decide +kernel
theorem test_sample_first_of_a4_registers :
    (v0 .sample (with0 a4)).osc.phase = 0x3C2377EE#32 ∧ (v0 .sample (with0 a4)).env.level = 0x3B149B93#32 ∧
    (v0 .sample (with0 a4)).flt.buf0 = 0x39137885#32 ∧ (v0 .sample (with0 a4)).flt.buf1 = 0x3911FEFF#32 ∧
    (v0 .sample (with0 a4)).flt.buf2 = 0x3910893F#32 ∧ (v0 .sample (with0 a4)).flt.buf3 = 0x390F173C#32 := by decide +kernel

/-- 2.2: sines of one cycle, and near the top. -/
theorem test_sine :
    oscSine Config.default 0x3E800000#32 = F32.one ∧ oscSine Config.default 0x3F000000#32 = 0xB3BBBD2E#32 ∧
    oscSine Config.default 0x3F7FFFFF#32 = 0xB4A22169#32 ∧ oscSine Config.default 0x3E000000#32 = 0x3F3504F3#32 := by
  decide +kernel
/-- 2.2: the other waveforms at their branches. -/
theorem test_waves :
    oscTriangle 0x3E99999A#32 = 0x3E4CCCD0#32 ∧ oscTriangle 0x3F000000#32 = F32.one ∧
    oscSquare 0x3F000000#32 = F32.negOne ∧ oscSaw 0x3F7FFFFF#32 = 0x3F7FFFFE#32 := by decide +kernel
/-- 2.2: the phase wraps from 0.9 at 10000 Hz. -/
theorem test_phase_wraps :
    (Osc.advance ⟨0x472C4400#32, 0x461C4000#32, 0x3F666666#32, .sawtooth⟩).phase = 0x3E01CCB0#32 := by decide +kernel
/-- 2.3: decay, sustain jump, release. -/
theorem test_envelope :
    (a4At .decay 0x3F800000#32).env.process.level = 0x3F7FF124#32 ∧
    (a4At .decay 0x3F000000#32).env.process = (a4At .sustain 0x3F333333#32).env ∧
    (a4At .release 0x3F333333#32).env.process.level = 0x3F332BC5#32 := by decide +kernel
/-- 2.4: the second call at cutoff 0.5 with feedback 1.5, from the buffers of the first. -/
theorem test_filter_feedback :
    Flt.process ⟨0x3F000000#32, 0x3F000000#32, 0x3FC00000#32, .lowpass, 0x3F000000#32, 0x3E800000#32, 0x3E000000#32,
        0x3D800000#32⟩ F32.one =
      (⟨0x3F000000#32, 0x3F000000#32, 0x3FC00000#32, .lowpass, 0x3F700000#32, 0x3F180000#32, 0x3EB80000#32,
        0x3E580000#32⟩, 0x3E580000#32) := by decide +kernel
/-- 2.5: the pitch map. -/
theorem test_pitch :
    noteFreq Config.default 0 = 0x4102D012#32 ∧ noteFreq Config.default 61 = 0x438A9761#32 ∧
    noteFreq Config.default 64 = 0x43A4D054#32 ∧ noteFreq Config.default 127 = 0x4643FF6C#32 := by decide +kernel

/-! ### Steps -/

/-- P5: a reserved word and an ignored NaN change nothing. -/
theorem test_step_reserved :
    stepped (sent [.word 0x0301050000000000#64]) = State.reset ∧
    stepped (sent [.word 0x030300007FC00000#64]) = State.reset := by decide +kernel
theorem test_step_rst : stepped { with0 a4 with inbox := [.rst], out := some 0x390F173C#32 } = State.reset := by
  decide +kernel
theorem test_step_fetched_word :
    stepped (State.reset.withFetchWord 64 0x0100000000000045) = with0 a4 := by decide +kernel

/-! ### Witnesses: an input that meets every hypothesis of a statement -/

theorem witness_DecodeAgreesWithOpcodeMap :
    (Instr.noteOn 69).row.isMatch 0x0100000000000045#64 = true ∧ (Instr.noteOn 0).row.isMatch 0x0100000000000045#64 = true ∧
    decode 0x0100000000000045#64 = .ok (.noteOn 69) := by decide
theorem witness_ReservedWordsAreIgnored :
    (sent [.word 0x0302030000000000#64]).inbox = [.word 0x0302030000000000#64] ∧
    InReservedSpace 0x0302030000000000#64 ∧ InReservedSpace 0x0500000000000000#64 ∧ InReservedSpace 0x0100000000000080#64 ∧
    InReservedSpace 0x0400000000000001#64 ∧ InReservedSpace 0x030000FF00000000#64 ∧ InReservedSpace 0x0306000000000000#64 ∧
    ¬InReservedSpace 0x0302020000000000#64 := by unfold InReservedSpace; simp [sent]
theorem witness_BytesCarryTheWords : (0 < 8 ∧ 7 < 8) ∧
    (OpWord.toBytes 0x0200000000000045#64)[0]? = some 0x45#8 ∧ (OpWord.toBytes 0x0200000000000045#64)[7]? = some 0x02#8 := by
  decide
theorem witness_AssemblerExpandsPseudoInstructions :
    (1 ≤ 1 ∧ 127 < 128) ∧ AsmStmt.assemble (.samples 1) = some [0x0400000000000000#64] ∧
    AsmStmt.assemble (.noteOn 128) = none := by decide
theorem witness_StepPerformsTheDecodedInstruction :
    (sent [.word 0x0400000000000000#64]).inbox = .word 0x0400000000000000#64 :: [] ∧
    decode 0x0400000000000000#64 = .ok .sample := by decide
theorem witness_EmptyPortsHoldTheState : (with0 a4).inbox = [] := rfl
theorem witness_NoteOnRetriggersTheHolder :
    ((with0 a4).voices.voice 0).active = true ∧ ((with0 a4).voices.voice 0).note = some 69 ∧
    ∀ j : VoiceIx, j < 0 → ¬(((with0 a4).voices.voice j).active = true ∧ ((with0 a4).voices.voice j).note = some 69) := by
  decide +kernel
/-- The last voice as the holder. -/
theorem witness_NoteOnRetriggersTheHolder_15 :
    (full.voices.voice 15).active = true ∧ (full.voices.voice 15).note = some 75 ∧
    ∀ j : VoiceIx, j < 15 → ¬((full.voices.voice j).active = true ∧ (full.voices.voice j).note = some 75) := by
  decide +kernel
theorem witness_NoteOnAllocatesTheFirstFreeVoice :
    F32.isNaN (noteFreq (with0 a4).cfg 60) = false ∧
    (∀ j : VoiceIx, ¬(((with0 a4).voices.voice j).active = true ∧ ((with0 a4).voices.voice j).note = some 60)) ∧
    ((with0 a4).voices.voice 1).active = false ∧
    ∀ j : VoiceIx, j < 1 → ((with0 a4).voices.voice j).active = true := by decide +kernel
theorem witness_NoteOnIsDroppedWhenThePoolIsFull :
    ∀ j : VoiceIx, (full.voices.voice j).active = true ∧ (full.voices.voice j).note ≠ some 76 := by decide +kernel
theorem witness_NoteOffReleasesTheHolder :
    ((full.voices.voice 15).active = true ∧ (full.voices.voice 15).note = some 75 ∧
      ∀ j : VoiceIx, j < 15 → ¬((full.voices.voice j).active = true ∧ (full.voices.voice j).note = some 75)) ∧
    ∀ j : VoiceIx, ¬((full.voices.voice j).active = true ∧ (full.voices.voice j).note = some 76) := by decide +kernel
/-- An accepted rate frees a sounding voice. -/
theorem witness_VoicesAreFreed_by_rate :
    exec (.setSrate 0x473B8000#32) (with0 a4) = .next (after (.setSrate 0x473B8000#32) (with0 a4)) ∧
    ((with0 a4).voices.voice 0).active = true ∧ (v0 (.setSrate 0x473B8000#32) (with0 a4)).active = false :=
  ⟨rfl, by decide +kernel, by decide +kernel⟩
/-- A SAMPLE frees a voice whose envelope is Idle. -/
theorem witness_VoicesAreFreed_by_sample :
    exec .sample (with0 (a4At .idle F32.zero)) = .next (after .sample (with0 (a4At .idle F32.zero))) ∧
    ((with0 (a4At .idle F32.zero)).voices.voice 0).active = true ∧
    (v0 .sample (with0 (a4At .idle F32.zero))).active = false := ⟨rfl, by decide +kernel, by decide +kernel⟩
/-- The three ways of a step: `rst`, an accepted rate, and a SAMPLE that finds the envelope Idle (C10). -/
theorem witness_VoicesAreFreed_by_step :
    (∀ es, ((with0 (a4At .idle F32.zero)).voices.voice 0).active =
      ({ with0 (a4At .idle F32.zero) with inbox := es }.voices.voice 0).active) ∧
    ((with0 (a4At .idle F32.zero)).voices.voice 0).active = true ∧
    ((stepped { with0 (a4At .idle F32.zero) with inbox := [.rst] }).voices.voice 0).active = false ∧
    ((stepped { with0 (a4At .idle F32.zero) with inbox := [.word 0x03050000473B8000#64] }).voices.voice 0).active = false ∧
    ((stepped { with0 (a4At .idle F32.zero) with inbox := [.word 0x0400000000000000#64] }).voices.voice 0).active = false :=
  ⟨fun _ => rfl, by decide +kernel, by decide +kernel, by decide +kernel, by decide +kernel⟩
/-- The operands of SET_ENV, SET_CUTOFF and SET_RES: an infinity and a bound are no NaN; the first NaN pattern is. -/
theorem witness_NaN_operands :
    F32.isNaN 0x7F800000#32 = false ∧ F32.isNaN Config.tMin = false ∧ F32.isNaN 0x80000000#32 = false ∧
    F32.isNaN 0x7F800001#32 = true ∧ F32.isNaN 0xFFFFFFFF#32 = true := by decide
/-- The operands of SET_SRATE: the smallest and the largest rate accepted, and one of each kind that is not. -/
theorem witness_SetSrateResetsEveryVoice :
    (F32.isFinite 0x00000001#32 = true ∧ F32.gt 0x00000001#32 F32.zero = true) ∧
    (F32.isFinite 0x7F7FFFFF#32 = true ∧ F32.gt 0x7F7FFFFF#32 F32.zero = true) ∧
    F32.isNaN 0x7FC00000#32 = true ∧ F32.isInf 0x7F800000#32 = true ∧ F32.le 0x00000000#32 F32.zero = true ∧
    F32.le 0x80000000#32 F32.zero = true ∧ F32.le 0x80000001#32 F32.zero = true := by decide +kernel
theorem witness_CommandsAreIdempotent : Instr.noteOn 69 ≠ Instr.sample ∧ Instr.setSrate 0x473B8000#32 ≠ Instr.sample := by
  decide
theorem witness_ParameterOrderDoesNotMatter :
    (Instr.setCutoff 0x3F000000#32).paramKind = some 7 ∧ (Instr.setRes 0x3F000000#32).paramKind = some 8 ∧
    (Instr.setEnvIdle 0x3F000000#32).paramKind = some 0 ∧ (7 : Nat) ≠ 8 ∧ (0 : Nat) ≠ 7 := by decide
theorem witness_ParametersAreWrittenOnlyByTheirCommands :
    exec (.noteOn 69) State.reset = .next (after (.noteOn 69) State.reset) ∧
    (v0 (.noteOn 69) State.reset).osc.frequency ≠ (State.reset.voices.voice 0).osc.frequency := ⟨rfl, by decide +kernel⟩
/-- The three kinds of voice a SAMPLE meets. -/
theorem witness_SampleProcessesEveryVoice :
    ((with0 a4).voices.voice 1).active = false ∧
    (((with0 (a4At .idle F32.zero)).voices.voice 0).active = true ∧
      ((with0 (a4At .idle F32.zero)).voices.voice 0).env.stage = .idle) ∧
    ((with0 a4).voices.voice 0).active = true ∧ ((with0 a4).voices.voice 0).env.stage ≠ .idle := by decide +kernel
theorem witness_SampleOfASilentPoolIsZero : ∀ i : VoiceIx, (State.reset.voices.voice i).active = false := by decide +kernel
/-- An output that is neither a NaN nor -0.0. -/
theorem witness_SampleOfOneVoice :
    (∀ j : VoiceIx, j ≠ 0 → ((with0 a4).voices.voice j).active = false) ∧
    (((with0 a4).voices.voice 0).process (with0 a4).cfg (noiseDraw 0 0)).2 = 0x390F173C#32 := by decide +kernel
/-- An output of -0.0: a negative square sample at level 0.0 (2.5, "negative product"). -/
theorem witness_SampleOfOneVoice_negative_zero (d : F32) :
    (Voice.process Config.default d { a4At .sustain F32.zero with
      osc := { a4.osc with waveform := .square, phase := 0x3F400000#32 } }).2 = F32.negZero := by
  have h : (Voice.process Config.default F32.zero { a4At .sustain F32.zero with
      osc := { a4.osc with waveform := .square, phase := 0x3F400000#32 } }).2 = F32.negZero := by decide +kernel
  exact h
/-- A NaN output: buffers that are NaN (2.4). -/
theorem witness_SampleOfOneVoice_NaN :
    F32.isNaN (Voice.process Config.default F32.zero { a4 with flt := { a4.flt with buf3 := 0x7FC00000#32 } }).2 = true := by
  have h : ∀ x, F32.eq x F32.zero = false → F32.isNaN (Flt.process { a4.flt with buf3 := 0x7FC00000#32 } x).2 = true := by
    intro x hx
    unfold Flt.process
    rw [hx]
    exact F32.isNaN_add _ _ (.inl (by decide))
  exact h (F32.mul (a4.osc.tick Config.default F32.zero).2 a4.env.process.level) (by decide +kernel)
theorem witness_VoicesDoNotInterfere :
    (with0 a4).voices.voice 1 = State.reset.voices.voice 1 ∧ (with0 a4).cfg = State.reset.cfg ∧
    (with0 a4).noiseTick = State.reset.noiseTick := by decide +kernel
theorem witness_VoiceIsFreedOneSampleAfterIdle :
    ((with0 (a4At .release 0x38000000#32)).voices.voice 0).active = true ∧
    ((with0 (a4At .release 0x38000000#32)).voices.voice 0).env.stage = .release ∧
    F32.le (F32.sub ((with0 (a4At .release 0x38000000#32)).voices.voice 0).env.level
      (F32.div F32.one ((with0 (a4At .release 0x38000000#32)).voices.voice 0).env.releaseRate)) F32.zero = true := by
  decide +kernel
/-- Both outcomes of each ramp, at the level where they meet. -/
theorem witness_EnvelopeTransitions :
    F32.ge (F32.add F32.one (F32.div F32.one a4.env.attackRate)) F32.one = true ∧
    F32.ge (F32.add F32.zero (F32.div F32.one a4.env.attackRate)) F32.one = false ∧
    F32.le (F32.sub a4.env.sustainLevel (F32.div F32.one a4.env.decayRate)) a4.env.sustainLevel = true ∧
    F32.le (F32.sub F32.one (F32.div F32.one a4.env.decayRate)) a4.env.sustainLevel = false ∧
    F32.le (F32.sub F32.zero (F32.div F32.one a4.env.releaseRate)) F32.zero = true ∧
    F32.le (F32.sub F32.one (F32.div F32.one a4.env.releaseRate)) F32.zero = false := by decide +kernel
theorem witness_FilterCascade :
    F32.eq F32.one F32.zero = false ∧ F32.eq 0x00000001#32 F32.zero = false ∧ F32.eq 0x7FC00000#32 F32.zero = false := by
  decide +kernel
/-- A NaN in one buffer, with an input that is not zero and with a zero, and a NaN input. -/
theorem witness_NaNStaysInTheFilter :
    F32.isNaN { a4.flt with buf3 := 0x7FC00000#32 }.buf3 = true ∧ F32.isNaN { a4.flt with buf3 := 0x7FC00000#32 }.buf0 = false ∧
    F32.isNaN { a4.flt with buf2 := 0x7FC00000#32 }.buf2 = true ∧ F32.isNaN { a4.flt with buf1 := 0xFFC00000#32 }.buf1 = true ∧
    F32.isNaN { a4.flt with buf0 := 0x7F800001#32 }.buf0 = true ∧
    F32.eq F32.one F32.zero = false ∧ F32.eq F32.negZero F32.zero = true ∧ F32.isNaN 0x7FC00000#32 = true := by decide +kernel
/-- The two ends of the phase range, at the default sine. -/
theorem witness_WaveformsAreBounded :
    (F32.le F32.zero F32.zero = true ∧ F32.lt F32.zero F32.one = true ∧
      inRange F32.negOne F32.one (Config.default.sin32 (F32.mul Config.tau F32.zero)) = true) ∧
    F32.le F32.zero 0x3F7FFFFF#32 = true ∧ F32.lt 0x3F7FFFFF#32 F32.one = true ∧
    inRange F32.negOne F32.one (Config.default.sin32 (F32.mul Config.tau 0x3F7FFFFF#32)) = true := by decide +kernel
theorem witness_NoiseDrawsAreInRange : (v0 .setWaveNoise State.reset).osc.waveform = .noise := by decide +kernel
theorem witness_OctavesAreExact :
    (((9 : Note).toNat : Int) = 69 + 12 * (-5)) ∧ (((117 : Note).toNat : Int) = 69 + 12 * 4) ∧
    noteFreq Config.default 9 = 0x415C0000#32 ∧ noteFreq Config.default 117 = 0x45DC0000#32 := by decide +kernel
/-- A tie that goes to the even pattern: 2^24 + 1 units lie half way between two values. -/
theorem witness_RoundingIsNearestTiesToEven :
    0 < 1 ∧ F32.infMag ≤ F32.infMag ∧ F32.roundMag (2 ^ 24 + 1) 1 = 0x01000000 ∧ F32.magValue 0x01000000 = 2 ^ 24 ∧
    F32.magValue 0x01000001 = 2 ^ 24 + 2 := by decide +kernel
/-- The largest value twice, whose sum overflows to an infinity, and a tie: 1 + 2^-24 lies half way between 1 and the
next value, and goes to the even pattern. -/
theorem witness_ArithmeticRoundsToNearest :
    (F32.isFinite 0x7F7FFFFF#32 = true ∧ F32.isZero 0x7F7FFFFF#32 = false ∧
      F32.add 0x7F7FFFFF#32 0x7F7FFFFF#32 = 0x7F800000#32) ∧
    F32.isFinite F32.one = true ∧ F32.isFinite 0x33800000#32 = true ∧ F32.add F32.one 0x33800000#32 = F32.one ∧
    (F32.value F32.one - (F32.value F32.one + F32.value 0x33800000#32)).natAbs =
      (F32.value 0x3F800001#32 - (F32.value F32.one + F32.value 0x33800000#32)).natAbs := by decide +kernel
/-- A value inside, below, above, and at a bound. -/
theorem witness_ClampKeepsTheRange :
    F32.le Config.cMin Config.cMax = true ∧ F32.isNaN 0x3F000000#32 = false ∧
    inRange Config.cMin Config.cMax 0x3F000000#32 = true ∧ inRange Config.cMin Config.cMax Config.cMax = true ∧
    F32.lt 0xBF800000#32 Config.cMin = true ∧ F32.gt 0x7F800000#32 Config.cMax = true := by decide +kernel
/-- Both sides of the branch at 0.5. -/
theorem witness_WaveformFormulas :
    F32.lt 0x3EFFFFFF#32 0x3F000000#32 = true ∧ F32.lt 0x3F000000#32 0x3F000000#32 = false := by decide +kernel
/-- 5.5 and -5.5 by 2.0; an infinite and a zero divisor; a NaN; an infinite dividend. -/
theorem witness_RemainderIsExact :
    (F32.isFinite 0x40B00000#32 = true ∧ F32.isFinite 0x40000000#32 = true ∧ F32.isZero 0x40000000#32 = false) ∧
    F32.fmod 0x40B00000#32 0x40000000#32 = 0x3FC00000#32 ∧ F32.fmod 0xC0B00000#32 0x40000000#32 = 0xBFC00000#32 ∧
    F32.isInf 0xFF800000#32 = true ∧ F32.isZero F32.negZero = true ∧ F32.isNaN 0x7FC00000#32 = true := by decide +kernel
/-- The ends of the ranges of the sum: 0.0, just below 1.0, 1.0, just below 2.0, 2.0, a negative and an infinite one. -/
theorem witness_PhaseWraps :
    (F32.le F32.zero F32.zero = true ∧ F32.lt 0x3F7FFFFF#32 F32.one = true) ∧
    (F32.le F32.one F32.one = true ∧ F32.lt 0x3FFFFFFF#32 0x40000000#32 = true) ∧
    (F32.isFinite 0x40000000#32 = true ∧ F32.le F32.zero 0x40000000#32 = true) ∧
    (F32.isFinite 0xBF000000#32 = true ∧ F32.lt 0xBF000000#32 F32.zero = true ∧
      F32.lt (F32.fmod 0xBF000000#32 F32.one) F32.zero = true) ∧
    (F32.lt 0xBF800000#32 F32.zero = true ∧ F32.lt (F32.fmod 0xBF800000#32 F32.one) F32.zero = false) ∧
    F32.isFinite 0x7F800000#32 = false := by decide +kernel
/-- A sum of 1.0 wraps to 0.0 (R66), from phase 0.75 with an increment of 0.25 (2.2). -/
theorem test_phase_wraps_at_one :
    (Osc.advance ⟨0x472C4400#32, 0x462C4400#32, 0x3F400000#32, .sine⟩).phase = F32.zero := by decide +kernel
theorem witness_PitchMapFormula :
    Config.default.pitchFn = .exp2 .correctlyRounded ∧ { Config.default with pitchFn := .table 3 }.pitchFn = .table 3 :=
  ⟨rfl, rfl⟩
/-- One pair for each clause: a NaN, infinities with finite values and with each other, exact zero sums, zero divisors. -/
theorem witness_SpecialOperandsFollowIEEE :
    (F32.isNaN 0x7FC00000#32 = true ∧ F32.isInf 0x7F800000#32 = true ∧ F32.isInf 0xFF800000#32 = true ∧
      F32.isFinite F32.negZero = true ∧ F32.isZero F32.negZero = true ∧ F32.isZero F32.one = false) ∧
    F32.sign 0x7F800000#32 ≠ F32.sign 0xFF800000#32 ∧
    F32.value F32.one + F32.value F32.negOne = 0 ∧ F32.value F32.negZero + F32.value F32.negZero = 0 ∧
    F32.value F32.one - F32.value F32.one = 0 ∧ F32.value F32.one + F32.value F32.one ≠ 0 ∧
    F32.value F32.one - F32.value F32.negOne ≠ 0 ∧
    F32.isNaN (F32.mul F32.one F32.one) = false ∧ F32.isNaN (F32.div F32.one F32.zero) = false := by decide +kernel
/-- R141: 1.0 by a rate of 0.0 and of +infinity. -/
theorem test_steps_of_extreme_rates :
    rampStep F32.zero = 0x7F800000#32 ∧ rampStep 0x7F800000#32 = F32.zero := by decide +kernel
theorem witness_ComparisonsFollowIEEE :
    F32.isNaN 0x7FC00000#32 = true ∧ F32.isNaN 0x7F800000#32 = false ∧ F32.isFinite 0x7F7FFFFF#32 = true := by decide
/-- A sum too large for binary32 is rounded to the infinity; R63: "nan | +inf | -inf" and a decimal literal. -/
theorem test_rounding_overflow_and_literals :
    F32.roundMag (2 ^ 300) 1 = F32.infMag ∧ (F32Literal.decimal true 1 2).value = 0xBC23D70A#32 ∧
    F32Literal.nan.value = 0x7FC00000#32 ∧ F32Literal.posInf.value = 0x7F800000#32 ∧
    F32Literal.negInf.value = 0xFF800000#32 := by decide +kernel
/-- R141 at level -0.0, which a decay to a sustain of -0.0 and a retrigger reach: the level becomes +0.0. -/
theorem test_attack_from_negative_zero_at_infinite_rate :
    Env.process { (a4At .attack F32.negZero).env with attackRate := 0x7F800000#32 } =
      { (a4At .attack F32.zero).env with attackRate := 0x7F800000#32 } := by decide +kernel
/-- The levels where the clauses meet: a ramp at 0.5 in each stage, and the two kinds of rate. -/
theorem witness_EnvelopeAtExtremeRates :
    inRange F32.zero F32.one (a4At .attack 0x3F000000#32).env.level = true ∧
    inRange F32.zero F32.one { a4.env with sustainLevel := F32.zero }.sustainLevel = true ∧
    (a4At .attack 0x3F000000#32).env.stage = .attack ∧ F32.lt 0x3F000000#32 F32.one = true ∧
    (0x3F000000#32 : F32) ≠ F32.negZero ∧ F32.gt 0x3F000000#32 F32.zero = true ∧
    { a4.env with attackRate := F32.zero }.attackRate = F32.zero ∧
    { a4.env with attackRate := 0x7F800000#32 }.attackRate = 0x7F800000#32 := by decide +kernel
theorem witness_ResetConstructsEveryVoice : { with0 a4 with inbox := [.rst] }.inbox = .rst :: [] := rfl

/-- A stream that boots and is batched: `rst`, a reserved word and a note in a buffer of two samples, then a buffer of one
sample without commands. -/
theorem witness_HostBatched : HostBatched
    [.rst, .word 0x0306000000000000#64, .word 0x0100000000000045#64, .word 0x0400000000000000#64,
      .word 0x0400000000000000#64, .word 0x0400000000000000#64] := by
  refine ⟨[(2, [.rst, .word 0x0306000000000000#64, .word 0x0100000000000045#64]), (1, [])], by decide, ?_⟩
  intro b hb e he w h
  subst h
  simp only [List.mem_cons, List.not_mem_nil, or_false] at hb
  rcases hb with rfl | rfl
  · simp only [List.mem_cons, reduceCtorEq, PortEvent.word.injEq, List.not_mem_nil, false_or, or_false] at he
    rcases he with rfl | rfl <;> decide
  · cases he

/-- One stream meets both premises on a host. -/
theorem witness_HostBoots_and_HostBatched :
    HostBoots [.rst, .word 0x0100000000000045#64, .word 0x0400000000000000#64] ∧
    HostBatched [.rst, .word 0x0100000000000045#64, .word 0x0400000000000000#64] := by
  refine ⟨⟨none, [], [.word 0x0100000000000045#64, .word 0x0400000000000000#64], by decide, nofun, fun e he => ?_⟩,
    ⟨[(1, [.rst, .word 0x0100000000000045#64])], by decide, ?_⟩⟩
  · cases he
    exact ⟨0x0100000000000045#64, .noteOn 69, rfl, by decide, rfl, nofun⟩
  · intro b hb e he w h
    subst h
    rw [List.mem_singleton.mp hb] at he
    simp only [List.mem_cons, reduceCtorEq, PortEvent.word.injEq, List.not_mem_nil, false_or, or_false] at he
    subst he
    decide

/-- A boot with a rate and one parameter word, and a rate change and a reset after its first note word. -/
theorem witness_HostBoots : HostBoots
    [.rst, .word 0x03050000473B8000#64, .word 0x030300003F000000#64, .word 0x0100000000000045#64,
      .word 0x03050000472C4400#64, .rst] := by
  refine ⟨some 0x473B8000#32, [0x030300003F000000#64],
    [.word 0x0100000000000045#64, .word 0x03050000472C4400#64, .rst], by decide, fun w hw => ?_, fun e he => ?_⟩
  · rw [List.mem_singleton.mp hw]
    exact ⟨.setCutoff 0x3F000000#32, 7, by decide, rfl⟩
  · cases he
    exact ⟨0x0100000000000045#64, .noteOn 69, rfl, by decide, rfl, nofun⟩

/-- Every voice of a state with nothing but words on its ports is the constructed one. -/
theorem sent_voice (es : List PortEvent) (i : VoiceIx) : (sent es).voices.voice i = Voice.construct Config.default := by
  unfold Pool.voice sent State.reset; simp

theorem witness_default_is_legal : LegalConfig (sent [.word 0x0100000000000045#64]).cfg := by
  constructor <;> decide +kernel

/-- A state that meets the invariant and takes a word: the premises of all the invariant statements. -/
theorem witness_invariants :
    (sent [.word 0x0100000000000045#64]).Inv ∧
    step (sent [.word 0x0100000000000045#64]) = .next (after (.noteOn 69) (sent [])) := by
  refine ⟨⟨witness_default_is_legal, fun i => ?_, fun n i j h => ?_, fun i => ?_, fun i => ?_, fun i => ?_, fun i => ?_,
    fun i j => ?_, fun i => ?_, fun i => ?_⟩, rfl⟩
  · rw [sent_voice]; simp [Voice.construct]
  · rw [sent_voice] at h; simp [Voice.holds, Voice.construct] at h
  · rw [sent_voice]; decide +kernel
  · rw [sent_voice]; decide +kernel
  · rw [sent_voice]; exact ⟨by decide +kernel, by decide +kernel, rfl⟩
  · rw [sent_voice]; decide +kernel
  · rw [sent_voice, sent_voice]; exact ⟨rfl, rfl⟩
  · rw [sent_voice]; decide +kernel
  · rw [sent_voice]; decide +kernel

end Sys2Proof.Tests
end

/-! SUPPORT. The arithmetic of R11, proved against the statements: the rounding is nearest with ties to even, each
operation is the exact one rounded once, the remainder is exact, and what operands outside the finite values give; the
comparisons and the clamp; and the output transfer of each instruction (R7). -/

namespace Sys2Proof.F32

/-! ### The rounding -/

/-- `roundHalfEven` answers an integer nearest to `n / d`, and the even one of two equally near. -/
theorem roundHalfEven_nearest (n d j : Nat) (hd : 0 < d) :
    ((roundHalfEven n d * d : Int) - n).natAbs ≤ ((j * d : Int) - n).natAbs ∧
      (((roundHalfEven n d * d : Int) - n).natAbs = ((j * d : Int) - n).natAbs → j ≠ roundHalfEven n d →
        roundHalfEven n d % 2 = 0) := by
  obtain ⟨hlow, hhigh, htie⟩ := roundHalfEven_spec n d hd
  generalize roundHalfEven n d = h at *
  rcases Nat.lt_trichotomy j h with hj | rfl | hj
  · -- `j` is at least one whole unit below
    have gap : j * d + d ≤ h * d := by nlinarith
    omega
  · simp
  · -- `j` is at least one whole unit above
    have gap : h * d + d ≤ j * d := by nlinarith
    omega

/-- The value of the pattern that `roundMag` builds from a shift and a rounded significand, the carry `2 ^ 24` among
them. -/
theorem magValue_shift_add (k h : Nat) (hh : h ≤ 2 ^ 24) (hlead : k = 0 ∨ 2 ^ 23 ≤ h) :
    magValue (k * 2 ^ 23 + h) = h * 2 ^ k := by
  unfold magValue
  rcases Nat.lt_or_ge h (2 ^ 23) with hs | hs
  · -- a subnormal: nothing was dropped
    obtain rfl : k = 0 := by omega
    rw [if_pos (by omega)]; simp
  · rcases Nat.eq_or_lt_of_le hh with rfl | hc
    · -- the carry steps the exponent
      rw [show (k * 2 ^ 23 + 2 ^ 24) / 2 ^ 23 = k + 2 by omega, show (k * 2 ^ 23 + 2 ^ 24) % 2 ^ 23 = 0 by omega]
      simp only [Nat.add_eq_zero_iff, OfNat.ofNat_ne_zero, and_false, if_false]
      rw [show k + 2 - 1 = k + 1 by omega]; ring
    · rw [show (k * 2 ^ 23 + h) / 2 ^ 23 = k + 1 by omega, show (k * 2 ^ 23 + h) % 2 ^ 23 = h - 2 ^ 23 by omega,
        if_neg (by omega), Nat.add_sub_cancel, show 2 ^ 23 + (h - 2 ^ 23) = h by omega]

/-- From the exponent of the shift `k` on, every value is a whole number of units of `2 ^ k`. -/
theorem two_pow_dvd_magValue (k m : Nat) (h : k = 0 ∨ (k + 1) * 2 ^ 23 ≤ m) : 2 ^ k ∣ magValue m := by
  rcases h with rfl | h
  · simp
  · unfold magValue
    rw [if_neg (by omega)]
    exact Dvd.dvd.mul_left (pow_dvd_pow 2 (by omega)) _

/-- The pattern nearest to `num / den` units when there is no largest exponent: `roundMag` before it turns what reaches
2^128 into an infinity. -/
def roundUnbounded (num den : Nat) : Nat :=
  roundShift num den * 2 ^ 23 + roundHalfEven num (den * 2 ^ roundShift num den)

theorem roundMag_eq_min (num den : Nat) : roundMag num den = min (roundUnbounded num den) infMag := rfl

/-- How far the value of a magnitude pattern lies from `num / den` units, in units of `1 / den`. -/
def magDist (num den m : Nat) : Nat := ((magValue m * den : Int) - num).natAbs

/-- Where places are dropped, the exact value has its leading place. -/
theorem leading_place_le (num den : Nat) (hd : 0 < den) (hk : 0 < roundShift num den) :
    2 ^ 23 * 2 ^ roundShift num den * den ≤ num := by
  have hne : num / den ≠ 0 := by
    intro h; unfold roundShift at hk; rw [h] at hk; revert hk; decide
  rw [← Nat.le_div_iff_mul_le hd, ← pow_add]
  calc 2 ^ (23 + roundShift num den) = 2 ^ Nat.log2 (num / den) := by
        congr 1; unfold roundShift at hk ⊢; omega
    _ ≤ num / den := Nat.log2_self_le hne

theorem magValue_roundUnbounded (num den : Nat) (hd : 0 < den) :
    magValue (roundUnbounded num den) =
      roundHalfEven num (den * 2 ^ roundShift num den) * 2 ^ roundShift num den :=
  magValue_shift_add _ _ (roundHalfEven_shift_le num den hd)
    ((Nat.eq_zero_or_pos _).imp_right (le_roundHalfEven_shift num den hd))

/-- No pattern is nearer than the unbounded rounding, and of two equally near it is the even one: a pattern at or above
the leading place is a whole number of its last places, one below is passed by the exact value. -/
theorem roundUnbounded_nearest (num den m : Nat) (hd : 0 < den) :
    magDist num den (roundUnbounded num den) ≤ magDist num den m ∧
      (magDist num den (roundUnbounded num den) = magDist num den m → m ≠ roundUnbounded num den →
        roundUnbounded num den % 2 = 0) := by
  have hval := magValue_roundUnbounded num den hd
  have hpar : roundUnbounded num den % 2 = roundHalfEven num (den * 2 ^ roundShift num den) % 2 := by
    unfold roundUnbounded; omega
  have hdist : ∀ j m, magValue m = j * 2 ^ roundShift num den →
      magDist num den m = ((j * (den * 2 ^ roundShift num den : Nat) : Int) - num).natAbs := by
    intro j m h; unfold magDist; rw [h]; push_cast; congr 2; ring
  have hnear := fun j => roundHalfEven_nearest num (den * 2 ^ roundShift num den) j (by positivity)
  rw [hdist _ _ hval, hpar]
  by_cases hm : roundShift num den = 0 ∨ (roundShift num den + 1) * 2 ^ 23 ≤ m
  · obtain ⟨j, hj⟩ := two_pow_dvd_magValue _ _ hm
    rw [Nat.mul_comm] at hj
    rw [hdist j m hj]
    refine ⟨(hnear j).1, fun heq hne => (hnear j).2 heq ?_⟩
    rintro rfl
    exact hne (magValue_strictMono.injective (hj.trans hval.symm))
  · have hlead : magValue ((roundShift num den) * 2 ^ 23 + 2 ^ 23) = 2 ^ 23 * 2 ^ roundShift num den :=
      magValue_shift_add _ _ (by norm_num) (.inr le_rfl)
    have hlt : magValue m < 2 ^ 23 * 2 ^ roundShift num den := by
      rw [← hlead]; exact magValue_strictMono (by omega)
    have hnum := leading_place_le num den hd (by omega)
    have hmden : magValue m * den < 2 ^ 23 * 2 ^ roundShift num den * den := Nat.mul_lt_mul_of_pos_right hlt hd
    have hfar : ((2 ^ 23 * (den * 2 ^ roundShift num den : Nat) : Int) - num).natAbs < magDist num den m := by
      have : (2 ^ 23 * (den * 2 ^ roundShift num den : Nat) : Int) = (2 ^ 23 * 2 ^ roundShift num den * den : Nat) := by
        push_cast; ring
      unfold magDist
      rw [this]
      omega
    have := (hnear (2 ^ 23)).1
    push_cast at this hfar ⊢
    exact ⟨by omega, fun _ _ => by omega⟩

/-- No finite or infinite magnitude is nearer than the rounding, and of two equally near it is the even one. -/
theorem roundMag_nearest (num den m : Nat) (hd : 0 < den) (hm : m ≤ infMag) :
    magDist num den (roundMag num den) ≤ magDist num den m ∧
      (magDist num den (roundMag num den) = magDist num den m → m ≠ roundMag num den → roundMag num den % 2 = 0) := by
  rw [roundMag_eq_min]
  rcases Nat.le_total (roundUnbounded num den) infMag with hle | hge
  · rw [Nat.min_eq_left hle]; exact roundUnbounded_nearest num den m hd
  · -- the unbounded rounding lies at or beyond the infinity, so the exact value does not lie nearer to what is below
    rw [Nat.min_eq_right hge]
    refine ⟨?_, fun _ _ => by decide⟩
    have hinf := (roundUnbounded_nearest num den infMag hd).1
    have hnear := (roundUnbounded_nearest num den m hd).1
    have hv := Nat.mul_le_mul_right den (magValue_strictMono.monotone hge)
    have hvm := Nat.mul_le_mul_right den (magValue_strictMono.monotone hm)
    unfold magDist at *
    omega

/-- Settles O41: the rounded significand is the nearest integer, and an exact value beyond the largest exponent is
nearer to 2^128 than to any finite value. -/
theorem roundingIsNearestTiesToEven : Obligations.RoundingIsNearestTiesToEven := fun num den hd =>
  ⟨roundMag_le_infMag num den, fun m hm => roundMag_nearest num den m hd hm⟩

/-! ### Patterns and classes -/

theorem magValue_zero : magValue 0 = 0 := (magValue_eq_zero_iff 0).2 rfl

theorem mag_le_infMag (x : F32) (h : isNaN x = false) : mag x ≤ infMag := by
  unfold isNaN at h; simpa using h

theorem isNaN_of_isInf (x : F32) (h : isInf x = true) : isNaN x = false := by
  unfold isInf at h; unfold isNaN; simp_all

theorem magValue_pos (x : F32) (h : isZero x = false) : 0 < magValue (mag x) :=
  Nat.pos_of_ne_zero fun h0 => of_decide_eq_false h ((magValue_eq_zero_iff _).1 h0)

theorem isZero_iff_value (x : F32) : isZero x = true ↔ value x = 0 := by
  rw [← Int.natAbs_eq_zero, natAbs_value, magValue_eq_zero_iff]; simp [isZero]

theorem ofMag_mod_two (s : Bool) (m : Nat) (h : m < 2 ^ 31) : (ofMag s m).toNat % 2 = m % 2 := by
  rw [toNat_ofMag s m h]; split <;> omega

theorem negate_eq_iff (x y : F32) : negate x = y ↔ x = negate y := by
  have inv : ∀ z : F32, negate (negate z) = z := fun z => by
    rw [negate, sign_negate, mag_negate, Bool.not_not, ofMag_sign_mag]
  constructor
  · rintro rfl; exact (inv x).symm
  · rintro rfl; exact inv y

/-! ### Nearest values with a sign -/

/-- The integer with this sign and this magnitude. -/
def signed (s : Bool) (n : Int) : Int := if s then -n else n

theorem value_eq_signed (x : F32) : value x = signed (sign x) (magValue (mag x)) := rfl

theorem natAbs_sub_signed (s : Bool) (x n : Int) : (x - signed s n).natAbs = (signed s x - n).natAbs := by
  unfold signed
  cases s
  · rfl
  · simp only [if_true]; omega

theorem signed_mul_same (s : Bool) (m d : Int) : signed s (signed s m * d) = m * d := by
  unfold signed; cases s <;> simp

/-- Seen from the other sign, a magnitude lies on the other side of zero. -/
theorem signed_mul_other (s : Bool) (m d : Int) : signed (!s) (signed s m * d) = -(m * d) := by
  unfold signed; cases s <;> simp

/-- A rounded magnitude with the sign of the exact value is nearest to it among all values, of either sign: one of the
other sign is no nearer than zero is. -/
theorem isNearestEven_ofMag (s : Bool) (num den : Nat) (hd : 0 < den) (dist : F32 → Nat)
    (hdist : ∀ c, dist c = (value c * den - signed s num).natAbs) :
    IsNearestEven (ofMag s (roundMag num den)) dist := by
  have hR := roundMag_le_infMag num den
  have hlt := infMag_lt
  have hsame : ∀ c, sign c = s → dist c = magDist num den (mag c) := by
    rintro c rfl
    rw [hdist, natAbs_sub_signed, value_eq_signed, signed_mul_same, magDist]
  have hother : ∀ c, sign c ≠ s → magDist num den 0 ≤ dist c := by
    intro c hc
    obtain rfl : s = !sign c := by revert hc; cases s <;> cases sign c <;> decide
    rw [hdist, natAbs_sub_signed, value_eq_signed, signed_mul_other, magDist, magValue_zero]
    have hnonneg : (0 : Int) ≤ magValue (mag c) * den := by positivity
    omega
  refine ⟨isNaN_ofMag s _ hR, fun c hc => ?_⟩
  rw [hsame (ofMag s _) (sign_ofMag _ _ (by omega)), mag_ofMag _ _ (by omega), ofMag_mod_two _ _ (by omega)]
  by_cases hs : sign c = s
  · rw [hsame c hs]
    obtain ⟨hle, heven⟩ := roundMag_nearest num den (mag c) hd (mag_le_infMag c hc)
    refine ⟨hle, fun heq hne => heven heq ?_⟩
    intro hmag
    exact hne (by rw [← ofMag_sign_mag c, hs, hmag])
  · obtain ⟨hle, heven⟩ := roundMag_nearest num den 0 hd (Nat.zero_le _)
    have := hother c hs
    refine ⟨by omega, fun heq _ => ?_⟩
    rcases Nat.eq_zero_or_pos (roundMag num den) with h0 | hpos
    · rw [h0]
    · exact heven (by omega) (by omega)

/-- A finite sum in terms of the exact one: its sign, unless that is zero, and its magnitude rounded once. -/
theorem add_finite_eq (a b : F32) (ha : isFinite a = true) (hb : isFinite b = true) :
    add a b = if value a + value b = 0 then ofMag (sign a && sign b) 0
      else ofMag (decide (value a + value b < 0)) (roundMag (value a + value b).natAbs 1) := by
  obtain ⟨a1, a2⟩ := (isFinite_iff a).1 ha
  obtain ⟨b1, b2⟩ := (isFinite_iff b).1 hb
  unfold add
  simp only [a1, b1, a2, b2, Bool.or_self, Bool.false_eq_true, if_false]

theorem isNearestEven_add (a b : F32) (ha : isFinite a = true) (hb : isFinite b = true) :
    IsNearestEven (add a b) (fun c => (value c - (value a + value b)).natAbs) := by
  rw [add_finite_eq a b ha hb]
  generalize value a + value b = v
  split
  · next hv =>
    have hr : roundMag 0 1 = 0 := Nat.le_zero.1 (roundMag_le 0 1 0 Nat.one_pos (Nat.zero_le _) (Nat.zero_le _))
    rw [← hr]
    refine isNearestEven_ofMag _ 0 1 Nat.one_pos _ fun c => ?_
    subst hv
    simp [signed]
  · refine isNearestEven_ofMag _ _ 1 Nat.one_pos _ fun c => ?_
    have : signed (decide (v < 0)) v.natAbs = v := by
      unfold signed; simp only [decide_eq_true_eq]; split <;> omega
    rw [this]; simp

theorem isNearestEven_sub (a b : F32) (ha : isFinite a = true) (hb : isFinite b = true) :
    IsNearestEven (sub a b) (fun c => (value c - (value a - value b)).natAbs) := by
  have := isNearestEven_add a (negate b) ha (by rwa [isFinite_negate])
  rwa [value_negate, ← Int.sub_eq_add_neg] at this

theorem isNearestEven_mul (a b : F32) (ha : isFinite a = true) (hb : isFinite b = true) :
    IsNearestEven (mul a b) (fun c => (value c * 2 ^ 149 - value a * value b).natAbs) := by
  rw [mul_finite a b ha hb]
  refine isNearestEven_ofMag _ _ _ (by positivity) _ fun c => ?_
  have : value a * value b = signed (sign a != sign b) (magValue (mag a) * magValue (mag b) : Nat) := by
    rw [value_eq_signed a, value_eq_signed b]
    unfold signed; cases sign a <;> cases sign b <;> simp
  rw [this]; push_cast; rfl

theorem isNearestEven_div (a b : F32) (ha : isFinite a = true) (hb : isFinite b = true) (h0 : isZero b = false) :
    IsNearestEven (div a b) (fun c => (value c * value b - value a * 2 ^ 149).natAbs) := by
  rw [div_finite a b ha hb h0]
  refine isNearestEven_ofMag _ _ _ (magValue_pos b h0) _ fun c => ?_
  -- the divisor's sign may be moved to the dividend
  have hmove : ∀ x y z : Int, (x * signed (sign b) y - signed (sign a) z).natAbs =
      (x * y - signed (sign a != sign b) z).natAbs := by
    intro x y z
    unfold signed; cases sign a <;> cases sign b <;> simp <;> omega
  rw [← hmove, ← value_eq_signed b, value_eq_signed a]
  push_cast
  congr 2
  unfold signed; cases sign a <;> simp

/-- Settles O42: each result is the exact one's magnitude rounded once, with its sign. -/
theorem arithmeticRoundsToNearest : Obligations.ArithmeticRoundsToNearest := fun a b ha hb =>
  ⟨isNearestEven_add a b ha hb, isNearestEven_sub a b ha hb, isNearestEven_mul a b ha hb, isNearestEven_div a b ha hb⟩

/-! ### The remainder -/

/-- What fits in 24 places and does not pass 2^128 is the value of a magnitude pattern. -/
theorem exists_magValue_eq (q e : Nat) (hq : q < 2 ^ 24) (hle : q * 2 ^ e ≤ magValue infMag) :
    ∃ m ≤ infMag, magValue m = q * 2 ^ e := by
  have of_value : ∀ m, magValue m = q * 2 ^ e → ∃ m ≤ infMag, magValue m = q * 2 ^ e := fun m hm =>
    ⟨m, magValue_strictMono.le_iff_le.1 (by omega), hm⟩
  induction e generalizing q with
  | zero => exact of_value (0 * 2 ^ 23 + q) (magValue_shift_add 0 q hq.le (.inl rfl))
  | succ e ih =>
    rcases Nat.lt_or_ge q (2 ^ 23) with hs | hs
    · -- the leading place is free: take one place less
      have hdouble : q * 2 ^ (e + 1) = 2 * q * 2 ^ e := by ring
      rw [hdouble] at hle of_value ⊢
      exact ih (2 * q) (by omega) hle of_value
    · exact of_value _ (magValue_shift_add (e + 1) q hq.le (.inr hs))

/-- The remainder of two binary32 magnitudes is one itself: it is a whole number of units of the smaller of their last
places, and below both. -/
theorem exists_magValue_eq_mod (x y : Nat) (hx : x ≤ infMag) (hy : 0 < magValue y) :
    ∃ m ≤ infMag, magValue m = magValue x % magValue y := by
  obtain ⟨a, i, ha, hvx⟩ := magValue_significand x
  obtain ⟨b, j, hb, hvy⟩ := magValue_significand y
  have hlex : magValue x % magValue y ≤ magValue x := Nat.mod_le _ _
  have hlty : magValue x % magValue y < magValue y := Nat.mod_lt _ hy
  have hinf : magValue x ≤ magValue infMag := magValue_strictMono.monotone hx
  have hdvd : 2 ^ min i j ∣ magValue x % magValue y := by
    rw [Nat.dvd_mod_iff]
    · rw [hvx]; exact Dvd.dvd.mul_left (pow_dvd_pow 2 (Nat.min_le_left i j)) a
    · rw [hvy]; exact Dvd.dvd.mul_left (pow_dvd_pow 2 (Nat.min_le_right i j)) b
  obtain ⟨q, hq⟩ := hdvd
  rw [Nat.mul_comm] at hq
  rw [hq] at hlex hlty ⊢
  refine exists_magValue_eq q (min i j) ?_ (hlex.trans hinf)
  rcases Nat.le_total i j with h | h
  · rw [Nat.min_eq_left h, hvx] at hlex
    exact (Nat.le_of_mul_le_mul_right hlex (by positivity)).trans_lt ha
  · rw [Nat.min_eq_right h, hvy] at hlty
    exact (Nat.lt_of_mul_lt_mul_right hlty).trans hb

/-- The rounding leaves a remainder of two binary32 magnitudes as it is. -/
theorem magValue_roundMag_mod (x y : Nat) (hx : x ≤ infMag) (hy : 0 < magValue y) :
    magValue (roundMag (magValue x % magValue y) 1) = magValue x % magValue y := by
  obtain ⟨m, hm, hv⟩ := exists_magValue_eq_mod x y hx hy
  rw [← hv, ← Nat.mul_one (magValue m), roundMag_exact m 1 Nat.one_pos hm, Nat.mul_one]

theorem fmod_finite (x y : F32) (hx : isFinite x = true) (hy : isFinite y = true) (h0 : isZero y = false) :
    fmod x y = ofMag (sign x) (roundMag (magValue (mag x) % magValue (mag y)) 1) := by
  obtain ⟨x1, x2⟩ := (isFinite_iff x).1 hx
  obtain ⟨y1, y2⟩ := (isFinite_iff y).1 hy
  unfold fmod
  simp only [x1, x2, y1, y2, h0, Bool.or_self, Bool.false_eq_true, if_false]

/-- A finite value is its own remainder by an infinity. -/
theorem fmod_inf (x y : F32) (hx : isFinite x = true) (hy : isInf y = true) : fmod x y = x := by
  obtain ⟨x1, x2⟩ := (isFinite_iff x).1 hx
  have y0 : isZero y = false := by unfold isInf at hy; unfold isZero; rw [of_decide_eq_true hy]; decide
  unfold fmod
  simp only [x1, x2, isNaN_of_isInf y hy, y0, hy, Bool.or_self, Bool.false_eq_true, if_false, if_true]

theorem isNaN_fmod (x y : F32) (h : isNaN x = true ∨ isNaN y = true ∨ isInf x = true ∨ isZero y = true) :
    isNaN (fmod x y) = true := by
  unfold fmod
  rw [if_pos (by simpa [or_assoc] using h), isNaN_nanOf]

/-- A remainder of finite values is exact, truncated towards zero, with the sign of the first operand. -/
theorem fmod_finite_spec (x y : F32) (hx : isFinite x = true) (hy : isFinite y = true) (h0 : isZero y = false) :
    isNaN (fmod x y) = false ∧ value (fmod x y) = (value x).tmod (value y) ∧ sign (fmod x y) = sign x := by
  have hmod := magValue_roundMag_mod (mag x) (mag y) (mag_le_infMag x ((isFinite_iff x).1 hx).1) (magValue_pos y h0)
  have hR := roundMag_le_infMag (magValue (mag x) % magValue (mag y)) 1
  have hlt := infMag_lt
  rw [fmod_finite x y hx hy h0]
  refine ⟨isNaN_ofMag _ _ hR, ?_, sign_ofMag _ _ (by omega)⟩
  rw [value_ofMag _ _ (by omega), hmod, value_eq_signed x, value_eq_signed y]
  unfold signed
  cases sign x <;> cases sign y <;> simp [Int.neg_tmod, Int.tmod_neg, Int.tmod_eq_emod_of_nonneg]

/-- Settles O55: the remainder of two binary32 magnitudes is a binary32 magnitude, so the one rounding changes
nothing. -/
theorem remainderIsExact : Obligations.RemainderIsExact := fun x y =>
  ⟨fmod_finite_spec x y, fmod_inf x y, isNaN_fmod x y⟩

/-! ### Special operands

Each operation by the class of its operands, and once, what it can answer at all: the NaN of the operation, or a
magnitude that is no NaN's with a sign. -/

theorem add_inf_left (a b : F32) (ha : isInf a = true) (hb : isFinite b = true) : add a b = a := by
  obtain ⟨b1, b2⟩ := (isFinite_iff b).1 hb
  unfold add; simp [ha, isNaN_of_isInf a ha, b1, b2]

theorem add_inf_inf (a b : F32) (ha : isInf a = true) (hb : isInf b = true) :
    add a b = if sign a = sign b then a else nanOf .add a b := by
  unfold add; simp [ha, hb, isNaN_of_isInf]

theorem mul_of_isInf (a b : F32) (ha : isNaN a = false) (hb : isNaN b = false)
    (h : isInf a = true ∨ isInf b = true) :
    mul a b = if isZero a || isZero b then nanOf .mul a b else ofMag (sign a != sign b) infMag := by
  unfold mul; rcases h with h | h <;> simp [ha, hb, h]

theorem div_inf_left (a b : F32) (ha : isInf a = true) (hb : isNaN b = false) :
    div a b = if isInf b then nanOf .div a b else ofMag (sign a != sign b) infMag := by
  unfold div; simp [ha, isNaN_of_isInf a ha, hb]

theorem div_inf_right (a b : F32) (ha : isFinite a = true) (hb : isInf b = true) :
    div a b = ofMag (sign a != sign b) 0 := by
  obtain ⟨a1, a2⟩ := (isFinite_iff a).1 ha
  unfold div; simp [a1, a2, isNaN_of_isInf b hb, hb]

theorem div_by_zero (a b : F32) (ha : isFinite a = true) (hb : isZero b = true) :
    div a b = if isZero a then nanOf .div a b else ofMag (sign a != sign b) infMag := by
  obtain ⟨a1, a2⟩ := (isFinite_iff a).1 ha
  have hmag : mag b = 0 := of_decide_eq_true hb
  have b1 : isNaN b = false := by simp [isNaN, hmag]
  have b2 : isInf b = false := by unfold isInf; rw [hmag]; decide
  unfold div; simp [a1, a2, b1, b2, hb]

/-- What a sum can be: the NaN of the operation, or no NaN. -/
theorem add_cases (a b : F32) : add a b = nanOf .add a b ∨ isNaN (add a b) = false := by
  by_cases hn : isNaN a = true ∨ isNaN b = true
  · left; unfold add; rcases hn with h | h <;> simp [h]
  · simp only [not_or, Bool.not_eq_true] at hn
    obtain ⟨na, nb⟩ := hn
    rcases isFinite_or_isInf a na with ha | ha <;> rcases isFinite_or_isInf b nb with hb | hb
    · exact .inr (add_finite a b ha hb).1
    · rw [add_inf a b ha hb]; exact .inr nb
    · rw [add_inf_left a b ha hb]; exact .inr na
    · rw [add_inf_inf a b ha hb]
      split
      · exact .inr na
      · exact .inl rfl

/-- What a product can be: the NaN of the operation, or a magnitude with the product of the signs. -/
theorem mul_cases (a b : F32) : mul a b = nanOf .mul a b ∨ ∃ m ≤ infMag, mul a b = ofMag (sign a != sign b) m := by
  unfold mul
  split
  · exact .inl rfl
  · split
    · split
      · exact .inl rfl
      · exact .inr ⟨_, le_rfl, rfl⟩
    · exact .inr ⟨_, roundMag_le_infMag _ _, rfl⟩

/-- What a quotient can be: the NaN of the operation, or a magnitude with the product of the signs. -/
theorem div_cases (a b : F32) : div a b = nanOf .div a b ∨ ∃ m ≤ infMag, div a b = ofMag (sign a != sign b) m := by
  unfold div
  split
  · exact .inl rfl
  · split
    · split
      · exact .inl rfl
      · exact .inr ⟨_, le_rfl, rfl⟩
    · split
      · exact .inr ⟨_, Nat.zero_le _, rfl⟩
      · split
        · split
          · exact .inl rfl
          · exact .inr ⟨_, le_rfl, rfl⟩
        · exact .inr ⟨_, roundMag_le_infMag _ _, rfl⟩

/-- What a remainder can be: the NaN of the operation, or no NaN. -/
theorem fmod_cases (a b : F32) : fmod a b = nanOf .fmod a b ∨ isNaN (fmod a b) = false := by
  unfold fmod
  split
  · exact .inl rfl
  · next h =>
    split
    · simp only [Bool.or_eq_true, not_or, Bool.not_eq_true] at h
      obtain ⟨⟨⟨ha, -⟩, -⟩, -⟩ := h
      exact .inr ha
    · exact .inr (isNaN_ofMag _ _ (roundMag_le_infMag _ _))

theorem isNaN_signed_magnitude {r : F32} {s : Bool} (h : ∃ m ≤ infMag, r = ofMag s m) : isNaN r = false := by
  obtain ⟨m, hm, rfl⟩ := h
  exact isNaN_ofMag s m hm

/-- A NaN that an operation gives is quiet. -/
theorem quiet_of_isNaN {op : FOp} {a b r : F32} (h : r = nanOf op a b ∨ isNaN r = false) (hr : isNaN r = true) :
    r.toNat / 2 ^ 22 % 2 = 1 := by
  rcases h with rfl | h
  · exact quiet_nanOf op a b
  · rw [h] at hr; cases hr

/-- A magnitude that an operation gives has its sign. -/
theorem sign_of_not_isNaN {op : FOp} {a b r : F32} {s : Bool} (h : r = nanOf op a b ∨ ∃ m ≤ infMag, r = ofMag s m)
    (hr : isNaN r = false) : sign r = s := by
  have := infMag_lt
  rcases h with rfl | ⟨m, hm, rfl⟩
  · rw [isNaN_nanOf] at hr; cases hr
  · exact sign_ofMag s m (by omega)

theorem eq_negZero_iff (x : F32) : x = negZero ↔ sign x = true ∧ value x = 0 := by
  constructor
  · rintro rfl; decide
  · rintro ⟨hs, hv⟩
    have hm : mag x = 0 := of_decide_eq_true ((isZero_iff_value x).2 hv)
    rw [← ofMag_sign_mag x, hs, hm]; decide

/-- Two values of one sign whose sum is zero are both zero. -/
theorem value_eq_zero_of_add (a b : F32) (ha : sign a = true) (hb : sign b = true) (h : value a + value b = 0) :
    value a = 0 ∧ value b = 0 := by
  rw [value_eq_signed, value_eq_signed, ha, hb] at *
  simp only [signed, if_true] at *
  omega

/-- An exact zero sum is +0.0 unless both operands are -0.0. -/
theorem add_eq_zero (a b : F32) (ha : isFinite a = true) (hb : isFinite b = true) (h : value a + value b = 0) :
    add a b = if a = negZero ∧ b = negZero then negZero else zero := by
  rw [add_finite_eq a b ha hb, if_pos h]
  by_cases hs : sign a = true ∧ sign b = true
  · obtain ⟨va, vb⟩ := value_eq_zero_of_add a b hs.1 hs.2 h
    rw [if_pos ⟨(eq_negZero_iff a).2 ⟨hs.1, va⟩, (eq_negZero_iff b).2 ⟨hs.2, vb⟩⟩, hs.1, hs.2]; decide
  · rw [if_neg fun hz => hs ⟨((eq_negZero_iff a).1 hz.1).1, ((eq_negZero_iff b).1 hz.2).1⟩,
      Bool.eq_false_iff.2 (mt (Bool.and_eq_true _ _).mp hs)]; decide

theorem sign_add (a b : F32) (ha : isFinite a = true) (hb : isFinite b = true) (h : value a + value b ≠ 0) :
    sign (add a b) = decide (value a + value b < 0) := by
  have := infMag_lt
  have := roundMag_le_infMag (value a + value b).natAbs 1
  rw [add_finite_eq a b ha hb, if_neg h, sign_ofMag _ _ (by omega)]

/-- The sum and the difference with an infinity, one clause per class of the operands. -/
theorem add_sub_infinities (a b : F32) :
    (isInf a = true → isFinite b = true → add a b = a ∧ sub a b = a) ∧
    (isFinite a = true → isInf b = true → add a b = b ∧ sub a b = negate b) ∧
    (isInf a = true → isInf b = true →
      (sign a = sign b → add a b = a ∧ isNaN (sub a b) = true) ∧
      (sign a ≠ sign b → isNaN (add a b) = true ∧ sub a b = a)) := by
  refine ⟨fun ha hb => ⟨add_inf_left a b ha hb, add_inf_left a _ ha (by rwa [isFinite_negate])⟩,
    fun ha hb => ⟨add_inf a b ha hb, add_inf a _ ha (by rwa [isInf_negate])⟩, fun ha hb => ?_⟩
  have hsub := add_inf_inf a (negate b) ha (by rwa [isInf_negate])
  rw [sign_negate] at hsub
  unfold sub
  rw [hsub, add_inf_inf a b ha hb]
  cases sign a <;> cases sign b <;> simp

/-- The finite sums and differences: a zero one, and the sign of any other. -/
theorem add_sub_signs (a b : F32) (ha : isFinite a = true) (hb : isFinite b = true) :
    (value a + value b = 0 → add a b = if a = negZero ∧ b = negZero then negZero else zero) ∧
    (value a + value b ≠ 0 → sign (add a b) = decide (value a + value b < 0)) ∧
    (value a - value b = 0 → sub a b = if a = negZero ∧ b = zero then negZero else zero) ∧
    (value a - value b ≠ 0 → sign (sub a b) = decide (value a - value b < 0)) := by
  have hn : isFinite (negate b) = true := by rwa [isFinite_negate]
  have hz := add_eq_zero a (negate b) ha hn
  have hs := sign_add a (negate b) ha hn
  rw [value_negate, ← Int.sub_eq_add_neg] at hz hs
  simp only [negate_eq_iff, show negate negZero = zero by decide] at hz
  exact ⟨add_eq_zero a b ha hb, sign_add a b ha hb, hz, hs⟩

theorem isInf_infinity (s : Bool) : isInf (ofMag s infMag) = true := by
  unfold isInf; rw [mag_ofMag s _ infMag_lt]; simp

/-- Products with an infinity, and quotients with an infinity or by a zero. -/
theorem mul_div_infinities (a b : F32) (na : isNaN a = false) (nb : isNaN b = false) :
    (isInf a = true ∨ isInf b = true →
      isNaN (mul a b) = (isZero a || isZero b) ∧
      (isZero a = false → isZero b = false → isInf (mul a b) = true)) ∧
    (isInf a = true → isNaN (div a b) = isInf b ∧ (isInf b = false → isInf (div a b) = true)) ∧
    (isFinite a = true → isInf b = true → isZero (div a b) = true) ∧
    (isFinite a = true → isZero b = true → isNaN (div a b) = isZero a ∧
      (isZero a = false → isInf (div a b) = true)) := by
  have hN := fun s => isNaN_ofMag s infMag le_rfl
  refine ⟨fun h => ?_, fun h => ?_, fun ha hb => ?_, fun ha hb => ?_⟩
  · rw [mul_of_isInf a b na nb h]
    cases isZero a <;> cases isZero b <;> simp [hN, isInf_infinity]
  · rw [div_inf_left a b h nb]
    cases isInf b <;> simp [hN, isInf_infinity]
  · rw [div_inf_right a b ha hb]
    unfold isZero; rw [mag_ofMag _ _ (by norm_num)]; rfl
  · rw [div_by_zero a b ha hb]
    cases isZero a <;> simp [hN, isInf_infinity]

/-- A NaN operand gives a NaN, and every NaN is quiet, for all five operations. -/
theorem nan_results (a b : F32) : ∀ r ∈ [add a b, sub a b, mul a b, div a b, fmod a b],
    (isNaN a = true ∨ isNaN b = true → isNaN r = true) ∧ (isNaN r = true → r.toNat / 2 ^ 22 % 2 = 1) := by
  have hfmod : isNaN a = true ∨ isNaN b = true → isNaN (fmod a b) = true := fun h =>
    isNaN_fmod a b (h.elim .inl fun hb => .inr (.inl hb))
  simp only [List.forall_mem_cons]
  exact ⟨⟨isNaN_add a b, quiet_of_isNaN (add_cases a b)⟩,
    ⟨isNaN_sub a b, quiet_of_isNaN (add_cases a (negate b))⟩,
    ⟨isNaN_mul a b, quiet_of_isNaN ((mul_cases a b).imp_right isNaN_signed_magnitude)⟩,
    ⟨isNaN_div a b, quiet_of_isNaN ((div_cases a b).imp_right isNaN_signed_magnitude)⟩,
    ⟨hfmod, quiet_of_isNaN (fmod_cases a b)⟩, List.forall_mem_nil _⟩

/-- Settles O58, clause by clause from the answers of each operation by the classes of its operands. -/
theorem specialOperandsFollowIEEE : Obligations.SpecialOperandsFollowIEEE := fun a b =>
  have ⟨hkeep, hkept, hboth⟩ := add_sub_infinities a b
  ⟨nan_results a b, hkeep, hkept, hboth, add_sub_signs a b, sign_of_not_isNaN (mul_cases a b),
    sign_of_not_isNaN (div_cases a b), mul_div_infinities a b⟩

/-! ### Comparisons and the clamp -/

/-- A comparison with a NaN operand is false. -/
theorem comparisons_of_isNaN (a b : F32) (h : isNaN a = true ∨ isNaN b = true) :
    lt a b = false ∧ le a b = false ∧ gt a b = false ∧ ge a b = false ∧ eq a b = false := by
  unfold gt ge lt le eq
  rcases h with h | h <;> simp [h]

/-- The infinities lie beyond every finite value. -/
theorem finite_between_infinities (a : F32) (ha : isFinite a = true) :
    lt a 0x7F800000#32 = true ∧ lt 0xFF800000#32 a = true := by
  have hpos : value 0x7F800000#32 = magValue infMag := by decide +kernel
  have hneg : value 0xFF800000#32 = -magValue infMag := by decide +kernel
  have hn := ((isFinite_iff a).1 ha).1
  have hmag : magValue (mag a) < magValue infMag := magValue_strictMono (of_decide_eq_true ha)
  have habs := natAbs_value a
  rw [lt_iff, lt_iff, hpos, hneg]
  exact ⟨⟨hn, by decide, by omega⟩, by decide, hn, by omega⟩

/-- Settles O59 by the comparisons' own equivalences. -/
theorem comparisonsFollowIEEE : Obligations.ComparisonsFollowIEEE := fun a b =>
  ⟨comparisons_of_isNaN a b,
    fun na nb => by
      unfold gt ge
      simp only [lt_iff, le_iff, eq_iff, na, nb, true_and, and_self],
    by decide, finite_between_infinities a⟩

/-- What is in a range is passed by neither bound. -/
theorem not_passed_of_inRange (x lo hi : F32) (h : Machine.inRange lo hi x = true) :
    lt x lo = false ∧ gt x hi = false := by
  obtain ⟨hlo, hhi⟩ := (Bool.and_eq_true _ _).mp h
  obtain ⟨-, -, hlo⟩ := (le_iff _ _).1 hlo
  obtain ⟨-, -, hhi⟩ := (le_iff _ _).1 hhi
  unfold gt lt
  simp only [Bool.and_eq_false_iff, decide_eq_false_iff_not]
  exact ⟨.inr (by omega), .inr (by omega)⟩

/-- Above the upper bound of bounds in order is not below the lower one. -/
theorem not_lt_of_gt (x lo hi : F32) (h : le lo hi = true) (hgt : gt x hi = true) : lt x lo = false := by
  obtain ⟨-, -, hle⟩ := (le_iff _ _).1 h
  obtain ⟨-, -, hlt⟩ := (lt_iff _ _).1 hgt
  unfold lt
  simp only [Bool.and_eq_false_iff, decide_eq_false_iff_not]
  exact .inr (by omega)

/-- Settles O43 by the two comparisons of the clamp. -/
theorem clampKeepsTheRange : Obligations.ClampKeepsTheRange := by
  intro x lo hi hx h
  refine ⟨(Bool.and_eq_true _ _).mpr (clamp_between x lo hi hx h), fun hin => ?_, fun hlt => ?_, fun hgt => ?_,
    by decide⟩
  · obtain ⟨hlo, hhi⟩ := not_passed_of_inRange x lo hi hin
    unfold clamp; simp [hlo, hhi]
  · unfold clamp; simp [hlt]
  · unfold clamp; simp [not_lt_of_gt x lo hi h hgt, hgt]

end Sys2Proof.F32

namespace Sys2Proof.Machine

/-- The output transfer after an instruction. -/
def outAfter (s : State) : Instr → Option F32
  | .sample => some (s.voices.mix s.cfg s.noiseTick)
  | _ => none

/-- SAMPLE leaves the sum of the voices on the output, every other instruction ends as a command and leaves nothing. -/
theorem exec_out (i : Instr) (s : State) : ∃ t, exec i s = .next t ∧ t.out = outAfter s i := by
  have command : ∀ vs, ∃ t, Host.Outcome.next (φ := Fault) (ρ := Refusal) (s.command vs) = .next t ∧ t.out = none :=
    fun vs => ⟨_, rfl, State.command_out s vs⟩
  cases i
  case sample => exact ⟨s.sample, rfl, State.sample_out s⟩
  all_goals exact command _

/-- Settles O11: of the output transfers after each instruction only that of SAMPLE is one. -/
theorem onlySampleProducesOutput : Obligations.OnlySampleProducesOutput := by
  intro i s
  obtain ⟨t, ht, hout⟩ := exec_out i s
  refine ⟨t, ht, ?_⟩
  rw [hout]
  cases i <;> simp [outAfter]

end Sys2Proof.Machine

/-! SUPPORT. The invariants of the state (R24 to R30). Everything a step can do is said once, for the pool and then for
one voice of it; each invariant of a voice is a small case split over that, and the whole invariant is put together from
them. -/

namespace Sys2Proof.Machine

/-! ### What an instruction leaves of the pool -/

/-- An instruction is a note command, a parameter broadcast or SAMPLE, and leaves the pool that one leaves. -/
theorem poolAfter_cases (s : State) (i : Instr) :
    (∃ n, i = .noteOn n ∧ poolAfter s i = s.voices.noteOn s.cfg n) ∨
    (∃ n, i = .noteOff n ∧ poolAfter s i = s.voices.noteOff n) ∨
    (∃ p, poolAfter s i = s.voices.applyParam s.cfg p) ∨
    (i = .sample ∧ poolAfter s i = s.voices.advance s.cfg s.noiseTick) := by
  cases i
  case noteOn n => exact .inl ⟨n, rfl, rfl⟩
  case noteOff n => exact .inr (.inl ⟨n, rfl, rfl⟩)
  case sample => exact .inr (.inr (.inr ⟨rfl, rfl⟩))
  all_goals exact .inr (.inr (.inl ⟨_, rfl⟩))

/-- The state an instruction answers has the pool after it, under the same configuration. -/
theorem exec_voices {i : Instr} {s t : State} (h : exec i s = .next t) :
    t.voices = poolAfter s i ∧ t.cfg = s.cfg := by
  obtain ⟨u, hu, hv, -, hc⟩ := exec_spec i s
  obtain rfl : u = t := Host.Outcome.next.inj (hu.symm.trans h)
  exact ⟨hv, hc⟩

theorem exec_sample (s : State) : exec .sample s = .next s.sample := rfl

/-- Replacing one voice relates every voice to itself, if it so relates the one replaced. -/
theorem Pool.put_rel {R : Voice → Voice → Prop} (hrefl : ∀ v, R v v) (vs : Pool) (i : VoiceIx) (w : Voice)
    (h : R (vs.voice i) w) (j : VoiceIx) : R (vs.voice j) ((vs.put i w).voice j) := by
  by_cases hj : j = i
  · subst hj; rwa [Pool.put_same]
  · rw [Pool.put_other vs i j w hj]; exact hrefl _

/-! ### Everything a step can do -/

/-- A voice that takes note `n`: what NOTE_ON makes of the first free voice (R108, R113). -/
def Voice.allocate (c : Config) (n : Note) (v : Voice) : Voice :=
  { v with osc := v.osc.setFrequency (noteFreq c n), env := v.env.trigger, active := true, note := some n }

@[simp] theorem Voice.allocate_note (c : Config) (n : Note) (v : Voice) : (v.allocate c n).note = some n := rfl
@[simp] theorem Voice.allocate_osc (c : Config) (n : Note) (v : Voice) :
    (v.allocate c n).osc = v.osc.setFrequency (noteFreq c n) := rfl
@[simp] theorem Voice.allocate_env (c : Config) (n : Note) (v : Voice) : (v.allocate c n).env = v.env.trigger := rfl
@[simp] theorem Voice.allocate_flt (c : Config) (n : Note) (v : Voice) : (v.allocate c n).flt = v.flt := rfl

/-- Everything a step can do to the pool: keep it, construct it anew (R153), retrigger, allocate or release one voice
(R113, R115), broadcast a parameter (R118), or process every voice (R117). -/
inductive PoolChange (c : Config) (vs : Pool) : Pool → Prop
  | keep : PoolChange c vs vs
  | construct : PoolChange c vs (Pool.build fun _ => Voice.construct c)
  | retrigger (i : VoiceIx) (h : (vs.voice i).active = true) :
      PoolChange c vs (vs.put i { vs.voice i with env := (vs.voice i).env.trigger })
  | allocate (n : Note) (i : VoiceIx) (hn : vs.holder n = none) (h : (vs.voice i).active = false) :
      PoolChange c vs (vs.put i ((vs.voice i).allocate c n))
  | release (i : VoiceIx) (h : (vs.voice i).active = true) :
      PoolChange c vs (vs.put i { vs.voice i with env := (vs.voice i).env.release })
  | param (p : Param) : PoolChange c vs (vs.applyParam c p)
  | sample (t : Nat) : PoolChange c vs (vs.advance c t)

theorem Pool.holder_active {vs : Pool} {n : Note} {i : VoiceIx} (h : vs.holder n = some i) :
    (vs.voice i).active = true :=
  ((Voice.holds_iff _ _).1 ((vs.holder_some n i).1 h).1).1

theorem Pool.noteOn_change (c : Config) (vs : Pool) (n : Note) : PoolChange c vs (vs.noteOn c n) := by
  rcases vs.noteOn_cases c n with ⟨i, hi, h⟩ | ⟨i, hn, hi, h⟩ | ⟨-, -, h⟩ <;> rw [h]
  · exact .retrigger i (Pool.holder_active hi)
  · exact .allocate n i hn ((vs.firstFree_some i).1 hi).1
  · exact .keep

theorem Pool.noteOff_change (c : Config) (vs : Pool) (n : Note) : PoolChange c vs (vs.noteOff n) := by
  rcases vs.noteOff_cases n with ⟨i, hi, h⟩ | ⟨-, h⟩ <;> rw [h]
  · exact .release i (Pool.holder_active hi)
  · exact .keep

theorem poolAfter_change (s : State) (i : Instr) : PoolChange s.cfg s.voices (poolAfter s i) := by
  rcases poolAfter_cases s i with ⟨n, -, h⟩ | ⟨n, -, h⟩ | ⟨p, h⟩ | ⟨-, h⟩ <;> rw [h]
  · exact Pool.noteOn_change _ _ n
  · exact Pool.noteOff_change _ _ n
  · exact .param p
  · exact .sample _

/-- A step keeps the configuration and leaves a pool that one of these changes leaves. -/
theorem step_change {s t : State} (h : step s = .next t) :
    t.cfg = s.cfg ∧ PoolChange s.cfg s.voices t.voices := by
  rcases step_cases s with ⟨-, hs⟩ | ⟨rest, -, hs⟩ | ⟨w, rest, e, -, -, hs⟩ | ⟨w, rest, i, -, -, hs⟩ <;> rw [hs] at h
  · cases h; exact ⟨rfl, .keep⟩
  · cases h; exact ⟨rfl, .construct⟩
  · cases h; exact ⟨rfl, .keep⟩
  · obtain ⟨hv, hc⟩ := exec_voices h
    rw [hv]
    exact ⟨hc, poolAfter_change { s with inbox := rest } i⟩

/-- Everything a step can do to a voice, the ways to leave it as it is among them in `keep`. -/
inductive VoiceChange (c : Config) (v : Voice) : Voice → Prop
  | keep : VoiceChange c v v
  | construct : VoiceChange c v (Voice.construct c)
  | retrigger (h : v.active = true) : VoiceChange c v { v with env := v.env.trigger }
  | allocate (n : Note) (h : v.active = false) : VoiceChange c v (v.allocate c n)
  | release (h : v.active = true) : VoiceChange c v { v with env := v.env.release }
  | attackTime (x : F32) (hx : F32.isNaN x = false) : VoiceChange c v { v with env := v.env.setAttackTime x }
  | decayTime (x : F32) (hx : F32.isNaN x = false) : VoiceChange c v { v with env := v.env.setDecayTime x }
  | releaseTime (x : F32) (hx : F32.isNaN x = false) : VoiceChange c v { v with env := v.env.setReleaseTime x }
  | sustain (x : F32) (hx : F32.isNaN x = false) : VoiceChange c v { v with env := v.env.setSustain x }
  | waveform (w : Waveform) : VoiceChange c v { v with osc := v.osc.setWaveform w }
  | mode (m : FilterMode) : VoiceChange c v { v with flt := v.flt.setMode m }
  | cutoff (x : F32) (hx : F32.isNaN x = false) :
      VoiceChange c v { v with flt := { v.flt with
        cutoff := F32.clamp x Config.cMin Config.cMax
        feedback := feedbackOf c (F32.clamp x Config.cMin Config.cMax) v.flt.resonance } }
  | resonance (x : F32) (hx : F32.isNaN x = false) :
      VoiceChange c v { v with flt := { v.flt with
        resonance := F32.clamp x F32.zero F32.one
        feedback := feedbackOf c v.flt.cutoff (F32.clamp x F32.zero F32.one) } }
  | rate (x : F32) (hx : F32.isRate x = true) :
      VoiceChange c v { v.reset with
        osc := { v.osc.reset with sampleRate := x }
        env := { v.env.reset with
          sampleRate := x
          attackRate := F32.mul v.env.attackTime x
          decayRate := F32.mul v.env.decayTime x
          releaseRate := F32.mul v.env.releaseTime x } }
  | deactivate (ha : v.active = true) (hi : v.env.stage = .idle) : VoiceChange c v v.deactivate
  | sound (d : F32) (ha : v.active = true) (hi : v.env.stage ≠ .idle) : VoiceChange c v (v.sound c d).1

theorem Voice.setStageValue_change (c : Config) (v : Voice) (st : Stage) (x : F32) :
    VoiceChange c v { v with env := v.env.setStageValue st x } := by
  unfold Env.setStageValue
  split
  · exact .keep
  · next hnan =>
    have hx : F32.isNaN x = false := by simpa using hnan
    cases st with
    | idle => exact .keep
    | attack => exact .attackTime x hx
    | decay => exact .decayTime x hx
    | sustain => exact .sustain x hx
    | release => exact .releaseTime x hx

/-- A rate is greater than 0.0, so both `set_sample_rate` operations take it (R75, R92, R111). -/
theorem Voice.applySampleRate_change (c : Config) (v : Voice) (x : F32) : VoiceChange c v (v.applySampleRate x) := by
  unfold Voice.applySampleRate
  split
  · next hx =>
    have hpos : F32.gt x F32.zero = true := ((Bool.and_eq_true _ _).mp hx).2
    unfold Osc.setSampleRate Env.setSampleRate
    rw [if_pos hpos, if_pos hpos]
    exact .rate x hx
  · exact .keep

theorem Voice.applyParam_change (c : Config) (v : Voice) (p : Param) : VoiceChange c v (v.applyParam c p) := by
  cases p with
  | envelopeStage st x => exact v.setStageValue_change c st x
  | waveform w => exact .waveform w
  | filterMode m => exact .mode m
  | cutoff x =>
    simp only [Voice.applyParam, Flt.setCutoff]
    split
    · exact .keep
    · next hx => exact .cutoff x (by simpa using hx)
  | resonance x =>
    simp only [Voice.applyParam, Flt.setResonance]
    split
    · exact .keep
    · next hx => exact .resonance x (by simpa using hx)
  | sampleRate x => exact v.applySampleRate_change c x

theorem Voice.process_change (c : Config) (d : F32) (v : Voice) : VoiceChange c v (v.process c d).1 := by
  rcases v.process_cases c d with ⟨-, h⟩ | ⟨ha, hi, h⟩ | ⟨ha, hi, h⟩ <;> rw [h]
  · exact .keep
  · exact .deactivate ha hi
  · exact .sound d ha hi

/-- What a step does to the pool, seen from one voice. -/
theorem PoolChange.voice {c : Config} {vs ws : Pool} (h : PoolChange c vs ws) (i : VoiceIx) :
    VoiceChange c (vs.voice i) (ws.voice i) := by
  have put : ∀ j w, VoiceChange c (vs.voice j) w → VoiceChange c (vs.voice i) ((vs.put j w).voice i) :=
    fun j w hw => Pool.put_rel (fun _ => .keep) vs j w hw i
  cases h with
  | keep => exact .keep
  | construct => rw [Pool.build_get]; exact .construct
  | retrigger j h => exact put j _ (.retrigger h)
  | allocate n j hn h => exact put j _ (.allocate n h)
  | release j h => exact put j _ (.release h)
  | param p => rw [Pool.applyParam_get]; exact Voice.applyParam_change c _ p
  | sample t => rw [Pool.advance_get]; exact Voice.process_change c _ _

/-- What every change keeps of a voice, every step keeps of every voice. -/
theorem step_keeps_voices {P : Voice → Prop} {s t : State} (h : step s = .next t)
    (keeps : ∀ v w, VoiceChange s.cfg v w → P v → P w) (hs : ∀ i, P (s.voices.voice i)) (i : VoiceIx) :
    P (t.voices.voice i) :=
  keeps _ _ ((step_change h).2.voice i) (hs i)

theorem State.reset_voice (i : VoiceIx) : State.reset.voices.voice i = Voice.construct Config.default := by
  simp [State.reset, Pool.voice]

/-! ### Registers of one voice

Each invariant of R24 to R30 that speaks of one voice, and that every change of the voice keeps it. -/

/-- R24 of one voice. -/
def Voice.NoteAgrees (v : Voice) : Prop := (∃ n, v.note = some n) ↔ v.active = true

theorem Voice.construct_noteAgrees (c : Config) : (Voice.construct c).NoteAgrees :=
  ⟨nofun, nofun⟩

theorem VoiceChange.noteAgrees {c : Config} {v w : Voice} (h : VoiceChange c v w) (hv : v.NoteAgrees) :
    w.NoteAgrees := by
  cases h with
  | construct => exact Voice.construct_noteAgrees c
  | allocate n _ => exact ⟨fun _ => rfl, fun _ => ⟨n, rfl⟩⟩
  | rate _ _ | deactivate _ _ => exact ⟨nofun, nofun⟩
  | _ => exact hv

/-- R29 of one envelope. -/
def Env.RatesFit (e : Env) : Prop :=
  e.attackRate = F32.mul e.attackTime e.sampleRate ∧ e.decayRate = F32.mul e.decayTime e.sampleRate ∧
    e.releaseRate = F32.mul e.releaseTime e.sampleRate

theorem Voice.construct_ratesFit (c : Config) : (Voice.construct c).env.RatesFit := ⟨rfl, rfl, rfl⟩

theorem VoiceChange.ratesFit {c : Config} {v w : Voice} (h : VoiceChange c v w) (hv : v.env.RatesFit) :
    w.env.RatesFit := by
  obtain ⟨ha, hd, hr⟩ := hv
  cases h with
  | construct | rate _ _ => exact ⟨rfl, rfl, rfl⟩
  | attackTime x _ => exact ⟨rfl, hd, hr⟩
  | decayTime x _ => exact ⟨ha, rfl, hr⟩
  | releaseTime x _ => exact ⟨ha, hd, rfl⟩
  | sound d _ _ => simpa [Env.RatesFit] using ⟨ha, hd, hr⟩
  | _ => exact ⟨ha, hd, hr⟩

/-- R28 of one filter. -/
def Flt.CoefficientsFit (c : Config) (f : Flt) : Prop :=
  inRange Config.cMin Config.cMax f.cutoff = true ∧ inRange F32.zero F32.one f.resonance = true ∧
    f.feedback = feedbackOf c f.cutoff f.resonance

/-- A clamped operand is in the range of its bounds. -/
theorem inRange_clamp (x lo hi : F32) (hx : F32.isNaN x = false) (h : F32.le lo hi = true) :
    inRange lo hi (F32.clamp x lo hi) = true :=
  (inRange_iff _ _ _).2 (F32.clamp_between x lo hi hx h)

theorem Voice.construct_coefficientsFit {c : Config} (hc : LegalConfig c) : (Voice.construct c).flt.CoefficientsFit c :=
  ⟨hc.cutoff, hc.resonance, rfl⟩

@[simp] theorem Voice.sound_flt (c : Config) (d : F32) (v : Voice) :
    (v.sound c d).1.flt = (v.flt.process (F32.mul (v.osc.tick c d).2 v.env.process.level)).1 := rfl

theorem VoiceChange.coefficientsFit {c : Config} {v w : Voice} (hc : LegalConfig c) (h : VoiceChange c v w)
    (hv : v.flt.CoefficientsFit c) : w.flt.CoefficientsFit c := by
  obtain ⟨hcut, hres, hfb⟩ := hv
  cases h with
  | construct => exact Voice.construct_coefficientsFit hc
  | cutoff x hx => exact ⟨inRange_clamp x _ _ hx (by decide +kernel), hres, rfl⟩
  | resonance x hx => exact ⟨hcut, inRange_clamp x _ _ hx (by decide +kernel), rfl⟩
  | sound d _ _ => simpa [Flt.CoefficientsFit] using ⟨hcut, hres, hfb⟩
  | _ => exact ⟨hcut, hres, hfb⟩

/-- The feedback that R28 gives lies in [0, FB_MAX] (R23, R99). -/
theorem Flt.CoefficientsFit.feedback_inRange {c : Config} {f : Flt} (hc : LegalConfig c) (h : f.CoefficientsFit c) :
    inRange F32.zero c.fbMax f.feedback = true := by
  obtain ⟨hcut, hres, hfb⟩ := h
  obtain ⟨hcut0, hcut1⟩ := (inRange_iff _ _ _).1 hcut
  obtain ⟨hres0, hres1⟩ := (inRange_iff _ _ _).1 hres
  rw [hfb]
  exact (inRange_iff _ _ _).2 (feedbackOf_range c _ _ hcut0 hcut1 hres0 hres1 hc.fbMax)

/-- The oscillator and the envelope of a voice have the same sample rate (R30). -/
def Voice.OneSampleRate (v : Voice) : Prop := v.osc.sampleRate = v.env.sampleRate

theorem VoiceChange.oneSampleRate {c : Config} {v w : Voice} (h : VoiceChange c v w) (hv : v.OneSampleRate) :
    w.OneSampleRate := by
  cases h with
  | construct | rate _ _ => rfl
  | allocate n _ => exact (Osc.setFrequency_sampleRate _ _).trans hv
  | sound d _ _ => exact hv.trans (Env.process_sampleRate _).symm
  | _ => exact hv

/-- The legal values of the registers of a voice (R21, R22). -/
structure Voice.RegistersLegal (v : Voice) : Prop where
  oscRate : F32.isRate v.osc.sampleRate = true
  envRate : F32.isRate v.env.sampleRate = true
  attack  : inRange Config.tMin Config.tMax v.env.attackTime = true
  decay   : inRange Config.tMin Config.tMax v.env.decayTime = true
  release : inRange Config.tMin Config.tMax v.env.releaseTime = true
  sustain : inRange F32.zero F32.one v.env.sustainLevel = true

theorem Voice.construct_registersLegal {c : Config} (hc : LegalConfig c) : (Voice.construct c).RegistersLegal :=
  ⟨hc.rate, hc.rate, hc.attack, hc.decay, hc.release, hc.sustain⟩

theorem clampTime_inRange (x : F32) (hx : F32.isNaN x = false) :
    inRange Config.tMin Config.tMax (clampTime x) = true :=
  inRange_clamp x _ _ hx (by decide +kernel)

theorem VoiceChange.registersLegal {c : Config} {v w : Voice} (hc : LegalConfig c) (h : VoiceChange c v w)
    (hv : v.RegistersLegal) : w.RegistersLegal := by
  cases h with
  | construct => exact Voice.construct_registersLegal hc
  | allocate n _ => exact { hv with oscRate := by simpa using hv.oscRate }
  | attackTime x hx => exact { hv with attack := clampTime_inRange x hx }
  | decayTime x hx => exact { hv with decay := clampTime_inRange x hx }
  | releaseTime x hx => exact { hv with release := clampTime_inRange x hx }
  | sustain x hx => exact { hv with sustain := inRange_clamp x _ _ hx (by decide +kernel) }
  | rate x hx => exact { hv with oscRate := hx, envRate := hx }
  | sound d _ _ =>
    obtain ⟨hosc, henv, ha, hd, hr, hs⟩ := hv
    constructor <;> simpa
  | _ => exact ⟨hv.oscRate, hv.envRate, hv.attack, hv.decay, hv.release, hv.sustain⟩

/-- R27 of one voice. -/
def Voice.FrequencyFits (v : Voice) : Prop :=
  F32.isFinite v.osc.frequency = true ∧ F32.ge v.osc.frequency F32.zero = true ∧
    (v.active = true → F32.le v.osc.frequency (F32.div v.osc.sampleRate 0x40000000#32) = true)

theorem Voice.construct_frequencyFits (c : Config) : (Voice.construct c).FrequencyFits :=
  ⟨(by decide : F32.isFinite F32.zero = true), (by decide : F32.ge F32.zero F32.zero = true), nofun⟩

/-- Only an allocation writes a frequency, and it clamps it; an accepted rate leaves no voice active, so it may be below
twice a stored frequency (R27). -/
theorem VoiceChange.frequencyFits {c : Config} {v w : Voice} (hc : LegalConfig c) (h : VoiceChange c v w)
    (hl : v.RegistersLegal) (hv : v.FrequencyFits) : w.FrequencyFits := by
  cases h with
  | construct => exact Voice.construct_frequencyFits c
  | allocate n _ =>
    have hnum : F32.isNaN (noteFreq c n) = false := ((F32.isFinite_iff _).1 (hc.pitch n).1).1
    obtain ⟨hfin, hlow, hhigh⟩ := v.osc.setFrequency_range (noteFreq c n) hnum hl.oscRate
    exact ⟨hfin, hlow, fun _ => by simpa using hhigh⟩
  | rate _ _ | deactivate _ _ =>
    obtain ⟨hfin, hlow, -⟩ := hv
    exact ⟨hfin, hlow, nofun⟩
  | _ => exact hv

/-- R26 of one voice. -/
def Voice.LevelPhaseFit (v : Voice) : Prop :=
  inRange F32.zero F32.one v.env.level = true ∧ F32.le F32.zero v.osc.phase = true ∧
    F32.lt v.osc.phase F32.one = true

/-- A voice whose level and phase are 0.0 meets R26. -/
theorem Voice.levelPhaseFit_of_zero {v : Voice} (hl : v.env.level = F32.zero) (hp : v.osc.phase = F32.zero) :
    v.LevelPhaseFit := by
  unfold Voice.LevelPhaseFit
  rw [hl, hp]
  decide +kernel

/-- The steps of an envelope with legal times and rates keep its level in range. -/
theorem Voice.RegistersLegal.process_level {v : Voice} (hl : v.RegistersLegal) (hr : v.env.RatesFit)
    (h : inRange F32.zero F32.one v.env.level = true) : inRange F32.zero F32.one v.env.process.level = true := by
  obtain ⟨ha, hd, hrel⟩ := hr
  apply v.env.process_level h hl.sustain
  · rw [ha]; exact rampStep_plus _ _ hl.attack hl.envRate
  · rw [hd]; exact rampStep_plus _ _ hl.decay hl.envRate
  · rw [hrel]; exact rampStep_plus _ _ hl.release hl.envRate

theorem VoiceChange.levelPhaseFit {c : Config} {v w : Voice} (h : VoiceChange c v w) (hl : v.RegistersLegal)
    (hr : v.env.RatesFit) (hf : v.FrequencyFits) (hv : v.LevelPhaseFit) : w.LevelPhaseFit := by
  cases h with
  | construct | rate _ _ => exact Voice.levelPhaseFit_of_zero rfl rfl
  | allocate n _ =>
    obtain ⟨hlev, hlow, hhigh⟩ := hv
    exact ⟨hlev, by simpa using hlow, by simpa using hhigh⟩
  | sound d ha _ =>
    obtain ⟨hlev, hlow, hhigh⟩ := hv
    obtain ⟨-, hf0, hf1⟩ := hf
    exact ⟨hl.process_level hr hlev, v.osc.advance_phase hlow hhigh hl.oscRate hf0 (hf1 ha)⟩
  | _ => exact hv

/-- An inactive voice is idle and an idle one silent (R86, R108). -/
def Voice.IdleSilent (v : Voice) : Prop :=
  (v.active = false → v.env.stage = .idle) ∧ (v.env.stage = .idle → v.env.level = F32.zero)

/-- An active voice in another stage than Idle is under neither clause. -/
theorem Voice.idleSilent_of_running {v : Voice} (ha : v.active = true) (hs : v.env.stage ≠ .idle) : v.IdleSilent :=
  ⟨fun h => absurd (ha.symm.trans h) nofun, fun h => absurd h hs⟩

theorem VoiceChange.idleSilent {c : Config} {v w : Voice} (h : VoiceChange c v w) (hv : v.IdleSilent) :
    w.IdleSilent := by
  cases h with
  | construct | rate _ _ => exact ⟨fun _ => rfl, fun _ => rfl⟩
  | retrigger ha | release ha => exact Voice.idleSilent_of_running ha nofun
  | allocate n _ => exact Voice.idleSilent_of_running rfl nofun
  | deactivate _ hi => exact ⟨fun _ => hi, hv.2⟩
  | sound d ha _ => exact ⟨fun h => absurd (ha.symm.trans h) nofun, v.env.process_idle hv.2⟩
  | _ => exact hv

/-! ### Notes and parameters across the pool -/

theorem Voice.holds_of_applyParam {c : Config} {v : Voice} {p : Param} {n : Note}
    (h : (v.applyParam c p).holds n = true) : v.holds n = true := by
  cases p with
  | sampleRate x =>
    simp only [Voice.applyParam, Voice.applySampleRate] at h
    split at h
    · cases h
    · exact h
  | _ => exact h

theorem Voice.holds_of_process {c : Config} {d : F32} {v : Voice} {n : Note}
    (h : (v.process c d).1.holds n = true) : v.holds n = true := by
  rcases v.process_cases c d with ⟨-, hp⟩ | ⟨-, -, hp⟩ | ⟨-, -, hp⟩ <;> rw [hp] at h
  · exact h
  · cases h
  · exact h

/-- A change gives a voice a note it did not hold only by an allocation, and then no voice held that note. -/
theorem PoolChange.holders {c : Config} {vs ws : Pool} (h : PoolChange c vs ws) :
    (∀ i n, (ws.voice i).holds n = true → (vs.voice i).holds n = true) ∨
    ∃ n k, vs.holder n = none ∧ (ws.voice k).note = some n ∧ ∀ i, i ≠ k → ws.voice i = vs.voice i := by
  have put : ∀ k w, (∀ n, w.holds n = true → (vs.voice k).holds n = true) →
      ∀ i n, ((vs.put k w).voice i).holds n = true → (vs.voice i).holds n = true := fun k w hw =>
    Pool.put_rel (R := fun v w => ∀ n, w.holds n = true → v.holds n = true) (fun _ _ => id) vs k w hw
  cases h with
  | keep => exact .inl fun _ _ => id
  | construct => exact .inl fun i n h => by rw [Pool.build_get] at h; cases h
  | retrigger k _ | release k _ => exact .inl (put k _ fun _ => id)
  | allocate n k hn _ =>
    exact .inr ⟨n, k, hn, by rw [Pool.put_same, Voice.allocate_note], fun i hi => Pool.put_other vs k i _ hi⟩
  | param p => exact .inl fun i n h => Voice.holds_of_applyParam (by rwa [Pool.applyParam_get] at h)
  | sample t => exact .inl fun i n h => Voice.holds_of_process (by rwa [Pool.advance_get] at h)

theorem step_uniqueNotes {s t : State} (h : step s = .next t) (hs : UniqueNotes s) : UniqueNotes t := by
  rcases (step_change h).2.holders with hkept | ⟨m, k, hfree, hk, hother⟩
  · exact fun n i j hi hj => hs n i j (hkept i n hi) (hkept j n hj)
  · -- the allocated voice is the only holder of its note
    have only : ∀ j, (t.voices.voice j).holds m = true → j = k := fun j hj => by
      by_contra hne
      rw [hother j hne, (Pool.holder_none _ _).1 hfree j] at hj
      cases hj
    intro n i j hi hj
    by_cases hn : n = m
    · subst hn; exact (only i hi).trans (only j hj).symm
    · have old : ∀ l, (t.voices.voice l).holds n = true → (s.voices.voice l).holds n = true := fun l hl => by
        have hlk : l ≠ k := by
          rintro rfl
          exact hn (Option.some.inj (((Voice.holds_iff _ _).1 hl).2.symm.trans hk))
        rwa [← hother l hlk]
      exact hs n i j (old i hi) (old j hj)

/-! ### Parameter registers across the pool -/

/-- The parameter registers that a broadcast leaves depend on those it found, and on no other register. -/
theorem Voice.applyParam_params_congr (c : Config) (p : Param) {v w : Voice} (h : v.params = w.params) :
    (v.applyParam c p).params = (w.applyParam c p).params := by
  obtain ⟨va, vn, ⟨_, vf, vp, _⟩, ⟨_, _, _, _, _, _, _, _, vl, vs⟩, ⟨_, _, _, _, v0, v1, v2, v3⟩⟩ := v
  obtain ⟨wa, wn, ⟨_, wf, wp, _⟩, ⟨_, _, _, _, _, _, _, _, wl, ws⟩, ⟨_, _, _, _, w0, w1, w2, w3⟩⟩ := w
  simp only [Voice.params, Params.mk.injEq] at h
  obtain ⟨rfl, rfl, rfl, rfl, rfl, rfl, rfl, rfl, rfl, rfl, rfl, rfl, rfl, rfl⟩ := h
  cases p with
  | envelopeStage st x =>
    simp only [Voice.applyParam, Env.setStageValue]
    split
    · rfl
    · cases st <;> rfl
  | waveform _ | filterMode _ => rfl
  | cutoff x =>
    simp only [Voice.applyParam, Flt.setCutoff]
    split <;> rfl
  | resonance x =>
    simp only [Voice.applyParam, Flt.setResonance]
    split <;> rfl
  | sampleRate x =>
    simp only [Voice.applyParam, Voice.applySampleRate, Env.setSampleRate, Osc.setSampleRate]
    split
    · split <;> rfl
    · rfl

/-- An allocation writes no parameter register (R21, R35). -/
@[simp] theorem Voice.allocate_params (c : Config) (n : Note) (v : Voice) :
    (v.allocate c n).params = v.params := by
  simp [Voice.params, Env.trigger]

/-- Replacing a voice by one with the same parameter registers writes no parameter register. -/
theorem Pool.put_params (vs : Pool) (k : VoiceIx) (w : Voice) (h : w.params = (vs.voice k).params) (i : VoiceIx) :
    ((vs.put k w).voice i).params = (vs.voice i).params :=
  Pool.put_rel (R := fun v w => w.params = v.params) (fun _ => rfl) vs k w h i

/-- A change keeps every parameter register, constructs every voice, or broadcasts a parameter. -/
theorem PoolChange.params {c : Config} {vs ws : Pool} (h : PoolChange c vs ws) :
    (∀ i, (ws.voice i).params = (vs.voice i).params) ∨ (∀ i, ws.voice i = Voice.construct c) ∨
    ∃ p, ∀ i, ws.voice i = (vs.voice i).applyParam c p := by
  cases h with
  | keep => exact .inl fun _ => rfl
  | construct => exact .inr (.inl fun i => Pool.build_get _ i)
  | retrigger k _ | release k _ => exact .inl (Pool.put_params vs k _ rfl)
  | allocate n k _ _ => exact .inl (Pool.put_params vs k _ (Voice.allocate_params c n _))
  | param p => exact .inr (.inr ⟨p, fun i => Pool.applyParam_get c vs p i⟩)
  | sample t => exact .inl fun i => by rw [Pool.advance_get, Voice.process_params]

theorem step_params_eq {s t : State} (h : step s = .next t)
    (hs : ∀ i j, (s.voices.voice i).params = (s.voices.voice j).params) (i j : VoiceIx) :
    (t.voices.voice i).params = (t.voices.voice j).params := by
  rcases (step_change h).2.params with hkept | hnew | ⟨p, hp⟩
  · rw [hkept, hkept, hs i j]
  · rw [hnew, hnew]
  · rw [hp, hp]
    exact Voice.applyParam_params_congr s.cfg p (hs i j)

/-! ### The whole invariant -/

/-- The part of the invariant that speaks of one voice. -/
structure Voice.Fits (c : Config) (v : Voice) : Prop where
  note        : v.NoteAgrees
  rates       : v.env.RatesFit
  coefficient : v.flt.CoefficientsFit c
  sampleRate  : v.OneSampleRate
  legal       : v.RegistersLegal
  frequency   : v.FrequencyFits
  levelPhase  : v.LevelPhaseFit
  idle        : v.IdleSilent

theorem VoiceChange.fits {c : Config} {v w : Voice} (hc : LegalConfig c) (h : VoiceChange c v w) (hv : v.Fits c) :
    w.Fits c where
  note := h.noteAgrees hv.note
  rates := h.ratesFit hv.rates
  coefficient := h.coefficientsFit hc hv.coefficient
  sampleRate := h.oneSampleRate hv.sampleRate
  legal := h.registersLegal hc hv.legal
  frequency := h.frequencyFits hc hv.legal hv.frequency
  levelPhase := h.levelPhaseFit hv.legal hv.rates hv.frequency hv.levelPhase
  idle := h.idleSilent hv.idle

theorem Voice.construct_fits {c : Config} (hc : LegalConfig c) : (Voice.construct c).Fits c where
  note := Voice.construct_noteAgrees c
  rates := Voice.construct_ratesFit c
  coefficient := Voice.construct_coefficientsFit hc
  sampleRate := rfl
  legal := Voice.construct_registersLegal hc
  frequency := Voice.construct_frequencyFits c
  levelPhase := Voice.levelPhaseFit_of_zero rfl rfl
  idle := ⟨fun _ => rfl, fun _ => rfl⟩

/-- The invariant is that of each voice, with R25 and R30 across the voices. -/
theorem State.inv_iff (s : State) :
    s.Inv ↔ LegalConfig s.cfg ∧ (∀ i, (s.voices.voice i).Fits s.cfg) ∧ UniqueNotes s ∧
      ∀ i j, (s.voices.voice i).params = (s.voices.voice j).params := by
  constructor
  · intro h
    refine ⟨h.legalConfig, fun i => ?_, h.uniqueNotes, fun i j => (h.uniform i j).1⟩
    obtain ⟨hosc, henv, hatt, hdec, hrel, hsus, -⟩ := h.legal i
    exact {
      note := h.noteActive i
      rates := h.rates i
      coefficient := h.coefficient i
      sampleRate := (h.uniform i i).2
      legal := ⟨hosc, henv, hatt, hdec, hrel, hsus⟩
      frequency := h.frequency i
      levelPhase := h.levelPhase i
      idle := h.idleSilent i }
  · rintro ⟨hc, hv, hu, hp⟩
    exact {
      legalConfig := hc
      noteActive := fun i => (hv i).note
      uniqueNotes := hu
      levelPhase := fun i => (hv i).levelPhase
      frequency := fun i => (hv i).frequency
      coefficient := fun i => (hv i).coefficient
      rates := fun i => (hv i).rates
      uniform := fun i j => ⟨hp i j, (hv i).sampleRate⟩
      legal := fun i =>
        have ⟨hosc, henv, hatt, hdec, hrel, hsus⟩ := (hv i).legal
        ⟨hosc, henv, hatt, hdec, hrel, hsus, (hv i).coefficient.feedback_inRange hc⟩
      idleSilent := fun i => (hv i).idle }

/-- Settles O53: every change keeps what the invariant says of one voice, and a step keeps R25 and R30. -/
theorem everyStepKeepsTheInvariant : Obligations.EveryStepKeepsTheInvariant := by
  intro s t hs h
  obtain ⟨hc, hv, hu, hp⟩ := (State.inv_iff s).1 hs
  refine (State.inv_iff t).2 ?_
  rw [(step_change h).1]
  exact ⟨hc, step_keeps_voices h (fun _ _ => VoiceChange.fits hc) hv, step_uniqueNotes h hu, step_params_eq h hp⟩

theorem default_noteFreq (n : Note) :
    F32.isFinite (noteFreq Config.default n) = true ∧ F32.gt (noteFreq Config.default n) F32.zero = true := by
  revert n
  decide +kernel

theorem legalConfig_default : LegalConfig Config.default where
  rate := by decide +kernel
  attack := by decide +kernel
  decay := by decide +kernel
  release := by decide +kernel
  sustain := by decide +kernel
  cutoff := by decide +kernel
  resonance := by decide +kernel
  fbMax := by decide +kernel
  pitch := default_noteFreq

theorem reset_uniqueNotes : UniqueNotes State.reset := fun n i j hi _ => by
  rw [State.reset_voice] at hi; cases hi

/-- Settles O52: every voice is constructed, under a legal configuration. -/
theorem resetMeetsTheInvariant : Obligations.ResetMeetsTheInvariant :=
  (State.inv_iff _).2 ⟨legalConfig_default,
    fun i => by rw [State.reset_voice]; exact Voice.construct_fits legalConfig_default,
    reset_uniqueNotes, fun i j => by rw [State.reset_voice, State.reset_voice]⟩

/-! ### The single invariants -/

/-- Settles O46: no change of a voice parts its note from its active flag. -/
theorem noteIffActiveIsKept : Obligations.NoteIffActiveIsKept :=
  ⟨resetMeetsTheInvariant.noteActive, fun _ _ hs h =>
    step_keeps_voices h (fun _ _ => VoiceChange.noteAgrees) hs⟩

/-- Settles O47: a voice takes a note only when no voice holds it. -/
theorem uniqueNotesAreKept : Obligations.UniqueNotesAreKept :=
  ⟨reset_uniqueNotes, fun _ _ hs h => step_uniqueNotes h hs⟩

/-- Settles O48: whoever writes a time or a sample rate writes the rate. -/
theorem ratesStayDerived : Obligations.RatesStayDerived :=
  ⟨resetMeetsTheInvariant.rates, fun _ _ hs h =>
    step_keeps_voices (P := fun v => v.env.RatesFit) h (fun _ _ => VoiceChange.ratesFit) hs⟩

/-- Settles O49: the parameter registers of two voices go the same way, and the two sample rates of each too. -/
theorem parametersStayUniform : Obligations.ParametersStayUniform :=
  ⟨resetMeetsTheInvariant.uniform, fun _ _ hs h i j =>
    ⟨step_params_eq h (fun i j => (hs i j).1) i j,
      step_keeps_voices h (fun _ _ => VoiceChange.oneSampleRate) (fun i => (hs i i).2) i⟩⟩

/-- Settles O50: whoever writes a coefficient clamps it and writes the feedback. -/
theorem coefficientsStayDerived : Obligations.CoefficientsStayDerived := by
  refine ⟨resetMeetsTheInvariant.coefficient, fun s t hc hs h => ?_⟩
  unfold CoefficientsDerived
  rw [(step_change h).1]
  exact step_keeps_voices (P := fun v => v.flt.CoefficientsFit s.cfg) h (fun _ _ => VoiceChange.coefficientsFit hc) hs

/-- Settles O51, by the cases of a step. -/
theorem configurationNeverChanges : Obligations.ConfigurationNeverChanges := fun _ _ h => (step_change h).1

/-! ### The values after reset -/

/-- The derived registers at the defaults: the three rates and the feedback (R8, R22, R23). -/
theorem default_derived :
    F32.mul Config.default.attackInit Config.default.sampleRateInit = 0x43DC8000#32 ∧
    F32.mul Config.default.decayInit Config.default.sampleRateInit = 0x4589D000#32 ∧
    F32.mul Config.default.releaseInit Config.default.sampleRateInit = 0x4609D000#32 ∧
    feedbackOf Config.default Config.default.cutoffInit Config.default.resonanceInit = 0x00000000#32 := by
  decide +kernel

/-- Settles O45: every voice is constructed; its derived registers are computed, the others are the defaults. -/
theorem resetValuesAtTheDefaults : Obligations.ResetValuesAtTheDefaults := by
  refine ⟨rfl, fun i => ?_⟩
  obtain ⟨hatt, hdec, hrel, hfb⟩ := default_derived
  rw [State.reset_voice, Voice.construct, hatt, hdec, hrel, hfb]
  rfl

/-! ### What a word leaves unchanged, and the end of a note -/

theorem Pool.noteOn_params (c : Config) (vs : Pool) (n : Note) (k : VoiceIx) :
    ((vs.noteOn c n).voice k).params = (vs.voice k).params := by
  rcases vs.noteOn_cases c n with ⟨i, -, h⟩ | ⟨i, -, -, h⟩ | ⟨-, -, h⟩ <;> rw [h]
  · exact Pool.put_params vs i _ (by rfl) k
  · exact Pool.put_params vs i _ (Voice.allocate_params c n _) k

theorem Pool.noteOff_params (vs : Pool) (n : Note) (k : VoiceIx) :
    ((vs.noteOff n).voice k).params = (vs.voice k).params := by
  rcases vs.noteOff_cases n with ⟨i, -, h⟩ | ⟨-, h⟩ <;> rw [h]
  exact Pool.put_params vs i _ (by rfl) k

/-- NOTE_ON writes the frequency of no voice but one that it makes active. -/
theorem Pool.noteOn_frequency (c : Config) (vs : Pool) (n : Note) (k : VoiceIx)
    (hne : ((vs.noteOn c n).voice k).osc.frequency ≠ (vs.voice k).osc.frequency) :
    (vs.voice k).active = false ∧ ((vs.noteOn c n).voice k).active = true := by
  have put : ∀ i w, (w.osc.frequency ≠ (vs.voice i).osc.frequency → (vs.voice i).active = false ∧ w.active = true) →
      ((vs.put i w).voice k).osc.frequency ≠ (vs.voice k).osc.frequency →
      (vs.voice k).active = false ∧ ((vs.put i w).voice k).active = true := fun i w hw =>
    Pool.put_rel (R := fun v w => w.osc.frequency ≠ v.osc.frequency → v.active = false ∧ w.active = true)
      (fun _ h => absurd rfl h) vs i w hw k
  rcases vs.noteOn_cases c n with ⟨i, -, h⟩ | ⟨i, -, hi, h⟩ | ⟨-, -, h⟩ <;> rw [h] at hne ⊢
  · exact put i _ (fun h => absurd (by rfl) h) hne
  · exact put i _ (fun _ => ⟨((vs.firstFree_some i).1 hi).1, by rfl⟩) hne
  · exact absurd rfl hne

theorem Pool.noteOff_frequency (vs : Pool) (n : Note) (k : VoiceIx) :
    ((vs.noteOff n).voice k).osc.frequency = (vs.voice k).osc.frequency := by
  rcases vs.noteOff_cases n with ⟨i, -, h⟩ | ⟨-, h⟩ <;> rw [h]
  exact Pool.put_rel (R := fun v w => w.osc.frequency = v.osc.frequency) (fun _ => rfl) vs i _ (by rfl) k

@[simp] theorem Voice.applyParam_frequency (c : Config) (v : Voice) (p : Param) :
    (v.applyParam c p).osc.frequency = v.osc.frequency := by
  cases p with
  | sampleRate x =>
    simp only [Voice.applyParam, Voice.applySampleRate, Osc.setSampleRate]
    split
    · split <;> rfl
    · rfl
  | _ => rfl

@[simp] theorem Voice.process_frequency (c : Config) (d : F32) (v : Voice) :
    (v.process c d).1.osc.frequency = v.osc.frequency := by
  rcases v.process_cases c d with ⟨-, h⟩ | ⟨-, -, h⟩ | ⟨-, -, h⟩ <;> rw [h] <;> rfl

/-- Settles O28, by the operation on the pool that the instruction is. -/
theorem parametersAreWrittenOnlyByTheirCommands : Obligations.ParametersAreWrittenOnlyByTheirCommands := by
  intro i s t k h
  rw [(exec_voices h).1]
  constructor
  · rintro (⟨n, rfl⟩ | ⟨n, rfl⟩ | rfl)
    · exact Pool.noteOn_params s.cfg s.voices n k
    · exact Pool.noteOff_params s.voices n k
    · rw [poolAfter, Pool.advance_get, Voice.process_params]
  · intro hne
    rcases poolAfter_cases s i with ⟨n, hi, hp⟩ | ⟨n, -, hp⟩ | ⟨p, hp⟩ | ⟨-, hp⟩ <;> rw [hp] at hne ⊢
    · exact ⟨⟨n, hi⟩, Pool.noteOn_frequency s.cfg s.voices n k hne⟩
    · exact absurd (Pool.noteOff_frequency s.voices n k) hne
    · exact absurd (by rw [Pool.applyParam_get, Voice.applyParam_frequency]) hne
    · exact absurd (by rw [Pool.advance_get, Voice.process_frequency]) hne

/-- Settles O32: the voice after a SAMPLE is its own `voice_process`, with its own draw. -/
theorem voicesDoNotInterfere : Obligations.VoicesDoNotInterfere := by
  intro s t i hv hc ht
  refine ⟨s.sample, t.sample, exec_sample s, exec_sample t, ?_⟩
  rw [State.sample_voices, State.sample_voices, Pool.advance_get, Pool.advance_get, hv, hc, ht]

theorem Voice.process_of_running (c : Config) (d : F32) {v : Voice} (ha : v.active = true) (hs : v.env.stage ≠ .idle) :
    v.process c d = v.sound c d := by
  rcases v.process_cases c d with ⟨hn, -⟩ | ⟨-, hi, -⟩ | ⟨-, -, h⟩
  · exact absurd (ha.symm.trans hn) nofun
  · exact absurd hi hs
  · exact h

theorem Voice.process_of_idle (c : Config) (d : F32) {v : Voice} (ha : v.active = true) (hs : v.env.stage = .idle) :
    v.process c d = (v.deactivate, F32.zero) := by
  rcases v.process_cases c d with ⟨hn, -⟩ | ⟨-, -, h⟩ | ⟨-, hi, -⟩
  · exact absurd (ha.symm.trans hn) nofun
  · exact h
  · exact absurd hs hi

/-- The release step that reaches 0.0 ends in Idle at 0.0 (R85). -/
theorem Env.process_release_end {e : Env} (hs : e.stage = .release)
    (h : F32.le (F32.sub e.level (F32.div F32.one e.releaseRate)) F32.zero = true) :
    e.process = { e with stage := .idle, level := F32.zero } := by
  unfold Env.process Env.releaseStep rampStep
  rw [hs]
  exact if_pos h

/-- Settles O33: the first SAMPLE sounds the voice, which ends in Idle; the second finds it there. -/
theorem voiceIsFreedOneSampleAfterIdle : Obligations.VoiceIsFreedOneSampleAfterIdle := by
  intro s i ha hs hend
  have hsound : s.sample.voices.voice i = ((s.voices.voice i).sound s.cfg (noiseDraw s.noiseTick i)).1 := by
    rw [State.sample_voices, Pool.advance_get, Voice.process_of_running _ _ ha (by rw [hs]; nofun)]
  have hactive : (s.sample.voices.voice i).active = true := by rw [hsound, Voice.sound_active, ha]
  have henv : (s.sample.voices.voice i).env =
      { (s.voices.voice i).env with stage := .idle, level := F32.zero } := by
    rw [hsound, Voice.sound_env, Env.process_release_end hs hend]
  refine ⟨s.sample, s.sample.sample, exec_sample _, exec_sample _, hactive, by rw [hsound, Voice.sound_note], henv, ?_⟩
  rw [State.sample_voices s.sample, Pool.advance_get, Voice.process_of_idle _ _ hactive (by rw [henv])]
  rfl

end Sys2Proof.Machine

/-! SUPPORT. The word interface (20_memory.md): the bytes of a word put together again (R41), a step that reads no more
than the first port event (R45), and commands that repeat without effect (R44). -/

namespace Sys2Proof

/-! ### A byte-wide medium -/

theorem OpWord.toBytes_eq_map (w : OpWord) : w.toBytes = (List.range 8).map w.byte := rfl

theorem OpWord.byte_eq_ofNat (w : OpWord) (k : Nat) : w.byte k = BitVec.ofNat 8 (w.toNat / 2 ^ (8 * k)) := by
  rw [← Nat.shiftRight_eq_div_pow]
  rfl

/-- The eight bytes, joined most significant first, are the word: each joint is one of adjacent bit ranges. -/
theorem OpWord.join_bytes (w : OpWord) :
    w.byte 7 ++ w.byte 6 ++ w.byte 5 ++ w.byte 4 ++ w.byte 3 ++ w.byte 2 ++ w.byte 1 ++ w.byte 0 = w := by
  unfold OpWord.byte
  iterate 7 rw [BitVec.extractLsb'_append_extractLsb'_eq_extractLsb' (by rfl)]
  exact BitVec.extractLsb'_eq_self

theorem OpWord.ofBytes_toBytes_append (w : OpWord) (rest : List Byte) :
    OpWord.ofBytes (w.toBytes ++ rest) = some (w, rest) :=
  congrArg (fun v => some (v, rest)) w.join_bytes

theorem wordsOfBytes_flatMap_toBytes (ws : List OpWord) :
    wordsOfBytes ws.length (ws.flatMap OpWord.toBytes) = (ws, []) := by
  induction ws with
  | nil => rfl
  | cons w ws ih => 
    rw [List.flatMap_cons, List.length_cons, wordsOfBytes, OpWord.ofBytes_toBytes_append]
    simp only [ih]

/-- Settles O4: the joined bytes for one word, and induction on the words of a stream. -/
theorem bytesCarryTheWords : Obligations.BytesCarryTheWords := by
  refine ⟨OpWord.ofBytes_toBytes_append, fun w k hk => ?_, wordsOfBytes_flatMap_toBytes⟩
  rw [OpWord.toBytes_eq_map, List.getElem?_map, List.getElem?_range hk, Option.map_some, OpWord.byte_eq_ofNat]

end Sys2Proof

namespace Sys2Proof.Machine

/-! ### What an instruction is -/

/-- An instruction is SAMPLE, a note command, or the broadcast of one parameter, the same in every state. -/
theorem exec_kinds (i : Instr) :
    i = .sample ∨ (∃ n, i = .noteOn n) ∨ (∃ n, i = .noteOff n) ∨ ∃ p, ∀ s, exec i s = .next (s.applyParam p) := by
  cases i
  case sample => exact .inl rfl
  case noteOn n => exact .inr (.inl ⟨n, rfl⟩)
  case noteOff n => exact .inr (.inr (.inl ⟨n, rfl⟩))
  all_goals exact .inr (.inr (.inr ⟨_, fun _ => rfl⟩))

theorem exec_noteOn (n : Note) (s : State) : exec (.noteOn n) s = .next (s.command (s.voices.noteOn s.cfg n)) := rfl
theorem exec_noteOff (n : Note) (s : State) : exec (.noteOff n) s = .next (s.command (s.voices.noteOff n)) := rfl

/-! ### The events still to come -/

/-- An instruction neither reads nor writes the events still to come. -/
theorem exec_inbox_irrelevant (i : Instr) (s : State) :
    ∃ t : State, ∀ r, exec i { s with inbox := r } = .next { t with inbox := r } := by
  rcases exec_kinds i with rfl | ⟨n, rfl⟩ | ⟨n, rfl⟩ | ⟨p, hp⟩
  · exact ⟨s.sample, fun _ => rfl⟩
  · exact ⟨s.command (s.voices.noteOn s.cfg n), fun _ => rfl⟩
  · exact ⟨s.command (s.voices.noteOff n), fun _ => rfl⟩
  · exact ⟨s.applyParam p, fun _ => hp _⟩

/-- A step takes the first event and neither reads nor writes those after it. -/
theorem step_later_events_irrelevant (s : State) (e : PortEvent) :
    ∃ t : State, ∀ r, step { s with inbox := e :: r } = .next { t with inbox := r } := by
  cases e with
  | rst => exact ⟨s.takeReset, fun _ => rfl⟩
  | word w =>
    have hstep : ∀ r, step { s with inbox := .word w :: r } = stepWord w { s with inbox := r } := fun _ => rfl
    simp only [hstep, stepWord]
    cases decode w with
    | error _ => exact ⟨s.quiet, fun _ => rfl⟩
    | ok i => exact exec_inbox_irrelevant i s

/-- Settles O10: whatever follows the first event, the step leaves one and the same block, with that left to come. -/
theorem laterWordsDoNotMatter : Obligations.LaterWordsDoNotMatter := by
  intro s e r1 r2
  obtain ⟨t, ht⟩ := step_later_events_irrelevant s e
  exact ⟨_, _, ht r1, ht r2, rfl, rfl⟩

/-! ### A parameter set twice -/

theorem Env.setStageValue_idem (e : Env) (st : Stage) (x : F32) :
    (e.setStageValue st x).setStageValue st x = e.setStageValue st x := by
  unfold Env.setStageValue
  split
  · rfl
  · cases st <;> rfl

/-- Both coefficients that give the feedback are in place after the first write (R99). -/
theorem Flt.setCutoff_idem (c : Config) (f : Flt) (x : F32) : (f.setCutoff c x).setCutoff c x = f.setCutoff c x := by
  unfold Flt.setCutoff
  split <;> rfl

theorem Flt.setResonance_idem (c : Config) (f : Flt) (x : F32) :
    (f.setResonance c x).setResonance c x = f.setResonance c x := by
  unfold Flt.setResonance
  split <;> rfl

/-- The reset that comes with a rate, and the rates recomputed from the kept times, find their own results (R111). -/
theorem Voice.applySampleRate_idem (v : Voice) (x : F32) :
    (v.applySampleRate x).applySampleRate x = v.applySampleRate x := by
  unfold Voice.applySampleRate Osc.setSampleRate Env.setSampleRate
  split
  · split <;> rfl
  · rfl

theorem Voice.applyParam_idem (c : Config) (v : Voice) (p : Param) :
    (v.applyParam c p).applyParam c p = v.applyParam c p := by
  cases p with
  | envelopeStage st x => exact congrArg (fun e => { v with env := e }) (v.env.setStageValue_idem st x)
  | waveform _ | filterMode _ => rfl
  | cutoff x => exact congrArg (fun f => { v with flt := f }) (v.flt.setCutoff_idem c x)
  | resonance x => exact congrArg (fun f => { v with flt := f }) (v.flt.setResonance_idem c x)
  | sampleRate x => exact v.applySampleRate_idem x

theorem Pool.applyParam_idem (c : Config) (vs : Pool) (p : Param) :
    (vs.applyParam c p).applyParam c p = vs.applyParam c p :=
  Pool.ext_get _ _ fun i => by simp only [Pool.applyParam_get, Voice.applyParam_idem]

/-! ### A note command twice -/

theorem Pool.put_put_same (vs : Pool) (i : VoiceIx) (v w : Voice) : (vs.put i v).put i w = vs.put i w :=
  Pool.ext_get _ _ fun j => by
    by_cases hj : j = i
    · subst hj; rw [Pool.put_same, Pool.put_same]
    · rw [Pool.put_other _ i j w hj, Pool.put_other _ i j v hj, Pool.put_other _ i j w hj]

/-- Voice `i` is the first holder once it holds the note, if no voice before it did. -/
theorem Pool.holder_put {vs : Pool} {n : Note} {i : VoiceIx} {w : Voice} (hw : w.holds n = true)
    (hbefore : ∀ j < i, (vs.voice j).holds n = false) : (vs.put i w).holder n = some i :=
  (Pool.holder_some _ n i).2
    ⟨by rwa [Pool.put_same], fun j hj => by rw [Pool.put_other vs i j w hj.ne]; exact hbefore j hj⟩

theorem Pool.noteOn_of_holder (c : Config) {vs : Pool} {n : Note} {i : VoiceIx} (h : vs.holder n = some i) :
    vs.noteOn c n = vs.put i { vs.voice i with env := (vs.voice i).env.trigger } := by
  rcases vs.noteOn_cases c n with ⟨k, hk, hp⟩ | ⟨k, hk, -, -⟩ | ⟨hk, -, -⟩
  · obtain rfl : i = k := Option.some.inj (h.symm.trans hk)
    exact hp
  · cases h.symm.trans hk
  · cases h.symm.trans hk

/-- Retriggering a voice already in Attack keeps the pool. -/
theorem Pool.noteOn_put (c : Config) {vs : Pool} {n : Note} {i : VoiceIx} {w : Voice} (hw : w.holds n = true)
    (hattack : w.env.trigger = w.env) (hbefore : ∀ j < i, (vs.voice j).holds n = false) :
    (vs.put i w).noteOn c n = vs.put i w := by
  rw [Pool.noteOn_of_holder c (Pool.holder_put hw hbefore), Pool.put_same, Pool.put_put_same, hattack]

/-- The voice that took the note, as its holder or as the first free one, is its holder in Attack afterwards. -/
theorem Pool.noteOn_idem (c : Config) (vs : Pool) (n : Note) : (vs.noteOn c n).noteOn c n = vs.noteOn c n := by
  rcases vs.noteOn_cases c n with ⟨i, hi, h⟩ | ⟨i, hi, -, h⟩ | ⟨-, -, h⟩
  · obtain ⟨hold, hbefore⟩ := (vs.holder_some n i).1 hi
    rw [h]
    exact Pool.noteOn_put c hold rfl hbefore
  · rw [h]
    exact Pool.noteOn_put c ((Voice.holds_iff _ n).2 ⟨rfl, rfl⟩) rfl fun j _ => (vs.holder_none n).1 hi j
  · rw [h, h]

theorem Pool.noteOff_of_holder {vs : Pool} {n : Note} {i : VoiceIx} (h : vs.holder n = some i) :
    vs.noteOff n = vs.put i { vs.voice i with env := (vs.voice i).env.release } := by
  rcases vs.noteOff_cases n with ⟨k, hk, hp⟩ | ⟨hk, -⟩
  · obtain rfl : i = k := Option.some.inj (h.symm.trans hk)
    exact hp
  · cases h.symm.trans hk

/-- Releasing a voice already in Release keeps the pool. -/
theorem Pool.noteOff_put {vs : Pool} {n : Note} {i : VoiceIx} {w : Voice} (hw : w.holds n = true)
    (hrelease : w.env.release = w.env) (hbefore : ∀ j < i, (vs.voice j).holds n = false) :
    (vs.put i w).noteOff n = vs.put i w := by
  rw [Pool.noteOff_of_holder (Pool.holder_put hw hbefore), Pool.put_same, Pool.put_put_same, hrelease]

/-- A released voice still holds its note, and is released again. -/
theorem Pool.noteOff_idem (vs : Pool) (n : Note) : (vs.noteOff n).noteOff n = vs.noteOff n := by
  rcases vs.noteOff_cases n with ⟨i, hi, h⟩ | ⟨-, h⟩
  · obtain ⟨hold, hbefore⟩ := (vs.holder_some n i).1 hi
    rw [h]
    exact Pool.noteOff_put hold rfl hbefore
  · rw [h, h]

/-! ### A command twice -/

/-- Of two commands, the pool the second leaves is what remains. -/
@[simp] theorem State.command_command (s : State) (vs ws : Pool) : (s.command vs).command ws = s.command ws := rfl

theorem State.applyParam_idem (s : State) (p : Param) : (s.applyParam p).applyParam p = s.applyParam p := by
  unfold State.applyParam
  rw [State.command_voices, State.command_cfg, Pool.applyParam_idem, State.command_command]

/-- Settles O26, by the operation on the pool that the instruction is. -/
theorem commandsAreIdempotent : Obligations.CommandsAreIdempotent := by
  intro i s hi
  rcases exec_kinds i with rfl | ⟨n, rfl⟩ | ⟨n, rfl⟩ | ⟨p, hp⟩
  · exact absurd rfl hi
  · refine ⟨_, exec_noteOn n s, ?_⟩
    rw [exec_noteOn, State.command_voices, State.command_cfg, Pool.noteOn_idem, State.command_command]
  · refine ⟨_, exec_noteOff n s, ?_⟩
    rw [exec_noteOff, State.command_voices, Pool.noteOff_idem, State.command_command]
  · refine ⟨_, hp s, ?_⟩
    rw [hp, State.applyParam_idem]

end Sys2Proof.Machine

/-! SUPPORT. The encoding (30_encoding.md). Decoding the word of an instruction gives it back; a word that decodes to an
instruction is put together again from its fields and is that instruction's word, every other word lies in the reserved
space. The opcode map, the reserved words and the assembler follow from these. -/

namespace Sys2Proof

open Machine

/-! ### Decoding the formats (R54, R57, R60) -/

theorem decode_noteOn (n : Note) : decode (formatN 0x01#8 n) = .ok (.noteOn n) := by
  simp [decode, opc_formatN, zeroN_formatN, noteField_formatN]

theorem decode_noteOff (n : Note) : decode (formatN 0x02#8 n) = .ok (.noteOff n) := by
  simp [decode, opc_formatN, zeroN_formatN, noteField_formatN]

theorem decode_formatP (p a : BitVec 8) (x : F32) : decode (formatP p a x) = decodeParam (formatP p a x) := by
  simp [decode, opc_formatP]

theorem decode_setEnv (st : Stage) (x : F32) : decode (formatP 0x00#8 st.code x) = .ok (Instr.setEnv x st) := by
  simp [decode_formatP, decodeParam, rsv_formatP, pid_formatP, arg_formatP, val_formatP, Stage.ofCode_code, decodeEnum]

theorem decode_setWave (wave : Waveform) : decode (formatP 0x01#8 wave.code 0) = .ok (Instr.setWave wave) := by
  simp [decode_formatP, decodeParam, rsv_formatP, pid_formatP, arg_formatP, val_formatP, Waveform.ofCode_code,
    decodeEnum]

theorem decode_setFmode (mode : FilterMode) : decode (formatP 0x02#8 mode.code 0) = .ok (Instr.setFmode mode) := by
  simp [decode_formatP, decodeParam, rsv_formatP, pid_formatP, arg_formatP, val_formatP, FilterMode.ofCode_code,
    decodeEnum]

theorem decode_setCutoff (x : F32) : decode (formatP 0x03#8 0 x) = .ok (.setCutoff x) := by
  simp [decode_formatP, decodeParam, rsv_formatP, pid_formatP, arg_formatP, val_formatP]

theorem decode_setRes (x : F32) : decode (formatP 0x04#8 0 x) = .ok (.setRes x) := by
  simp [decode_formatP, decodeParam, rsv_formatP, pid_formatP, arg_formatP, val_formatP]

theorem decode_setSrate (x : F32) : decode (formatP 0x05#8 0 x) = .ok (.setSrate x) := by
  simp [decode_formatP, decodeParam, rsv_formatP, pid_formatP, arg_formatP, val_formatP]

theorem decode_sample : decode formatS = .ok .sample := by decide

/-- Settles O1, by the format of each instruction and the fields of a word in that format. -/
theorem decodeOfEncode : Obligations.DecodeOfEncode := fun i =>
  match i with
  | .noteOn n => decode_noteOn n
  | .noteOff n => decode_noteOff n
  | .setEnvIdle x => decode_setEnv .idle x
  | .setEnvAttack x => decode_setEnv .attack x
  | .setEnvDecay x => decode_setEnv .decay x
  | .setEnvSustain x => decode_setEnv .sustain x
  | .setEnvRelease x => decode_setEnv .release x
  | .setWaveSine => decode_setWave .sine
  | .setWaveSquare => decode_setWave .square
  | .setWaveTriangle => decode_setWave .triangle
  | .setWaveSawtooth => decode_setWave .sawtooth
  | .setWaveNoise => decode_setWave .noise
  | .setFmodeLp => decode_setFmode .lowpass
  | .setFmodeHp => decode_setFmode .highpass
  | .setFmodeBp => decode_setFmode .bandpass
  | .setCutoff x => decode_setCutoff x
  | .setRes x => decode_setRes x
  | .setSrate x => decode_setSrate x
  | .sample => decode_sample

/-! ### A word from its fields (R53, R54) -/

theorem OpWord.eq_formatN {w : OpWord} (h : w.zeroN = 0#49) : w = formatN w.opc w.noteField := by
  unfold formatN
  rw [← h]
  unfold OpWord.opc OpWord.zeroN OpWord.noteField
  iterate 2 rw [BitVec.extractLsb'_append_extractLsb'_eq_extractLsb' (by rfl)]
  exact BitVec.extractLsb'_eq_self.symm

theorem OpWord.eq_formatP {w : OpWord} (hopc : w.opc = 0x03#8) (hrsv : w.rsv = 0#8) :
    w = formatP w.pid w.arg w.val := by
  unfold formatP
  rw [← hopc, ← hrsv]
  unfold OpWord.opc OpWord.pid OpWord.arg OpWord.rsv OpWord.val
  iterate 4 rw [BitVec.extractLsb'_append_extractLsb'_eq_extractLsb' (by rfl)]
  exact BitVec.extractLsb'_eq_self.symm

theorem OpWord.eq_formatS {w : OpWord} (hopc : w.opc = 0x04#8) (hzero : w.zeroS = 0#56) : w = formatS := by
  unfold formatS
  rw [← hopc, ← hzero]
  unfold OpWord.opc OpWord.zeroS
  rw [BitVec.extractLsb'_append_extractLsb'_eq_extractLsb' (by rfl)]
  exact BitVec.extractLsb'_eq_self.symm

/-! ### The codes, from both sides (R57) -/

theorem Stage.code_of_ofCode {b : BitVec 8} {st : Stage} (h : Stage.ofCode b = some st) : b = st.code := by
  unfold Stage.ofCode at h
  split_ifs at h <;> cases h <;> assumption

theorem Waveform.code_of_ofCode {b : BitVec 8} {wave : Waveform} (h : Waveform.ofCode b = some wave) :
    b = wave.code := by
  unfold Waveform.ofCode at h
  split_ifs at h <;> cases h <;> assumption

theorem FilterMode.code_of_ofCode {b : BitVec 8} {mode : FilterMode} (h : FilterMode.ofCode b = some mode) :
    b = mode.code := by
  unfold FilterMode.ofCode at h
  split_ifs at h <;> cases h <;> assumption

theorem Stage.le_of_ofCode_none {b : BitVec 8} (h : Stage.ofCode b = none) : 5 ≤ b.toNat := by
  revert b; decide

theorem Waveform.le_of_ofCode_none {b : BitVec 8} (h : Waveform.ofCode b = none) : 5 ≤ b.toNat := by
  revert b; decide

theorem FilterMode.le_of_ofCode_none {b : BitVec 8} (h : FilterMode.ofCode b = none) : 3 ≤ b.toNat := by
  revert b; decide

theorem encode_setEnv (x : F32) (st : Stage) : encode (Instr.setEnv x st) = formatP 0x00#8 st.code x := by
  cases st <;> rfl

theorem encode_setWave (wave : Waveform) : encode (Instr.setWave wave) = formatP 0x01#8 wave.code 0 := by
  cases wave <;> rfl

theorem encode_setFmode (mode : FilterMode) : encode (Instr.setFmode mode) = formatP 0x02#8 mode.code 0 := by
  cases mode <;> rfl

/-! ### What the decoder's answer says of the word (R60, R61) -/

theorem OpWord.toNat_opc (w : OpWord) : w.opc.toNat = w.toNat / 2 ^ 56 := by
  unfold OpWord.opc
  rw [BitVec.extractLsb'_toNat, Nat.shiftRight_eq_div_pow]
  omega

theorem OpWord.toNat_pid (w : OpWord) : w.pid.toNat = w.toNat / 2 ^ 48 % 256 := by
  rw [← Nat.shiftRight_eq_div_pow]; rfl

theorem OpWord.toNat_arg (w : OpWord) : w.arg.toNat = w.toNat / 2 ^ 40 % 256 := by
  rw [← Nat.shiftRight_eq_div_pow]; rfl

theorem OpWord.toNat_rsv (w : OpWord) : w.rsv.toNat = w.toNat / 2 ^ 32 % 256 := by
  rw [← Nat.shiftRight_eq_div_pow]; rfl

theorem OpWord.toNat_val (w : OpWord) : w.val.toNat = w.toNat % 2 ^ 32 := rfl

theorem OpWord.toNat_zeroN (w : OpWord) : w.zeroN.toNat = w.toNat / 2 ^ 7 % 2 ^ 49 := by
  rw [← Nat.shiftRight_eq_div_pow]; rfl

theorem OpWord.toNat_zeroS (w : OpWord) : w.zeroS.toNat = w.toNat % 2 ^ 56 := rfl

/-- The reserved space in the fields that the decoder tests. -/
theorem inReservedSpace_iff_fields (w : OpWord) : InReservedSpace w ↔
    w.opc = 0x00#8 ∨ 5 ≤ w.opc.toNat ∨
    ((w.opc = 0x01#8 ∨ w.opc = 0x02#8) ∧ w.zeroN ≠ 0) ∨
    (w.opc = 0x04#8 ∧ w.zeroS ≠ 0) ∨
    (w.opc = 0x03#8 ∧ (w.rsv ≠ 0 ∨ 6 ≤ w.pid.toNat ∨ (w.pid = 0x00#8 ∧ 5 ≤ w.arg.toNat) ∨
      (w.pid = 0x01#8 ∧ (5 ≤ w.arg.toNat ∨ w.val ≠ 0)) ∨ (w.pid = 0x02#8 ∧ (3 ≤ w.arg.toNat ∨ w.val ≠ 0)) ∨
      (3 ≤ w.pid.toNat ∧ w.pid.toNat ≤ 5 ∧ w.arg ≠ 0))) := by
  simp only [← BitVec.toNat_inj, ne_eq, OpWord.toNat_opc, OpWord.toNat_pid, OpWord.toNat_arg, OpWord.toNat_rsv,
    OpWord.toNat_val, OpWord.toNat_zeroN, OpWord.toNat_zeroS]
  rfl

/-- The answer fits the word: it is the instruction whose word this is, or an error on a reserved word. -/
def OpWord.Answers (w : OpWord) : Except Reserved Instr → Prop
  | .ok i => w = encode i
  | .error _ => InReservedSpace w

theorem OpWord.answers_decodeEnum {α : Type} {w : OpWord} {code : Option α} {r : Reserved} {mk : α → Instr}
    (hsome : ∀ a, code = some a → w = encode (mk a)) (hnone : code = none → InReservedSpace w) :
    w.Answers (decodeEnum code r mk) := by
  cases code with
  | some a => exact hsome a rfl
  | none => exact hnone rfl

theorem OpWord.answers_decodeParam {w : OpWord} (hopc : w.opc = 0x03#8) : w.Answers (decodeParam w) := by
  have reserved := fun h => (inReservedSpace_iff_fields w).2 (.inr (.inr (.inr (.inr ⟨hopc, h⟩))))
  have argReserved := fun h3 h5 hne => reserved (.inr (.inr (.inr (.inr (.inr ⟨h3, h5, hne⟩)))))
  unfold decodeParam
  split_ifs with hrsv hpid hpid hval hpid hval hpid harg hpid harg hpid harg
  · exact reserved (.inl hrsv)
  all_goals have hw := OpWord.eq_formatP hopc (not_not.1 hrsv)
  · rw [hpid] at hw
    refine OpWord.answers_decodeEnum (fun st h => ?_) fun h =>
      reserved (by simp [hpid, Stage.le_of_ofCode_none h])
    rwa [encode_setEnv, ← Stage.code_of_ofCode h]
  · rw [hpid, hval] at hw
    refine OpWord.answers_decodeEnum (fun wave h => ?_) fun h =>
      reserved (by simp [hpid, Waveform.le_of_ofCode_none h])
    rwa [encode_setWave, ← Waveform.code_of_ofCode h]
  · exact reserved (.inr (.inr (.inr (.inl ⟨hpid, .inr hval⟩))))
  · rw [hpid, hval] at hw
    refine OpWord.answers_decodeEnum (fun mode h => ?_) fun h =>
      reserved (by simp [hpid, FilterMode.le_of_ofCode_none h])
    rwa [encode_setFmode, ← FilterMode.code_of_ofCode h]
  · exact reserved (.inr (.inr (.inr (.inr (.inl ⟨hpid, .inr hval⟩)))))
  · rwa [hpid, harg] at hw
  · exact argReserved (by simp [hpid]) (by simp [hpid]) harg
  · rwa [hpid, harg] at hw
  · exact argReserved (by simp [hpid]) (by simp [hpid]) harg
  · rwa [hpid, harg] at hw
  · exact argReserved (by simp [hpid]) (by simp [hpid]) harg
  · exact reserved (.inr (.inl (by bv_omega)))

/-- Every word is the word of the instruction it decodes to, or decodes to none and is reserved. -/
theorem OpWord.answers_decode (w : OpWord) : w.Answers (decode w) := by
  have reserved := (inReservedSpace_iff_fields w).2
  unfold decode
  split_ifs with h1 hzero h2 hzero h4 hzero h3
  · exact (OpWord.eq_formatN hzero).trans (by rw [h1]; rfl)
  · exact reserved (.inr (.inr (.inl ⟨.inl h1, hzero⟩)))
  · exact (OpWord.eq_formatN hzero).trans (by rw [h2]; rfl)
  · exact reserved (.inr (.inr (.inl ⟨.inr h2, hzero⟩)))
  · exact OpWord.eq_formatS h4 hzero
  · exact reserved (.inr (.inr (.inr (.inl ⟨h4, hzero⟩))))
  · exact OpWord.answers_decodeParam h3
  · have : w.opc = 0x00#8 ∨ 5 ≤ w.opc.toNat := by bv_omega
    exact reserved (this.imp_right .inl)

/-- The words that decode to an instruction are the words the encoder builds. -/
theorem decode_eq_ok_iff (w : OpWord) (i : Instr) : decode w = .ok i ↔ w = encode i := by
  constructor
  · intro h
    have := w.answers_decode
    rwa [h] at this
  · rintro rfl
    exact decodeOfEncode i

/-! ### The opcode map (R59) -/

/-- The word of every instruction matches its row, with its operand in the free bits. -/
theorem encode_matches_row (i : Instr) : Laws.RowMatch.Statement i := by
  cases i with
  | noteOn n => exact Laws.RowMatch.noteOn n
  | noteOff n => exact Laws.RowMatch.noteOff n
  | setEnvIdle x => exact Laws.RowMatch.setEnvIdle x
  | setEnvAttack x => exact Laws.RowMatch.setEnvAttack x
  | setEnvDecay x => exact Laws.RowMatch.setEnvDecay x
  | setEnvSustain x => exact Laws.RowMatch.setEnvSustain x
  | setEnvRelease x => exact Laws.RowMatch.setEnvRelease x
  | setWaveSine => exact Laws.RowMatch.setWaveSine
  | setWaveSquare => exact Laws.RowMatch.setWaveSquare
  | setWaveTriangle => exact Laws.RowMatch.setWaveTriangle
  | setWaveSawtooth => exact Laws.RowMatch.setWaveSawtooth
  | setWaveNoise => exact Laws.RowMatch.setWaveNoise
  | setFmodeLp => exact Laws.RowMatch.setFmodeLp
  | setFmodeHp => exact Laws.RowMatch.setFmodeHp
  | setFmodeBp => exact Laws.RowMatch.setFmodeBp
  | setCutoff x => exact Laws.RowMatch.setCutoff x
  | setRes x => exact Laws.RowMatch.setRes x
  | setSrate x => exact Laws.RowMatch.setSrate x
  | sample => exact Laws.RowMatch.sample

/-- A word is its bits under a mask together with its bits outside it. -/
theorem and_or_and_not (w m : OpWord) : w &&& m ||| w &&& ~~~m = w := by
  rw [← BitVec.and_or_distrib_left, BitVec.or_not_self, BitVec.and_allOnes]

/-- A row's bits with an operand in the free bits are the word of that instruction, and no other. -/
theorem eq_encode_iff (w : OpWord) (i : Instr) :
    w = encode i ↔ w &&& i.row.mask = i.row.bits ∧ w &&& ~~~i.row.mask = i.operand := by
  obtain ⟨hbits, hoperand⟩ := encode_matches_row i
  constructor
  · rintro rfl
    exact ⟨hbits, hoperand⟩
  · rintro ⟨hb, ho⟩
    rw [← and_or_and_not w i.row.mask, hb, ho, ← hbits, ← hoperand, and_or_and_not]

/-- The instruction of the same row with the operand that the free bits of `w` hold. -/
def Instr.withOperandOf (w : OpWord) : Instr → Instr
  | .noteOn _ => .noteOn w.noteField
  | .noteOff _ => .noteOff w.noteField
  | .setEnvIdle _ => .setEnvIdle w.val
  | .setEnvAttack _ => .setEnvAttack w.val
  | .setEnvDecay _ => .setEnvDecay w.val
  | .setEnvSustain _ => .setEnvSustain w.val
  | .setEnvRelease _ => .setEnvRelease w.val
  | .setCutoff _ => .setCutoff w.val
  | .setRes _ => .setRes w.val
  | .setSrate _ => .setSrate w.val
  | i => i

/-- A field at the low end of a word, zero-extended, is the word under the mask of its bits. -/
theorem setWidth_extractLsb'_zero (w : OpWord) (k : Nat) (hk : k ≤ 64) :
    (w.extractLsb' 0 k).setWidth 64 = w &&& (BitVec.allOnes k).setWidth 64 := by
  rw [← BitVec.setWidth_eq_extractLsb' hk]
  ext i hi
  simp [Bool.and_comm, BitVec.getLsbD_eq_getElem hi]

theorem Instr.row_withOperandOf (w : OpWord) (i : Instr) : (i.withOperandOf w).row = i.row := by
  cases i <;> rfl

/-- The free bits of a row are the note field, the value field, or none. -/
theorem Instr.operand_withOperandOf (w : OpWord) (i : Instr) :
    (i.withOperandOf w).operand = w &&& ~~~i.row.mask := by
  have hnote : w.noteField.setWidth 64 = w &&& ~~~0xFFFFFFFFFFFFFF80#64 := setWidth_extractLsb'_zero w 7 (by decide)
  have hval : w.val.setWidth 64 = w &&& ~~~0xFFFFFFFF00000000#64 := setWidth_extractLsb'_zero w 32 (by decide)
  have hnone : 0 = w &&& ~~~0xFFFFFFFFFFFFFFFF#64 := by simp
  cases i
  case noteOn | noteOff => exact hnote
  case setEnvIdle | setEnvAttack | setEnvDecay | setEnvSustain | setEnvRelease | setCutoff | setRes | setSrate =>
    exact hval
  all_goals exact hnone

/-- A word that matches a row decodes to that row's instruction. -/
theorem decode_of_isMatch {w : OpWord} {i : Instr} (h : i.row.isMatch w = true) :
    decode w = .ok (i.withOperandOf w) := by
  rw [decode_eq_ok_iff, eq_encode_iff, Instr.row_withOperandOf, Instr.operand_withOperandOf]
  exact ⟨of_decide_eq_true h, rfl⟩

/-- Settles O2: a word that decodes is the word of its instruction, which is its row's bits and its operand; two rows
that match a word are the row of the one instruction it decodes to. -/
theorem decodeAgreesWithOpcodeMap : Obligations.DecodeAgreesWithOpcodeMap := by
  refine ⟨fun w i => (decode_eq_ok_iff w i).trans (eq_encode_iff w i), fun w i j hi hj => ?_⟩
  have hsame : i.withOperandOf w = j.withOperandOf w :=
    Except.ok.inj ((decode_of_isMatch hi).symm.trans (decode_of_isMatch hj))
  rw [← Instr.row_withOperandOf w i, hsame, Instr.row_withOperandOf]

/-! ### The reserved space (R61, R134) -/

theorem formatP_inReservedSpace_iff (p a : BitVec 8) (x : F32) : InReservedSpace (formatP p a x) ↔
    6 ≤ p.toNat ∨ (p = 0x00#8 ∧ 5 ≤ a.toNat) ∨ (p = 0x01#8 ∧ (5 ≤ a.toNat ∨ x ≠ 0)) ∨
      (p = 0x02#8 ∧ (3 ≤ a.toNat ∨ x ≠ 0)) ∨ (3 ≤ p.toNat ∧ p.toNat ≤ 5 ∧ a ≠ 0) := by
  simp [inReservedSpace_iff_fields, opc_formatP, rsv_formatP, pid_formatP, arg_formatP, val_formatP]

theorem opc_formatS : formatS.opc = 0x04#8 := by decide
theorem zeroS_formatS : formatS.zeroS = 0#56 := by decide

/-- No word the encoder builds is reserved. -/
theorem encode_not_inReservedSpace (i : Instr) : ¬InReservedSpace (encode i) := by
  cases i
  case noteOn | noteOff => simp [encode, inReservedSpace_iff_fields, opc_formatN, zeroN_formatN]
  case sample => simp [encode, inReservedSpace_iff_fields, opc_formatS, zeroS_formatS]
  all_goals simp [encode, formatP_inReservedSpace_iff, Stage.code, Waveform.code, FilterMode.code]

theorem decode_error_iff (w : OpWord) : (∃ r, decode w = .error r) ↔ InReservedSpace w := by
  have hw := w.answers_decode
  cases hd : decode w with
  | error r =>
    rw [hd] at hw
    exact iff_of_true ⟨r, rfl⟩ hw
  | ok i =>
    rw [hd] at hw
    obtain rfl : w = encode i := hw
    exact iff_of_false (by simp) (encode_not_inReservedSpace i)

/-- Settles O3: the decoder's errors are the reserved words, and a step that takes one is quiet. -/
theorem reservedWordsAreIgnored : Obligations.ReservedWordsAreIgnored := by
  refine ⟨decode_error_iff, fun s w rest hs hw => ?_⟩
  obtain ⟨r, hr⟩ := (decode_error_iff w).2 hw
  simp [step, hs, stepWord, hr, State.quiet]

/-! ### Examples (R65) -/

/-- Settles O5: twenty words, each decoded by evaluation. -/
theorem exampleWordsDecode : Obligations.ExampleWordsDecode := by
  unfold Obligations.ExampleWordsDecode
  decide

/-! ### The assembler (R63, R64) -/

theorem AsmStmt.assemble_of_wellFormed {t : AsmStmt} (h : t.wellFormed = true) : t.assemble = some t.words :=
  if_pos h

theorem AsmStmt.assemble_of_not_wellFormed {t : AsmStmt} (h : t.wellFormed = false) : t.assemble = none := by
  simp [assemble, h]

theorem Instr.stmt_wellFormed (i : Instr) : i.stmt.wellFormed = true := by
  cases i with
  | noteOn n | noteOff n => exact decide_eq_true (Nat.le_of_lt_succ n.isLt)
  | _ => rfl

theorem Instr.stmt_words (i : Instr) : i.stmt.words = [encode i] := by
  cases i with
  | noteOn n | noteOff n => simp [stmt, AsmStmt.words]
  | _ => rfl

/-- A decimal literal is its digits, over a power of ten, rounded once, with its sign. -/
theorem F32Literal.value_decimal (neg : Bool) (digits places : Nat) :
    F32.sign (F32Literal.decimal neg digits places).value = neg ∧
    F32.IsNearestEven (F32Literal.decimal neg digits places).value
      (fun c => (F32.value c * 10 ^ places - (if neg then -(digits : Int) else digits) * F32.value F32.one).natAbs) := by
  have hmag : F32.roundMag (digits * 2 ^ 149) (10 ^ places) < 2 ^ 31 :=
    (F32.roundMag_le_infMag _ _).trans_lt F32.infMag_lt
  refine ⟨F32.sign_ofMag _ _ hmag, F32.isNearestEven_ofMag _ _ _ (by positivity) _ fun c => ?_⟩
  rw [F32.value_one]
  cases neg <;> simp [F32.signed]

/-- Settles O6: a well-formed statement assembles to its words, and a decimal literal is rounded once. -/
theorem assemblerExpandsPseudoInstructions : Obligations.AssemblerExpandsPseudoInstructions := by
  refine ⟨fun i => ?_, fun _ _ => ⟨rfl, rfl, rfl, rfl⟩, fun _ => rfl, ?_, fun k hk => ?_, fun _ _ _ _ => rfl,
    fun _ _ _ _ => ⟨rfl, rfl, rfl, rfl, rfl, rfl⟩, fun n hn => ?_, rfl, F32Literal.value_decimal, fun _ => rfl,
    rfl, rfl, rfl⟩
  · rw [AsmStmt.assemble_of_wellFormed i.stmt_wellFormed, i.stmt_words]
  · decide
  · exact AsmStmt.assemble_of_wellFormed (decide_eq_true hk)
  · have hlarge : ¬n ≤ 127 := by omega
    exact ⟨AsmStmt.assemble_of_not_wellFormed (decide_eq_false hlarge),
      AsmStmt.assemble_of_not_wellFormed (decide_eq_false hlarge)⟩

end Sys2Proof

/-! SUPPORT. The oscillator (40_oscillator.md): the wrapped phase in terms of the exact sum (R66), and the range of every
waveform (R68 to R72), from the order that a product and a difference keep: a ramp lies between its values at the ends of
the phase range. -/

namespace Sys2Proof.F32

/-! ### The wrapped phase (R66) -/

theorem eq_of_sign_of_value {a b : F32} (hs : sign a = sign b) (hv : value a = value b) : a = b := by
  have hmag : magValue (mag a) = magValue (mag b) := by rw [← natAbs_value, ← natAbs_value, hv]
  rw [← ofMag_sign_mag a, ← ofMag_sign_mag b, hs, magValue_strictMono.injective hmag]

theorem value_nonneg_of_le {x : F32} (h : le zero x = true) : 0 ≤ value x := by
  rw [← value_zero]; exact ((le_iff _ _).1 h).2.2

theorem sign_eq_false_of_value_pos {x : F32} (h : 0 < value x) : sign x = false := by
  rw [Bool.eq_false_iff]
  intro hs
  rw [value_eq_signed, hs] at h
  simp only [signed, if_true] at h
  omega

theorem remEuclidOne_of_fmod_neg (p : F32) (h : lt (fmod p one) zero = true) :
    remEuclidOne p = add (fmod p one) one := by
  unfold remEuclidOne; simp [h]

theorem remEuclidOne_of_fmod_not_neg (p : F32) (h : lt (fmod p one) zero = false) : remEuclidOne p = fmod p one := by
  unfold remEuclidOne; simp [h]

/-- A sum that is not negative is wrapped to its remainder: the correction by 1.0 is not taken, and the remainder is
exact. -/
theorem remEuclidOne_of_nonneg (p : F32) (hf : isFinite p = true) (h0 : 0 ≤ value p) :
    isNaN (remEuclidOne p) = false ∧ value (remEuclidOne p) = value p % value one ∧ sign (remEuclidOne p) = sign p := by
  have hspec := fmod_finite_spec p one hf (by decide) (by decide)
  rw [Int.tmod_eq_emod_of_nonneg h0] at hspec
  have hrem : 0 ≤ value (fmod p one) := by rw [hspec.2.1, value_one]; omega
  have hlt : lt (fmod p one) zero = false := by
    rw [Bool.eq_false_iff, Ne, lt_iff, value_zero]; omega
  rwa [remEuclidOne_of_fmod_not_neg p hlt]

theorem remEuclidOne_of_unit (p : F32) (h0 : le zero p = true) (h1 : lt p one = true) : remEuclidOne p = p := by
  obtain ⟨np, n1, hlt⟩ := (lt_iff _ _).1 h1
  have hv := value_nonneg_of_le h0
  obtain ⟨-, hval, hsign⟩ := remEuclidOne_of_nonneg p
    (isFinite_of_unit p h0 ((le_iff _ _).2 ⟨np, n1, hlt.le⟩)) hv
  exact eq_of_sign_of_value hsign (by rw [hval, Int.emod_eq_of_lt hv hlt])

/-- A difference that is a binary32 value is exact. -/
theorem value_sub_of_representable (a b r : F32) (ha : isFinite a = true) (hb : isFinite b = true) (hr : isNaN r = false)
    (h : value r = value a - value b) : value (sub a b) = value a - value b := by
  rw [(sub_finite a b ha hb).2, ← h, roundInt_value r hr]

theorem sign_sub_of_le (a b : F32) (ha : isFinite a = true) (hb : isFinite b = true) (hneg : a ≠ negZero)
    (h : value b ≤ value a) : sign (sub a b) = false := by
  obtain ⟨-, -, hzero, hsign⟩ := add_sub_signs a b ha hb
  by_cases hd : value a - value b = 0
  · rw [hzero hd, if_neg fun he => hneg he.1]; decide
  · rw [hsign hd, decide_eq_false_iff_not]; omega

/-- A sum in [1, 2) is wrapped by one exact subtraction of 1.0. -/
theorem remEuclidOne_of_one_le (p : F32) (h1 : le one p = true) (h2 : lt p 0x40000000#32 = true) :
    remEuclidOne p = sub p one ∧ value (remEuclidOne p) = value p - value one := by
  obtain ⟨np, ntwo, hlt⟩ := (lt_iff _ _).1 h2
  have hle := ((le_iff _ _).1 h1).2.2
  have two : value (0x40000000#32 : F32) = 2 ^ 149 + 2 ^ 149 := by decide +kernel
  have hf : isFinite p = true :=
    isFinite_of_between p _ _ h1 ((le_iff _ _).2 ⟨np, ntwo, hlt.le⟩) (by decide) (by decide)
  rw [value_one] at hle
  rw [two] at hlt
  have hpos : 0 < value p := by omega
  have hp : p ≠ negZero := fun he => by rw [((eq_negZero_iff p).1 he).2] at hpos; omega
  obtain ⟨hnan, hval, hsign⟩ := remEuclidOne_of_nonneg p hf hpos.le
  have hrem : value (remEuclidOne p) = value p - value one := by rw [hval, value_one]; omega
  refine ⟨eq_of_sign_of_value ?_ ?_, hrem⟩
  · rw [hsign, sign_eq_false_of_value_pos hpos, sign_sub_of_le p one hf (by decide) hp (by rw [value_one]; exact hle)]
  · rw [value_sub_of_representable p one _ hf (by decide) hnan hrem, hrem]

theorem isNaN_remEuclidOne (p : F32) (h : isFinite p = false) : isNaN (remEuclidOne p) = true := by
  have hp : isNaN p = true ∨ isInf p = true := by
    rw [Bool.eq_false_iff, Ne, isFinite_iff, not_and_or, Bool.not_eq_false, Bool.not_eq_false] at h
    exact h
  have hnan : isNaN (fmod p one) = true := isNaN_fmod p one (hp.imp_right fun hi => .inr (.inl hi))
  rwa [remEuclidOne_of_fmod_not_neg p (comparisons_of_isNaN _ zero (.inl hnan)).1]

/-! ### The order that an operation keeps -/

protected theorem le_trans {a b c : F32} (hab : le a b = true) (hbc : le b c = true) : le a c = true := by
  obtain ⟨na, -, vab⟩ := (le_iff _ _).1 hab
  obtain ⟨-, nc, vbc⟩ := (le_iff _ _).1 hbc
  exact (le_iff _ _).2 ⟨na, nc, vab.trans vbc⟩

protected theorem lt_of_le_of_lt {a b c : F32} (hab : le a b = true) (hbc : lt b c = true) : lt a c = true := by
  obtain ⟨na, -, vab⟩ := (le_iff _ _).1 hab
  obtain ⟨-, nc, vbc⟩ := (lt_iff _ _).1 hbc
  exact (lt_iff _ _).2 ⟨na, nc, vab.trans_lt vbc⟩

protected theorem le_of_lt {a b : F32} (h : lt a b = true) : le a b = true := by
  obtain ⟨na, nb, hlt⟩ := (lt_iff _ _).1 h
  exact (le_iff _ _).2 ⟨na, nb, hlt.le⟩

protected theorem le_of_not_lt {a b : F32} (ha : isNaN a = false) (hb : isNaN b = false) (h : lt a b = false) :
    le b a = true := by
  rw [Bool.eq_false_iff, Ne, lt_iff] at h
  exact (le_iff _ _).2 ⟨hb, ha, by simpa [ha, hb] using h⟩

/-- Below 1.0 the largest value is 1 - 2^-24. -/
theorem le_largest_below_one {x : F32} (h0 : le zero x = true) (h1 : lt x one = true) : le x 0x3F7FFFFF#32 = true := by
  obtain ⟨nx, -, hlt⟩ := (lt_iff _ _).1 h1
  have hone : value one = magValue 0x3F800000 := by decide +kernel
  have hpred : value 0x3F7FFFFF#32 = magValue 0x3F7FFFFF := by decide +kernel
  have hx : value x = magValue (mag x) := by
    have := natAbs_value x
    have := value_nonneg_of_le h0
    omega
  rw [hx, hone] at hlt
  have hmag : mag x < 0x3F800000 := magValue_strictMono.lt_iff_lt.1 (by exact_mod_cast hlt)
  refine (le_iff _ _).2 ⟨nx, by decide, ?_⟩
  rw [hx, hpred]
  exact_mod_cast magValue_strictMono.monotone (show mag x ≤ 0x3F7FFFFF by omega)

theorem magValue_eq_zero_of_sign {x : F32} (hs : sign x = true) (h : 0 ≤ value x) : magValue (mag x) = 0 := by
  rw [value_eq_signed, hs] at h
  simp only [signed, if_true] at h
  omega

/-- A product of two values that are not negative is the exact one, rounded once; a sign stands on a zero only. -/
theorem mul_of_nonneg (a b : F32) (ha : isFinite a = true) (hb : isFinite b = true) (ha0 : 0 ≤ value a)
    (hb0 : 0 ≤ value b) : isNaN (mul a b) = false ∧
      value (mul a b) = magValue (roundMag (magValue (mag a) * magValue (mag b)) (2 ^ 149)) := by
  have hR := roundMag_le_infMag (magValue (mag a) * magValue (mag b)) (2 ^ 149)
  have hlt := infMag_lt
  rw [mul_finite a b ha hb, value_ofMag _ _ (by omega)]
  refine ⟨isNaN_ofMag _ _ hR, ?_⟩
  by_cases hs : (sign a != sign b) = true
  · have hprod : magValue (mag a) * magValue (mag b) = 0 := by
      cases hsa : sign a
      · have hsb : sign b = true := by simpa [hsa] using hs
        rw [magValue_eq_zero_of_sign hsb hb0, Nat.mul_zero]
      · rw [magValue_eq_zero_of_sign hsa ha0, Nat.zero_mul]
    have hround : roundMag 0 (2 ^ 149) = 0 := by decide +kernel
    rw [hprod, hround, magValue_zero]; simp
  · rw [if_neg hs]

section
variable {k a b : F32} (hk : isFinite k = true) (hk0 : isPlus k = true) (h0 : le zero a = true)
  (hab : le a b = true) (hb : isFinite b = true)
include hk hk0 h0 hab hb

/-- A product with a factor that has no sign keeps the order of the other one. -/
protected theorem mul_le_mul_left : le (mul k a) (mul k b) = true := by
  obtain ⟨-, -, hv⟩ := (le_iff _ _).1 hab
  have ha0 := value_nonneg_of_le h0
  have ha := isFinite_of_between a zero b h0 hab (by decide) hb
  obtain ⟨na, va⟩ := mul_of_nonneg k a hk ha (value_nonneg_of_isPlus k hk0) ha0
  obtain ⟨nb, vb⟩ := mul_of_nonneg k b hk hb (value_nonneg_of_isPlus k hk0) (ha0.trans hv)
  have hmag : magValue (mag a) ≤ magValue (mag b) := by
    rw [← natAbs_value, ← natAbs_value]; omega
  refine (le_iff _ _).2 ⟨na, nb, ?_⟩
  rw [va, vb]
  exact_mod_cast magValue_strictMono.monotone
    (roundMag_mono _ _ _ _ (by positivity) (by positivity)
      (Nat.mul_le_mul_right _ (Nat.mul_le_mul_left _ hmag)))

/-- Below a finite product a smaller one is finite. -/
theorem isFinite_mul_of_le (hkb : isFinite (mul k b) = true) : isFinite (mul k a) = true := by
  have ha := isFinite_of_between a zero b h0 hab (by decide) hb
  obtain ⟨na, va⟩ := mul_of_nonneg k a hk ha (value_nonneg_of_isPlus k hk0) (value_nonneg_of_le h0)
  refine isFinite_of_between _ zero (mul k b) ((le_iff _ _).2 ⟨by decide, na, ?_⟩)
    (F32.mul_le_mul_left hk hk0 h0 hab hb) (by decide) hkb
  rw [va, value_zero]; positivity

end

protected theorem sub_le_sub_right {a b c : F32} (ha : isFinite a = true) (hb : isFinite b = true)
    (hc : isFinite c = true) (h : le a b = true) : le (sub a c) (sub b c) = true := by
  obtain ⟨-, -, hv⟩ := (le_iff _ _).1 h
  obtain ⟨na, va⟩ := sub_finite a c ha hc
  obtain ⟨nb, vb⟩ := sub_finite b c hb hc
  exact (le_iff _ _).2 ⟨na, nb, by rw [va, vb]; exact roundInt_mono _ _ (by omega)⟩

protected theorem sub_le_sub_left {a b c : F32} (ha : isFinite a = true) (hb : isFinite b = true)
    (hc : isFinite c = true) (h : le a b = true) : le (sub c b) (sub c a) = true := by
  obtain ⟨-, -, hv⟩ := (le_iff _ _).1 h
  obtain ⟨na, va⟩ := sub_finite c a hc ha
  obtain ⟨nb, vb⟩ := sub_finite c b hc hb
  exact (le_iff _ _).2 ⟨nb, na, by rw [va, vb]; exact roundInt_mono _ _ (by omega)⟩

/-- The ramps `k·x − c` and `c − k·x` of a value that is not negative lie between their values at the ends of its
range. -/
theorem ramp_inRange {k c lo x hi : F32} (hk : isFinite k = true) (hk0 : isPlus k = true) (hc : isFinite c = true)
    (hhi : isFinite hi = true) (hkhi : isFinite (mul k hi) = true) (h0 : le zero lo = true) (h1 : le lo x = true)
    (h2 : le x hi = true) :
    Machine.inRange (sub (mul k lo) c) (sub (mul k hi) c) (sub (mul k x) c) = true ∧
    Machine.inRange (sub c (mul k hi)) (sub c (mul k lo)) (sub c (mul k x)) = true := by
  have hx0 := F32.le_trans h0 h1
  have hx := isFinite_of_between x zero hi hx0 h2 (by decide) hhi
  have hkx := isFinite_mul_of_le hk hk0 hx0 h2 hhi hkhi
  have hklo := isFinite_mul_of_le hk hk0 h0 h1 hx hkx
  have below := F32.mul_le_mul_left hk hk0 h0 h1 hx
  have above := F32.mul_le_mul_left hk hk0 hx0 h2 hhi
  rw [Machine.inRange_iff, Machine.inRange_iff]
  exact ⟨⟨F32.sub_le_sub_right hklo hkx hc below, F32.sub_le_sub_right hkx hkhi hc above⟩,
    F32.sub_le_sub_left hkx hkhi hc above, F32.sub_le_sub_left hklo hkx hc below⟩

/-- A magnitude of at most that of 1.0, with either sign, lies in [-1, 1]. -/
theorem inRange_ofMag (s : Bool) (m : Nat) (h : m ≤ 0x3F800000) : Machine.inRange negOne one (ofMag s m) = true := by
  have hone : value one = magValue 0x3F800000 := by decide +kernel
  have hneg : value negOne = -magValue 0x3F800000 := by decide +kernel
  have hinf : (0x3F800000 : Nat) < infMag := by decide
  have hlt := infMag_lt
  have hmag : magValue m ≤ magValue 0x3F800000 := magValue_strictMono.monotone h
  have hn := isNaN_ofMag s m (by omega)
  rw [Machine.inRange_iff, le_iff, le_iff, value_ofMag s m (by omega), hone, hneg]
  generalize magValue 0x3F800000 = M at *
  cases s
  · exact ⟨⟨by decide, hn, by simp⟩, hn, by decide, by simpa using hmag⟩
  · exact ⟨⟨by decide, hn, by simpa using hmag⟩, hn, by decide, by simp⟩

end Sys2Proof.F32

namespace Sys2Proof.Machine

theorem Osc.advance_phase_eq (o : Osc) :
    o.advance.phase = F32.remEuclidOne (F32.add o.phase (F32.div o.frequency o.sampleRate)) := rfl

/-- Settles O56: the remainder is exact, and the correction by 1.0 is taken for a negative one only. -/
theorem phaseWraps : Obligations.PhaseWraps := by
  rintro o p hp
  rw [Osc.advance_phase_eq, ← hp]
  refine ⟨by rw [hp]; rfl, F32.remEuclidOne_of_unit p, F32.remEuclidOne_of_one_le p, fun hf h0 => ?_,
    fun _ _ => ⟨F32.remEuclidOne_of_fmod_neg p, F32.remEuclidOne_of_fmod_not_neg p⟩, F32.isNaN_remEuclidOne p⟩
  obtain ⟨hnan, hval, -⟩ := F32.remEuclidOne_of_nonneg p hf (F32.value_nonneg_of_le h0)
  exact ⟨hnan, hval⟩

/-! ### The waveforms (R68 to R72) -/

theorem noiseDraw_inRange (t : Nat) (i : VoiceIx) : inRange F32.negOne F32.one (noiseDraw t i) = true :=
  F32.inRange_ofMag _ _ (Nat.le_of_lt_succ (Config.noise t i).2.isLt)

theorem not_isNaN_of_inRange {lo hi x : F32} (h : inRange lo hi x = true) : F32.isNaN x = false :=
  ((F32.le_iff _ _).1 ((inRange_iff _ _ _).1 h).1).2.1

/-- Settles O39: a draw has a magnitude of at most that of 1.0, and Noise answers it. -/
theorem noiseDrawsAreInRange : Obligations.NoiseDrawsAreInRange := fun t i =>
  have hrange := noiseDraw_inRange t i
  ⟨not_isNaN_of_inRange hrange, hrange, fun c o ho => ⟨by simp [Osc.tick, oscWave, ho], rfl⟩⟩

theorem oscSquare_inRange (ph : F32) : inRange F32.negOne F32.one (oscSquare ph) = true := by
  unfold oscSquare
  split
  · decide +kernel
  · decide +kernel

/-- The triangle rises from -1 at phase 0 to 1 at phase 0.5, and falls from there to -1 at phase 1. -/
theorem oscTriangle_inRange {ph : F32} (h0 : F32.le F32.zero ph = true) (h1 : F32.lt ph F32.one = true) :
    inRange F32.negOne F32.one (oscTriangle ph) = true := by
  have rise0 : F32.sub (F32.mul 0x40800000#32 F32.zero) F32.one = F32.negOne := by decide +kernel
  have riseHalf : F32.sub (F32.mul 0x40800000#32 0x3F000000#32) F32.one = F32.one := by decide +kernel
  have fallHalf : F32.sub 0x40400000#32 (F32.mul 0x40800000#32 0x3F000000#32) = F32.one := by decide +kernel
  have fall1 : F32.sub 0x40400000#32 (F32.mul 0x40800000#32 F32.one) = F32.negOne := by decide +kernel
  unfold oscTriangle
  split
  · next hlt =>
    have hrise := (F32.ramp_inRange (k := 0x40800000#32) (c := F32.one) (by decide) (by decide) (by decide) (by decide)
      (by decide +kernel) (by decide +kernel) h0 (F32.le_of_lt hlt)).1
    rwa [rise0, riseHalf] at hrise
  · next hge =>
    have hhalf : F32.le 0x3F000000#32 ph = true :=
      F32.le_of_not_lt ((F32.lt_iff _ _).1 h1).1 (by decide) (by simpa using hge)
    have hfall := (F32.ramp_inRange (k := 0x40800000#32) (c := 0x40400000#32) (by decide) (by decide) (by decide)
      (by decide) (by decide +kernel) (by decide +kernel) hhalf (F32.le_of_lt h1)).2
    rwa [fall1, fallHalf] at hfall

/-- The sawtooth rises from -1 at phase 0 to 1 - 2^-23 at the largest phase below 1. -/
theorem oscSaw_inRange {ph : F32} (h0 : F32.le F32.zero ph = true) (h1 : F32.lt ph F32.one = true) :
    inRange F32.negOne 0x3F7FFFFE#32 (oscSaw ph) = true := by
  have at0 : F32.sub (F32.mul 0x40000000#32 F32.zero) F32.one = F32.negOne := by decide +kernel
  have atLast : F32.sub (F32.mul 0x40000000#32 0x3F7FFFFF#32) F32.one = 0x3F7FFFFE#32 := by decide +kernel
  have hramp := (F32.ramp_inRange (k := 0x40000000#32) (c := F32.one) (by decide) (by decide) (by decide) (by decide)
    (by decide +kernel) (by decide +kernel) h0 (F32.le_largest_below_one h0 h1)).1
  rwa [at0, atLast] at hramp

/-- Settles O38, waveform by waveform. -/
theorem waveformsAreBounded : Obligations.WaveformsAreBounded := by
  intro c ph w t i h0 h1 hsine
  obtain ⟨hlow, hhigh⟩ := (inRange_iff _ _ _).1 (oscSaw_inRange h0 h1)
  have hlt : F32.lt (oscSaw ph) F32.one = true := F32.lt_of_le_of_lt hhigh (by decide +kernel)
  refine ⟨?_, hlt⟩
  cases w with
  | sine => exact hsine rfl
  | square => exact oscSquare_inRange ph
  | triangle => exact oscTriangle_inRange h0 h1
  | sawtooth => exact (inRange_iff _ _ _).2 ⟨hlow, F32.le_of_lt hlt⟩
  | noise => exact noiseDraw_inRange t i

/-- The sines that R68 prints, at the default `sin_f32`. -/
theorem oscSine_default :
    oscSine Config.default 0x00000000#32 = 0x00000000#32 ∧ oscSine Config.default 0x3C2377EE#32 = 0x3D804DC4#32 ∧
    oscSine Config.default 0x3E800000#32 = 0x3F800000#32 ∧ oscSine Config.default 0x3F000000#32 = 0xB3BBBD2E#32 ∧
    oscSine Config.default 0x3F400000#32 = 0xBF800000#32 := by
  decide +kernel

/-- Settles O54: the selector answers the formula of its waveform, the two of them with a branch on either side of it. -/
theorem waveformFormulas : Obligations.WaveformFormulas := by
  refine ⟨fun c d ph => ⟨rfl, fun hlt => ?_, fun hge => ?_, rfl, rfl⟩, fun _ _ _ => rfl, fun _ => oscSine_default⟩
  · simp [oscWave, oscSquare, oscTriangle, hlt, F32.one]
  · simp [oscWave, oscSquare, oscTriangle, hge, F32.negOne]

end Sys2Proof.Machine

/-! SUPPORT. The envelope (41_envelope.md): the step that each stage takes (R81), and the two outcomes of each ramp (R82,
R83, R85), which together are the table of R78. -/

namespace Sys2Proof.Machine

/-! ### The step of a stage (R81) -/

theorem Env.process_of_attack {e : Env} (hs : e.stage = .attack) : e.process = e.attackStep := by
  rw [Env.process, hs]

theorem Env.process_of_decay {e : Env} (hs : e.stage = .decay) : e.process = e.decayStep := by
  rw [Env.process, hs]

theorem Env.process_of_sustain {e : Env} (hs : e.stage = .sustain) : e.process = e := by
  rw [Env.process, hs]

theorem Env.process_of_release {e : Env} (hs : e.stage = .release) : e.process = e.releaseStep := by
  rw [Env.process, hs]

theorem Env.process_of_idle {e : Env} (hs : e.stage = .idle) : e.process = e := by
  rw [Env.process, hs]

/-! ### The outcomes of a ramp (R82, R83, R85) -/

theorem Env.attackStep_end {e : Env} (h : F32.ge (F32.add e.level (F32.div F32.one e.attackRate)) F32.one = true) :
    e.attackStep = { e with level := F32.one, stage := .decay } :=
  if_pos h

theorem Env.attackStep_ramp {e : Env} (h : F32.ge (F32.add e.level (F32.div F32.one e.attackRate)) F32.one = false) :
    e.attackStep = { e with level := F32.add e.level (F32.div F32.one e.attackRate) } :=
  if_neg (Bool.eq_false_iff.1 h)

theorem Env.decayStep_end {e : Env}
    (h : F32.le (F32.sub e.level (F32.div F32.one e.decayRate)) e.sustainLevel = true) :
    e.decayStep = { e with level := e.sustainLevel, stage := .sustain } :=
  if_pos h

theorem Env.decayStep_ramp {e : Env}
    (h : F32.le (F32.sub e.level (F32.div F32.one e.decayRate)) e.sustainLevel = false) :
    e.decayStep = { e with level := F32.sub e.level (F32.div F32.one e.decayRate) } :=
  if_neg (Bool.eq_false_iff.1 h)

theorem Env.releaseStep_ramp {e : Env}
    (h : F32.le (F32.sub e.level (F32.div F32.one e.releaseRate)) F32.zero = false) :
    e.releaseStep = { e with level := F32.sub e.level (F32.div F32.one e.releaseRate) } :=
  if_neg (Bool.eq_false_iff.1 h)

/-- Settles O34, stage by stage: each ramp by its two outcomes, and the stages without a ramp keep the envelope. -/
theorem envelopeTransitions : Obligations.EnvelopeTransitions := by
  intro e
  refine ⟨rfl, rfl, rfl, ?attack, ?decay, ?release, Env.process_of_sustain, Env.process_of_idle⟩
  case attack =>
    rintro l rfl hs
    rw [Env.process_of_attack hs]
    exact ⟨Env.attackStep_end, Env.attackStep_ramp⟩
  case decay =>
    rintro l rfl hs
    rw [Env.process_of_decay hs]
    exact ⟨Env.decayStep_end, Env.decayStep_ramp⟩
  case release =>
    rintro l rfl hs
    exact ⟨Env.process_release_end hs, fun h => (Env.process_of_release hs).trans (Env.releaseStep_ramp h)⟩

end Sys2Proof.Machine

/-! SUPPORT. The filter (42_filter.md): what a zero input and any other input give (R96, R97), the tap of each mode (R98),
and how a NaN spreads through a stage and through the cascade (R96, R104). -/

namespace Sys2Proof.F32

/-- A NaN input is not the zero of R97. -/
theorem eq_zero_eq_false_of_isNaN {x : F32} (h : isNaN x = true) : eq x zero = false := by
  obtain ⟨-, -, -, -, heq⟩ := comparisons_of_isNaN x zero (.inl h)
  exact heq

end Sys2Proof.F32

namespace Sys2Proof.Machine

/-! ### The two outcomes of `flt_process` (R96, R97) -/

theorem Flt.process_of_zero {f : Flt} {x : F32} (h : F32.eq x F32.zero = true) : f.process x = (f, x) :=
  if_pos h

theorem Flt.process_of_not_zero {f : Flt} {x : F32} (h : F32.eq x F32.zero = false) :
    f.process x = (f.cascade x, fltTap f.mode x (f.cascade x).buf0 (f.cascade x).buf3) :=
  if_neg (Bool.eq_false_iff.1 h)

/-- What holds of the filter as it was and of the filter after the cascade holds after any input. -/
theorem Flt.process_keeps {P : Flt → Prop} {f : Flt} {x : F32} (hzero : P f) (hcascade : P (f.cascade x)) :
    P (f.process x).1 := by
  cases hx : F32.eq x F32.zero
  · rwa [Flt.process_of_not_zero hx]
  · rwa [Flt.process_of_zero hx]

/-- Settles O35: both zeros are equal to +0.0, so the cascade is not run. -/
theorem silentInputFreezesTheFilter : Obligations.SilentInputFreezesTheFilter := by
  rintro f x (rfl | rfl)
  · exact Flt.process_of_zero (by decide)
  · exact Flt.process_of_zero (by decide)

/-! ### The tap of each mode (R98) -/

@[simp] theorem fltTap_lowpass (x b0 b3 : F32) : fltTap .lowpass x b0 b3 = b3 := rfl
@[simp] theorem fltTap_highpass (x b0 b3 : F32) : fltTap .highpass x b0 b3 = F32.sub x b3 := rfl
@[simp] theorem fltTap_bandpass (x b0 b3 : F32) : fltTap .bandpass x b0 b3 = F32.sub b0 b3 := rfl

/-- Settles O36: the cascade writes the four stages, and the output is the tap of the mode. -/
theorem filterCascade : Obligations.FilterCascade := by
  intro f x b0 b1 b2 b3 hx h0 h1 h2 h3
  have hcascade : f.cascade x = { f with buf0 := b0, buf1 := b1, buf2 := b2, buf3 := b3 } := by subst b0 b1 b2 b3; rfl
  rw [Flt.process_of_not_zero hx, hcascade]
  refine ⟨rfl, ?lowpass, ?highpass, ?bandpass⟩
  case lowpass => intro hm; rw [hm, fltTap_lowpass]
  case highpass => intro hm; rw [hm, fltTap_highpass]
  case bandpass => intro hm; rw [hm, fltTap_bandpass]

/-! ### A NaN in the cascade (R96, R104) -/

/-- A later stage reads its own buffer and the stage before it. -/
theorem isNaN_onePole (c : F32) {prev buf : F32} (h : F32.isNaN prev = true ∨ F32.isNaN buf = true) :
    F32.isNaN (onePole c prev buf) = true :=
  F32.isNaN_add _ _ (.inr (F32.isNaN_mul _ _ (.inr (F32.isNaN_sub _ _ h))))

/-- Stage 0 reads the input and the old buffers 0 and 1; buffer 1 through the feedback. -/
theorem Flt.isNaN_stage0 {f : Flt} {x : F32}
    (h : F32.isNaN x = true ∨ F32.isNaN f.buf0 = true ∨ F32.isNaN f.buf1 = true) : F32.isNaN (f.stage0 x) = true := by
  have hterm : F32.isNaN (F32.sub x f.buf0) = true ∨
      F32.isNaN (F32.mul f.feedback (F32.sub f.buf0 f.buf1)) = true := by
    rcases h with hx | hfb
    · exact .inl (F32.isNaN_sub _ _ (.inl hx))
    · exact .inr (F32.isNaN_mul _ _ (.inr (F32.isNaN_sub _ _ hfb)))
  exact F32.isNaN_add _ _ (.inr (F32.isNaN_mul _ _ (.inr (F32.isNaN_add _ _ hterm))))

theorem Flt.isNaN_cascade_buf0 {f : Flt} {x : F32}
    (h : F32.isNaN x = true ∨ F32.isNaN f.buf0 = true ∨ F32.isNaN f.buf1 = true) :
    F32.isNaN (f.cascade x).buf0 = true :=
  Flt.isNaN_stage0 h

theorem Flt.isNaN_cascade_buf1 {f : Flt} {x : F32}
    (h : F32.isNaN (f.cascade x).buf0 = true ∨ F32.isNaN f.buf1 = true) : F32.isNaN (f.cascade x).buf1 = true :=
  isNaN_onePole _ h

theorem Flt.isNaN_cascade_buf2 {f : Flt} {x : F32}
    (h : F32.isNaN (f.cascade x).buf1 = true ∨ F32.isNaN f.buf2 = true) : F32.isNaN (f.cascade x).buf2 = true :=
  isNaN_onePole _ h

theorem Flt.isNaN_cascade_buf3 {f : Flt} {x : F32}
    (h : F32.isNaN (f.cascade x).buf2 = true ∨ F32.isNaN f.buf3 = true) : F32.isNaN (f.cascade x).buf3 = true :=
  isNaN_onePole _ h

/-- What makes stage 0 a NaN makes all four buffers NaN. -/
theorem Flt.isNaN_cascade {f : Flt} {x : F32}
    (h : F32.isNaN x = true ∨ F32.isNaN f.buf0 = true ∨ F32.isNaN f.buf1 = true) :
    F32.isNaN (f.cascade x).buf0 = true ∧ F32.isNaN (f.cascade x).buf1 = true ∧
    F32.isNaN (f.cascade x).buf2 = true ∧ F32.isNaN (f.cascade x).buf3 = true := by
  have h0 := Flt.isNaN_cascade_buf0 h
  have h1 := Flt.isNaN_cascade_buf1 (.inl h0)
  have h2 := Flt.isNaN_cascade_buf2 (.inl h1)
  exact ⟨h0, h1, h2, Flt.isNaN_cascade_buf3 (.inl h2)⟩

/-- Settles O37: each buffer stays a NaN in both outcomes of `flt_process`, and the cascade, which a NaN input runs too,
carries a NaN forward from the stage that reads it. -/
theorem naNStaysInTheFilter : Obligations.NaNStaysInTheFilter := by
  intro f x
  refine ⟨?buf0_stays, ?buf1_stays, ?buf2_stays, ?buf3_stays, ?buf2_reaches_buf3, ?stage0_reaches_all⟩
  case buf0_stays =>
    exact fun h => Flt.process_keeps (P := (F32.isNaN ·.buf0 = true)) h (Flt.isNaN_cascade_buf0 (.inr (.inl h)))
  case buf1_stays =>
    exact fun h => Flt.process_keeps (P := (F32.isNaN ·.buf1 = true)) h (Flt.isNaN_cascade_buf1 (.inr h))
  case buf2_stays =>
    exact fun h => Flt.process_keeps (P := (F32.isNaN ·.buf2 = true)) h (Flt.isNaN_cascade_buf2 (.inr h))
  case buf3_stays =>
    exact fun h => Flt.process_keeps (P := (F32.isNaN ·.buf3 = true)) h (Flt.isNaN_cascade_buf3 (.inr h))
  case buf2_reaches_buf3 =>
    intro hx h
    rw [Flt.process_of_not_zero hx]
    exact Flt.isNaN_cascade_buf3 (.inl (Flt.isNaN_cascade_buf2 (.inr h)))
  case stage0_reaches_all =>
    intro h
    have hx : F32.eq x F32.zero = false := by
      rcases h with hnan | ⟨hx, -⟩
      · exact F32.eq_zero_eq_false_of_isNaN hnan
      · exact hx
    rw [Flt.process_of_not_zero hx]
    exact Flt.isNaN_cascade (h.imp_right And.right)

end Sys2Proof.Machine

/-! SUPPORT. The voice (43_voice.md): the two ways an instruction frees one (R106, R111), and the pitch map of R107: its
integers are exact, and at a whole number of octaves so is every operation of it. -/

namespace Sys2Proof.Machine

/-! ### The end of a voice (R106, R111) -/

/-- Of the parameters only an accepted sample rate frees a voice (R111). -/
theorem Voice.applyParam_frees {c : Config} {v : Voice} {p : Param} (ha : v.active = true)
    (hf : (v.applyParam c p).active = false) : ∃ x, p = .sampleRate x ∧ F32.isRate x = true := by
  cases p with
  | sampleRate x =>
    refine ⟨x, rfl, ?_⟩
    simp only [Voice.applyParam, Voice.applySampleRate] at hf
    split at hf
    · assumption
    · exact absurd (ha.symm.trans hf) nofun
  | _ => exact absurd (ha.symm.trans hf) nofun

/-- `voice_process` frees a voice only where it finds the envelope Idle (R106). -/
theorem Voice.process_frees {c : Config} {d : F32} {v : Voice} (ha : v.active = true)
    (hf : (v.process c d).1.active = false) : v.env.stage = .idle := by
  by_contra hs
  rw [Voice.process_of_running c d ha hs, Voice.sound_active] at hf
  exact absurd (ha.symm.trans hf) nofun

/-- Replacing a voice frees none, if the one replaced is not freed. -/
theorem Pool.put_active {vs : Pool} {i k : VoiceIx} {w : Voice} (hw : (vs.voice i).active = true → w.active = true)
    (ha : (vs.voice k).active = true) : ((vs.put i w).voice k).active = true :=
  Pool.put_rel (R := fun v w => v.active = true → w.active = true) (fun _ => id) vs i w hw k ha

/-- No NOTE_ON frees a voice (C10). -/
theorem Pool.noteOn_active (c : Config) {vs : Pool} (n : Note) {k : VoiceIx} (ha : (vs.voice k).active = true) :
    ((vs.noteOn c n).voice k).active = true := by
  rcases vs.noteOn_cases c n with ⟨i, -, h⟩ | ⟨i, -, -, h⟩ | ⟨-, -, h⟩ <;> rw [h]
  · exact Pool.put_active (fun hi => hi) ha
  · exact Pool.put_active (fun _ => rfl) ha
  · exact ha

/-- No NOTE_OFF frees a voice (C10). -/
theorem Pool.noteOff_active {vs : Pool} (n : Note) {k : VoiceIx} (ha : (vs.voice k).active = true) :
    ((vs.noteOff n).voice k).active = true := by
  rcases vs.noteOff_cases n with ⟨i, -, h⟩ | ⟨-, h⟩ <;> rw [h]
  · exact Pool.put_active (fun hi => hi) ha
  · exact ha

/-- The instruction that frees a voice is an accepted SET_SRATE, or the SAMPLE that finds its envelope Idle. -/
theorem exec_frees {i : Instr} {s t : State} {k : VoiceIx} (h : exec i s = .next t)
    (ha : (s.voices.voice k).active = true) (hf : (t.voices.voice k).active = false) :
    (∃ x, i = .setSrate x ∧ F32.isFinite x = true ∧ F32.gt x F32.zero = true) ∨
    (i = .sample ∧ (s.voices.voice k).env.stage = .idle) := by
  rw [(exec_voices h).1] at hf
  have param : ∀ p, poolAfter s i = s.voices.applyParam s.cfg p → ∃ x, p = .sampleRate x ∧ F32.isRate x = true :=
    fun p hp => Voice.applyParam_frees ha (by rwa [hp, Pool.applyParam_get] at hf)
  cases i
  case noteOn n => exact absurd ((Pool.noteOn_active s.cfg n ha).symm.trans hf) nofun
  case noteOff n => exact absurd ((Pool.noteOff_active n ha).symm.trans hf) nofun
  case sample =>
    rw [poolAfter, Pool.advance_get] at hf
    exact .inr ⟨rfl, Voice.process_frees ha hf⟩
  case setSrate x =>
    obtain ⟨_, ⟨⟩, hx⟩ := param _ rfl
    exact .inl ⟨x, rfl, (Bool.and_eq_true _ _).mp hx⟩
  -- every other broadcast is of a parameter that is no sample rate
  all_goals obtain ⟨_, ⟨⟩, -⟩ := param _ rfl

/-- Settles O16: an instruction by `exec_frees`, and a step by what it can do: a wait and a reserved word keep the
voices, and the rest are `rst` and an instruction. -/
theorem voicesAreFreedOnlyByRateOrIdleSample : Obligations.VoicesAreFreedOnlyByRateOrIdleSample := by
  refine ⟨fun i s t k => exec_frees, fun s t k h ha hf => ?_⟩
  rcases step_cases s with ⟨-, hs⟩ | ⟨rest, hi, -⟩ | ⟨w, rest, e, -, -, hs⟩ | ⟨w, rest, i, hi, hd, hs⟩
  case inl | inr.inr.inl =>
    rw [hs] at h
    cases h
    exact absurd (ha.symm.trans hf) nofun
  case inr.inl => exact .inl ⟨rest, hi⟩
  case inr.inr.inr =>
    rw [hs] at h
    refine .inr ⟨w, rest, hi, ?_⟩
    rcases exec_frees h ha hf with ⟨x, rfl, hx⟩ | ⟨rfl, hidle⟩
    · exact .inl ⟨x, hd, hx⟩
    · exact .inr ⟨hd, hidle⟩

end Sys2Proof.Machine

namespace Sys2Proof.F32

/-! ### Integers (R11: `i2f32`) -/

/-- `i2f32` is exact on an integer of at most 24 places: its sign, and its magnitude in units of 2^-149. -/
theorem ofInt_eq (n : Int) (h : n.natAbs < 2 ^ 24) :
    ∃ m < infMag, ofInt n = ofMag (decide (n < 0)) m ∧ magValue m = n.natAbs * 2 ^ 149 := by
  have hinf : 2 ^ 24 * 2 ^ 149 < magValue infMag := by decide +kernel
  have hlt : n.natAbs * 2 ^ 149 < magValue infMag := (Nat.mul_lt_mul_of_pos_right h (by positivity)).trans hinf
  obtain ⟨m, hm, hv⟩ := exists_magValue_eq n.natAbs 149 h hlt.le
  refine ⟨m, magValue_strictMono.lt_iff_lt.1 (hv ▸ hlt), ?_, hv⟩
  rw [ofInt, ← hv, ← Nat.mul_one (magValue m), roundMag_exact m 1 Nat.one_pos hm]

theorem isFinite_ofMag (s : Bool) (m : Nat) (h : m < infMag) : isFinite (ofMag s m) = true := by
  have := infMag_lt
  rw [isFinite, mag_ofMag s m (by omega), decide_eq_true h]

theorem ofInt_spec (n : Int) (h : n.natAbs < 2 ^ 24) :
    isFinite (ofInt n) = true ∧ sign (ofInt n) = decide (n < 0) ∧ value (ofInt n) = n * 2 ^ 149 := by
  obtain ⟨m, hm, he, hv⟩ := ofInt_eq n h
  have := infMag_lt
  rw [he, sign_ofMag _ _ (by omega), value_ofMag _ _ (by omega), hv]
  refine ⟨isFinite_ofMag _ m hm, rfl, ?_⟩
  simp only [decide_eq_true_eq]
  split <;> omega

/-- No integer is -0.0: `i2f32(0)` is +0.0. -/
theorem ofInt_ne_negZero (n : Int) (h : n.natAbs < 2 ^ 24) : ofInt n ≠ negZero := by
  obtain ⟨-, hs, hv⟩ := ofInt_spec n h
  rw [Ne, eq_negZero_iff, hs, hv, decide_eq_true_eq]
  omega

/-- The magnitude of an integer in units of 2^-149. -/
theorem magValue_mag_ofInt (n : Int) (h : n.natAbs < 2 ^ 24) : magValue (mag (ofInt n)) = n.natAbs * 2 ^ 149 := by
  rw [← natAbs_value, (ofInt_spec n h).2.2, Int.natAbs_mul]; rfl

/-- A difference of integers is exact. -/
theorem sub_ofInt (a b : Int) (ha : a.natAbs < 2 ^ 24) (hb : b.natAbs < 2 ^ 24) (h : (a - b).natAbs < 2 ^ 24) :
    sub (ofInt a) (ofInt b) = ofInt (a - b) := by
  obtain ⟨fa, -, va⟩ := ofInt_spec a ha
  obtain ⟨fb, -, vb⟩ := ofInt_spec b hb
  obtain ⟨fd, sd, vd⟩ := ofInt_spec (a - b) h
  have hexact : value (ofInt (a - b)) = value (ofInt a) - value (ofInt b) := by rw [va, vb, vd]; ring
  have hval := value_sub_of_representable _ _ _ fa fb ((isFinite_iff _).1 fd).1 hexact
  refine eq_of_sign_of_value ?_ (hval.trans hexact.symm)
  obtain ⟨-, -, hzero, hsign⟩ := add_sub_signs _ _ fa fb
  rw [sd]
  by_cases h0 : value (ofInt a) - value (ofInt b) = 0
  · have hd : ¬a - b < 0 := by rw [← hexact, vd] at h0; omega
    rw [hzero h0, if_neg fun hz => ofInt_ne_negZero a ha hz.1, decide_eq_false hd]
    decide
  · rw [hsign h0, ← hexact, vd, decide_eq_decide]
    omega

/-- A quotient of integers that is an integer is exact. -/
theorem div_ofInt (k d : Int) (hk : k.natAbs < 2 ^ 24) (hd : d.natAbs < 2 ^ 24) (hkd : (k * d).natAbs < 2 ^ 24)
    (hpos : 0 < d) : div (ofInt (k * d)) (ofInt d) = ofInt k := by
  obtain ⟨fn, sn, -⟩ := ofInt_spec (k * d) hkd
  obtain ⟨fd, sd, vd⟩ := ofInt_spec d hd
  obtain ⟨m, hm, he, hv⟩ := ofInt_eq k hk
  have hden : 0 < d.natAbs * 2 ^ 149 := by positivity
  have hsign : (decide (k * d < 0) != decide (d < 0)) = decide (k < 0) := by
    rw [decide_eq_false hpos.not_gt, Bool.bne_false, decide_eq_decide]
    exact ⟨fun h => neg_of_mul_neg_left h hpos.le, fun h => mul_neg_of_neg_of_pos h hpos⟩
  have hzero : isZero (ofInt d) = false := by
    rw [Bool.eq_false_iff, Ne, isZero_iff_value, vd]; omega
  have hscale : (k * d).natAbs * 2 ^ 149 * 2 ^ 149 = magValue m * (d.natAbs * 2 ^ 149) := by
    rw [hv, Int.natAbs_mul]; ring
  rw [div_finite _ _ fn fd hzero, sn, sd, hsign, magValue_mag_ofInt _ hkd, magValue_mag_ofInt d hd, hscale,
    roundMag_exact m _ hden hm.le, he]

/-! ### Powers of two -/

/-- `e` more in the exponent of a normal magnitude is a factor 2^e. -/
theorem magValue_add_exponent (m e : Nat) (h : 2 ^ 23 ≤ m) : magValue (m + e * 2 ^ 23) = magValue m * 2 ^ e := by
  obtain ⟨a, f, hf, hlead, rfl⟩ : ∃ a f, f ≤ 2 ^ 24 ∧ 2 ^ 23 ≤ f ∧ m = a * 2 ^ 23 + f :=
    ⟨m / 2 ^ 23 - 1, 2 ^ 23 + m % 2 ^ 23, by omega, by omega, by omega⟩
  have hsum : a * 2 ^ 23 + f + e * 2 ^ 23 = (a + e) * 2 ^ 23 + f := by ring
  rw [hsum, magValue_shift_add _ f hf (.inr hlead), magValue_shift_add _ f hf (.inr hlead), pow_add, Nat.mul_assoc]

/-- The magnitude pattern of 2^(e - 126). -/
def powMag (e : Nat) : Nat := 2 ^ 23 + e * 2 ^ 23

theorem magValue_powMag (e : Nat) : magValue (powMag e) = 2 ^ 23 * 2 ^ e := by
  rw [powMag, magValue_add_exponent _ e le_rfl]; rfl

theorem powMag_lt_infMag {e : Nat} (h : e < 254) : powMag e < infMag := by
  unfold powMag infMag; omega

/-- 2^x is exact at an integer: the fraction is 0, whose power is 1. -/
theorem exp2Rounded_ofInt (k : Int) (e : Nat) (he : (e : Int) = k + 126) (hmax : k < 128) :
    exp2Rounded (ofInt k) = ofMag false (powMag e) := by
  obtain ⟨fk, -, vk⟩ := ofInt_spec k (by omega)
  have hint : k * 2 ^ 149 / 2 ^ 149 = k := Int.mul_ediv_cancel k (by decide)
  have hfrac : k * 2 ^ 149 % 2 ^ 149 = 0 := Int.mul_emod_left k _
  have hone : exp2Fixed 0 = 2 ^ exp2Bits := by decide +kernel
  have hplaces : (k + 150).toNat = e + 24 := by omega
  have hscale : 2 ^ exp2Bits * 2 ^ (e + 24) = magValue (powMag e) * 2 ^ (exp2Bits + 1) := by
    rw [magValue_powMag]; ring
  unfold exp2Rounded
  rw [((isFinite_iff _).1 fk).1, vk]
  simp only [hint, hfrac]
  rw [if_neg (by decide), if_neg (by omega), if_neg (by omega), Int.toNat_zero, hone, hplaces, hscale,
    roundMag_exact _ _ (by positivity) (powMag_lt_infMag (by omega)).le]

/-- A product by 2^(e - 126) with a normal result is exact: it changes the exponent only. -/
theorem mul_powMag (m r e : Nat) (hm : m < infMag) (hr : r < infMag) (he : e < 254) (hm1 : 2 ^ 23 ≤ m)
    (hr1 : 2 ^ 23 ≤ r) (h : r + 126 * 2 ^ 23 = m + e * 2 ^ 23) :
    mul (ofMag false m) (ofMag false (powMag e)) = ofMag false r := by
  have hinf := infMag_lt
  have hp := powMag_lt_infMag he
  have hscale : magValue m * magValue (powMag e) = magValue r * 2 ^ 149 := by
    calc magValue m * magValue (powMag e) = magValue (m + e * 2 ^ 23) * 2 ^ 23 := by
          rw [magValue_powMag, magValue_add_exponent m e hm1]; ring
      _ = magValue r * 2 ^ 126 * 2 ^ 23 := by rw [← h, magValue_add_exponent r 126 hr1]
      _ = magValue r * 2 ^ 149 := by ring
  rw [mul_finite _ _ (isFinite_ofMag _ m hm) (isFinite_ofMag _ _ hp), sign_ofMag _ _ (by omega),
    sign_ofMag _ _ (by omega), mag_ofMag _ _ (by omega), mag_ofMag _ _ (by omega), hscale,
    roundMag_exact r _ (by positivity) hr.le]
  rfl

end Sys2Proof.F32

namespace Sys2Proof.Machine

/-! ### The pitch map (R107, D5) -/

theorem noteFreq_exp2 (c : Config) (f : FnChoice) (n : Note) (h : c.pitchFn = .exp2 f) :
    noteFreq c n = F32.mul 0x43DC0000#32 (f.exp232 (F32.div (F32.sub n.toF32 0x428A0000#32) 0x41400000#32)) := by
  rw [noteFreq, h]

theorem noteFreq_table (c : Config) (k : Nat) (n : Note) (h : c.pitchFn = .table k) :
    noteFreq c n = Config.noteTable k n := by
  rw [noteFreq, h]

/-- The argument of `exp2_f32` for a note that is `k` octaves from note 69 is exactly `k`. -/
theorem octaves_from_69 (n : Note) (k : Int) (h : (n.toNat : Int) = 69 + 12 * k) :
    F32.div (F32.sub n.toF32 0x428A0000#32) 0x41400000#32 = F32.ofInt k := by
  have hn := n.isLt
  have h69 : (0x428A0000#32 : F32) = F32.ofInt 69 := by decide +kernel
  have h12 : (0x41400000#32 : F32) = F32.ofInt 12 := by decide +kernel
  have hdiff : (n.toNat : Int) - 69 = k * 12 := by omega
  rw [h69, h12, Note.toF32, F32.sub_ofInt _ _ (by omega) (by omega) (by omega), hdiff,
    F32.div_ofInt k 12 (by omega) (by omega) (by omega) (by omega)]

/-- Settles O40: the argument of `exp2_f32` is the number of octaves, its power is exact, and the product by it changes
the exponent of 440.0 only. -/
theorem octavesAreExact : Obligations.OctavesAreExact := by
  intro n k h
  have hn := n.isLt
  obtain ⟨e, he⟩ : ∃ e : Nat, (e : Int) = k + 126 := ⟨(k + 126).toNat, by omega⟩
  obtain ⟨r, hr⟩ : ∃ r : Nat, (r : Int) = 0x43DC0000 + k * 2 ^ 23 := ⟨(0x43DC0000 + k * 2 ^ 23).toNat, by omega⟩
  have hinf : F32.infMag = 0x7F800000 := rfl
  have h440 : (0x43DC0000#32 : F32) = F32.ofMag false 0x43DC0000 := rfl
  rw [noteFreq_exp2 _ .correctlyRounded n rfl, octaves_from_69 n k h, FnChoice.exp232,
    F32.exp2Rounded_ofInt k e he (by omega), h440,
    F32.mul_powMag _ r e (by omega) (by omega) (by omega) (by omega) (by omega) (by omega), ← hr,
    BitVec.ofInt_natCast]
  rfl

/-- The ends of the range that R107 prints, at the default `exp2_f32`. -/
theorem noteFreq_default_ends :
    noteFreq Config.default 0 = 0x4102D012#32 ∧ noteFreq Config.default 127 = 0x4643FF6C#32 := by
  decide +kernel

/-- Settles O57: `i2f32` is exact on the 7 places of a note, and the map is the formula or the table that the
configuration names. -/
theorem pitchMapFormula : Obligations.PitchMapFormula := by
  refine ⟨fun n => ?_, noteFreq_exp2, noteFreq_table, noteFreq_default_ends⟩
  have hn := n.isLt
  obtain ⟨hf, hs, hv⟩ := F32.ofInt_spec n.toNat (by omega)
  exact ⟨((F32.isFinite_iff _).1 hf).1, hs.trans (decide_eq_false (by omega)), hv.trans (by rw [F32.value_one])⟩

end Sys2Proof.Machine

/-! SUPPORT. The voice manager (44_voice_manager.md): what NOTE_ON and NOTE_OFF leave of the pool for each outcome of
their scans (R113 to R115), and the output sum of a single sounding voice (R117), which rests on what adding a zero
gives (R11). -/

namespace Sys2Proof.Machine

/-! ### The outcomes of the scans (R113 to R115) -/

theorem Voice.holds_eq_false_iff (v : Voice) (n : Note) :
    v.holds n = false ↔ ¬(v.active = true ∧ v.note = some n) := by
  rw [← Voice.holds_iff, Bool.not_eq_true]

theorem Pool.holder_eq_some_of_first {vs : Pool} {n : Note} {i : VoiceIx} (ha : (vs.voice i).active = true)
    (hn : (vs.voice i).note = some n)
    (hfirst : ∀ j : VoiceIx, j < i → ¬((vs.voice j).active = true ∧ (vs.voice j).note = some n)) :
    vs.holder n = some i :=
  (vs.holder_some n i).2
    ⟨(Voice.holds_iff _ n).2 ⟨ha, hn⟩, fun j hj => (Voice.holds_eq_false_iff _ n).2 (hfirst j hj)⟩

theorem Pool.holder_eq_none_of_forall {vs : Pool} {n : Note}
    (h : ∀ j : VoiceIx, ¬((vs.voice j).active = true ∧ (vs.voice j).note = some n)) : vs.holder n = none :=
  (vs.holder_none n).2 fun j => (Voice.holds_eq_false_iff _ n).2 (h j)

theorem Pool.noteOn_of_firstFree (c : Config) {vs : Pool} {n : Note} {i : VoiceIx} (hn : vs.holder n = none)
    (hf : vs.firstFree = some i) : vs.noteOn c n = vs.put i ((vs.voice i).allocate c n) := by
  rcases vs.noteOn_cases c n with ⟨k, hk, -⟩ | ⟨k, -, hk, hp⟩ | ⟨-, hk, -⟩
  · cases hn.symm.trans hk
  · obtain rfl : i = k := Option.some.inj (hf.symm.trans hk)
    exact hp
  · cases hf.symm.trans hk

theorem Pool.noteOn_of_full (c : Config) {vs : Pool} {n : Note} (hn : vs.holder n = none)
    (hf : vs.firstFree = none) : vs.noteOn c n = vs := by
  rcases vs.noteOn_cases c n with ⟨k, hk, -⟩ | ⟨k, -, hk, -⟩ | ⟨-, -, hp⟩
  · cases hn.symm.trans hk
  · cases hf.symm.trans hk
  · exact hp

theorem Pool.noteOff_of_no_holder {vs : Pool} {n : Note} (hn : vs.holder n = none) : vs.noteOff n = vs := by
  rcases vs.noteOff_cases n with ⟨k, hk, -⟩ | ⟨-, hp⟩
  · cases hn.symm.trans hk
  · exact hp

/-! ### A command on one voice and its frame -/

theorem State.command_keeps_ports (s : State) (vs : Pool) : PortsAfterCommand s (s.command vs) :=
  ⟨State.command_out s vs, State.command_inbox s vs, State.command_noiseTick s vs, State.command_cfg s vs⟩

theorem State.command_put_onlyVoice (s : State) (i : VoiceIx) (v : Voice) :
    OnlyVoice s (s.command (s.voices.put i v)) i v :=
  ⟨Pool.put_same s.voices i v, fun j hj => Pool.put_other s.voices i j v hj⟩

/-- A command that leaves the pool as it was changes nothing but the output transfer. -/
theorem State.command_voices_self (s : State) : s.command s.voices = { s with out := none } := rfl

/-- The frequency of R73, for a pitch map that gives no NaN. -/
theorem Osc.setFrequency_of_not_isNaN (o : Osc) {f : F32} (h : F32.isNaN f = false) :
    o.setFrequency f = { o with frequency := F32.clamp f F32.zero (F32.div o.sampleRate 0x40000000#32) } :=
  if_neg (Bool.eq_false_iff.1 h)

/-- Settles O12: the first scan finds the voice, which is put back with its envelope triggered. -/
theorem noteOnRetriggersTheHolder : Obligations.NoteOnRetriggersTheHolder := by
  intro s n i ha hn hfirst
  refine ⟨_, exec_noteOn n s, State.command_keeps_ports s _, ?_⟩
  rw [Pool.noteOn_of_holder s.cfg (Pool.holder_eq_some_of_first ha hn hfirst)]
  exact State.command_put_onlyVoice s i _

/-- Settles O13: the first scan finds no voice and the second this one, which is put back with the note. -/
theorem noteOnAllocatesTheFirstFreeVoice : Obligations.NoteOnAllocatesTheFirstFreeVoice := by
  intro s n i hpitch hnone hfree hbefore
  have hfirst : s.voices.firstFree = some i := (s.voices.firstFree_some i).2 ⟨hfree, hbefore⟩
  refine ⟨_, exec_noteOn n s, State.command_keeps_ports s _, ?_⟩
  rw [Pool.noteOn_of_firstFree s.cfg (Pool.holder_eq_none_of_forall hnone) hfirst, Voice.allocate,
    Osc.setFrequency_of_not_isNaN _ hpitch]
  exact State.command_put_onlyVoice s i _

/-- Settles O14: neither scan finds a voice. -/
theorem noteOnIsDroppedWhenThePoolIsFull : Obligations.NoteOnIsDroppedWhenThePoolIsFull := by
  intro s n h
  have hnone : s.voices.holder n = none := Pool.holder_eq_none_of_forall fun j hj => (h j).2 hj.2
  have hfull : s.voices.firstFree = none := s.voices.firstFree_none.2 fun j => (h j).1
  rw [ChangesNothing, exec_noteOn, Pool.noteOn_of_full s.cfg hnone hfull, State.command_voices_self]

/-- Settles O15: the scan finds the voice, which is put back with its envelope released, or it finds none. -/
theorem noteOffReleasesTheHolder : Obligations.NoteOffReleasesTheHolder := by
  refine ⟨fun s n i ha hn hfirst => ?holder, fun s n hnone => ?noHolder⟩
  case holder =>
    refine ⟨_, exec_noteOff n s, State.command_keeps_ports s _, ?_⟩
    rw [Pool.noteOff_of_holder (Pool.holder_eq_some_of_first ha hn hfirst)]
    exact State.command_put_onlyVoice s i _
  case noHolder =>
    rw [ChangesNothing, exec_noteOff, Pool.noteOff_of_no_holder (Pool.holder_eq_none_of_forall hnone),
      State.command_voices_self]

end Sys2Proof.Machine

namespace Sys2Proof.F32

/-! ### Sums with a zero (R11) -/

/-- Only a zero can have a sign that its value does not show. -/
theorem sign_of_value_ne_zero {x : F32} (h : value x ≠ 0) : sign x = decide (value x < 0) := by
  have hmag : mag x ≠ 0 := fun h0 => h ((isZero_iff_value x).1 (decide_eq_true h0))
  rw [Bool.eq_iff_iff, decide_eq_true_eq, value_neg_iff, and_iff_left hmag]

/-- A sum that is a binary32 value is exact; where it is zero, it is +0.0. -/
theorem add_of_representable {a b r : F32} (ha : isFinite a = true) (hb : isFinite b = true) (hr : isNaN r = false)
    (hneg : r ≠ negZero) (hnz : ¬(a = negZero ∧ b = negZero)) (h : value r = value a + value b) : add a b = r := by
  by_cases h0 : value a + value b = 0
  · have hsign : sign r = false := Bool.eq_false_iff.2 fun hs => hneg ((eq_negZero_iff r).2 ⟨hs, h.trans h0⟩)
    rw [add_eq_zero a b ha hb h0, if_neg hnz]
    exact eq_of_sign_of_value hsign.symm (by rw [h, h0, value_zero])
  · refine eq_of_sign_of_value ?_ ?_
    · rw [sign_add a b ha hb h0, ← h, sign_of_value_ne_zero (h ▸ h0)]
    · rw [(add_finite a b ha hb).2, ← h, roundInt_value r hr]

theorem add_zero_right {x : F32} (hx : isNaN x = false) (hneg : x ≠ negZero) : add x zero = x := by
  rcases isFinite_or_isInf x hx with hf | hi
  · exact add_of_representable hf (by decide) hx hneg (fun h => hneg h.1) (by rw [value_zero, Int.add_zero])
  · exact add_inf_left x zero hi (by decide)

theorem add_zero_left {x : F32} (hx : isNaN x = false) (hneg : x ≠ negZero) : add zero x = x := by
  rcases isFinite_or_isInf x hx with hf | hi
  · exact add_of_representable (by decide) hf hx hneg (fun h => hneg h.2) (by rw [value_zero, Int.zero_add])
  · exact add_inf zero x (by decide) hi

theorem add_zero_negZero : add zero negZero = zero := by decide +kernel

/-- `z` is what is left of `y` in a sum of it with +0.0: every value but -0.0 itself, -0.0 as +0.0, a NaN as some
NaN (R117, R11). -/
def IsSumWithZeros (y z : F32) : Prop :=
  (isNaN y = false → y ≠ negZero → z = y) ∧ (y = negZero → z = zero) ∧ (isNaN y = true → isNaN z = true)

theorem isSumWithZeros_zero_add (y : F32) : IsSumWithZeros y (add zero y) :=
  ⟨add_zero_left, fun h => h ▸ add_zero_negZero, fun h => isNaN_add zero y (.inr h)⟩

/-- One more +0.0 changes nothing: the sum so far is no -0.0. -/
theorem IsSumWithZeros.add_zero {y z : F32} (h : IsSumWithZeros y z) : IsSumWithZeros y (add z zero) := by
  obtain ⟨hvalue, hneg, hnan⟩ := h
  refine ⟨fun hy hyz => ?value, fun hy => ?negZero, fun hy => isNaN_add z zero (.inl (hnan hy))⟩
  case value => rw [hvalue hy hyz, add_zero_right hy hyz]
  case negZero => rw [hneg hy, add_zero_right (by decide) (by decide)]

/-- The fold of R117 over terms that are all +0.0 but one. -/
theorem isSumWithZeros_foldl {ι : Type} (f : ι → F32) (before after : List ι) (i : ι)
    (hbefore : ∀ j ∈ before, f j = zero) (hafter : ∀ j ∈ after, f j = zero) :
    IsSumWithZeros (f i) ((before ++ i :: after).foldl (fun acc j => add acc (f j)) zero) := by
  have hzero : before.foldl (fun acc j => add acc (f j)) zero = zero :=
    before.foldlRecOn (motive := (· = zero)) _ rfl fun acc hacc j hj => by
      rw [hacc, hbefore j hj, add_zero_right (by decide) (by decide)]
  rw [List.foldl_append, List.foldl_cons, hzero]
  exact after.foldlRecOn (motive := IsSumWithZeros (f i)) _ (isSumWithZeros_zero_add (f i)) fun acc hacc j hj => by
    rw [hafter j hj]
    exact hacc.add_zero

end Sys2Proof.F32

namespace Sys2Proof.Machine

/-! ### The output sum of one voice (R117) -/

theorem Voice.process_of_inactive (c : Config) (d : F32) {v : Voice} (ha : v.active = false) :
    v.process c d = (v, F32.zero) := by
  rcases v.process_cases c d with ⟨-, h⟩ | ⟨hact, -, -⟩ | ⟨hact, -, -⟩
  · exact h
  · exact absurd (ha.symm.trans hact) nofun
  · exact absurd (ha.symm.trans hact) nofun

theorem Pool.voiceOut_of_inactive (c : Config) (t : Nat) {vs : Pool} {j : VoiceIx}
    (ha : (vs.voice j).active = false) : vs.voiceOut c t j = F32.zero := by
  rw [Pool.voiceOut, Voice.process_of_inactive _ _ ha]

/-- The scan order of the pool, cut at one voice. -/
theorem voiceIxs_split (i : VoiceIx) :
    ∃ before after, voiceIxs = before ++ i :: after ∧ (∀ j ∈ before, j ≠ i) ∧ ∀ j ∈ after, j ≠ i := by
  obtain ⟨before, after, hsplit⟩ := List.append_of_mem (List.mem_finRange i)
  have hnodup : (i :: (before ++ after)).Nodup := List.nodup_middle.1 (hsplit ▸ List.nodup_finRange 16)
  have hne : ∀ j ∈ before ++ after, j ≠ i := fun j hj he => (List.nodup_cons.1 hnodup).1 (he ▸ hj)
  exact ⟨before, after, hsplit, fun j hj => hne j (List.mem_append_left _ hj),
    fun j hj => hne j (List.mem_append_right _ hj)⟩

theorem Pool.mix_of_one_voice (c : Config) (t : Nat) {vs : Pool} {i : VoiceIx}
    (hsilent : ∀ j : VoiceIx, j ≠ i → (vs.voice j).active = false) :
    F32.IsSumWithZeros (vs.voiceOut c t i) (vs.mix c t) := by
  obtain ⟨before, after, hsplit, hbefore, hafter⟩ := voiceIxs_split i
  have hout : ∀ j : VoiceIx, j ≠ i → vs.voiceOut c t j = F32.zero := fun j hj =>
    Pool.voiceOut_of_inactive c t (hsilent j hj)
  rw [Pool.mix, hsplit]
  exact F32.isSumWithZeros_foldl (vs.voiceOut c t) before after i (fun j hj => hout j (hbefore j hj))
    fun j hj => hout j (hafter j hj)

/-- Settles O31: the other 15 voices add +0.0, before and after the one that sounds. -/
theorem sampleOfOneVoiceIsItsOutput : Obligations.SampleOfOneVoiceIsItsOutput := by
  rintro s i y hsilent rfl
  exact ⟨s.sample, _, exec_sample s, State.sample_out s, Pool.mix_of_one_voice s.cfg s.noiseTick hsilent⟩

end Sys2Proof.Machine

/-! SUPPORT. The operation words one by one (45_commands.md): a step on a word (R120), the parameter words, each of
which does to every voice what its parameter does to one (R123 to R132), and SAMPLE (R133). -/

namespace Sys2Proof.F32

/-- What R111 refuses as a sample rate. -/
theorem isRate_eq_false {x : F32} (h : isNaN x = true ∨ isInf x = true ∨ le x zero = true) : isRate x = false := by
  rw [Bool.eq_false_iff]
  intro hx
  obtain ⟨hfin, hnan, -, -, hpos⟩ := isRate_spec x hx
  rcases h with h | h | h
  · cases hnan.symm.trans h
  · cases ((isFinite_iff x).1 hfin).2.symm.trans h
  · obtain ⟨-, -, hle⟩ := (le_iff x zero).1 h
    rw [value_zero] at hle
    omega

end Sys2Proof.F32

namespace Sys2Proof.Machine

/-! ### A step on a word (R120) -/

theorem step_of_word {s : State} {w : OpWord} {rest : List PortEvent} (h : s.inbox = .word w :: rest) :
    step s = stepWord w { s with inbox := rest } := by
  rw [step, h]

theorem stepWord_of_decode {w : OpWord} {i : Instr} (h : decode w = .ok i) (s : State) : stepWord w s = exec i s := by
  rw [stepWord, h]

/-- Settles O7: the word is taken, then performed by the rule of its instruction. -/
theorem stepPerformsTheDecodedInstruction : Obligations.StepPerformsTheDecodedInstruction := fun _ _ _ _ hs hw =>
  (step_of_word hs).trans (stepWord_of_decode hw _)

/-! ### A parameter word and its broadcast (R118) -/

theorem broadcasts_of_applyParam {i : Instr} {s : State} {p : Param} {f : Voice → Voice}
    (hexec : exec i s = .next (s.applyParam p)) (hf : ∀ v : Voice, v.applyParam s.cfg p = f v) : Broadcasts i s f :=
  ⟨s.applyParam p, hexec, s.command_keeps_ports _, fun k => (Pool.applyParam_get s.cfg s.voices p k).trans (hf _)⟩

/-- A parameter that no voice takes leaves the pool as it was. -/
theorem changesNothing_of_applyParam {i : Instr} {s : State} {p : Param} (hexec : exec i s = .next (s.applyParam p))
    (hkeep : ∀ v : Voice, v.applyParam s.cfg p = v) : ChangesNothing i s := by
  have hpool : s.voices.applyParam s.cfg p = s.voices :=
    Pool.ext_get _ _ fun k => (Pool.applyParam_get s.cfg s.voices p k).trans (hkeep _)
  rw [ChangesNothing, hexec, State.applyParam, hpool, State.command_voices_self]

/-! ### The envelope words (R123 to R127) -/

theorem Env.setStageValue_of_isNaN (e : Env) (st : Stage) {x : F32} (h : F32.isNaN x = true) :
    e.setStageValue st x = e := if_pos h

theorem Env.setStageValue_idle (e : Env) (x : F32) : e.setStageValue .idle x = e := ite_self e

theorem Env.setStageValue_attack (e : Env) {x : F32} (h : F32.isNaN x = false) :
    e.setStageValue .attack x = e.setAttackTime x := if_neg (Bool.eq_false_iff.1 h)

theorem Env.setStageValue_decay (e : Env) {x : F32} (h : F32.isNaN x = false) :
    e.setStageValue .decay x = e.setDecayTime x := if_neg (Bool.eq_false_iff.1 h)

theorem Env.setStageValue_sustain (e : Env) {x : F32} (h : F32.isNaN x = false) :
    e.setStageValue .sustain x = e.setSustain x := if_neg (Bool.eq_false_iff.1 h)

theorem Env.setStageValue_release (e : Env) {x : F32} (h : F32.isNaN x = false) :
    e.setStageValue .release x = e.setReleaseTime x := if_neg (Bool.eq_false_iff.1 h)

/-- A voice takes an envelope parameter in its envelope only (R110). -/
theorem Voice.applyParam_envelopeStage {c : Config} {v : Voice} {st : Stage} {x : F32} {e : Env}
    (h : v.env.setStageValue st x = e) : v.applyParam c (.envelopeStage st x) = { v with env := e } :=
  congrArg (fun e => { v with env := e }) h

theorem Voice.applyParam_envelopeStage_of_isNaN (c : Config) (v : Voice) (st : Stage) {x : F32}
    (h : F32.isNaN x = true) : v.applyParam c (.envelopeStage st x) = v :=
  Voice.applyParam_envelopeStage (v.env.setStageValue_of_isNaN st h)

/-- Settles O17: the stage Idle has no value to set (R91). -/
theorem setEnvIdleChangesNothing : Obligations.SetEnvIdleChangesNothing := fun x _ =>
  changesNothing_of_applyParam rfl fun v => Voice.applyParam_envelopeStage (v.env.setStageValue_idle x)

/-- Settles O18: each word sets its own time and the rate that goes with it (R89). -/
theorem setEnvTimesAreBroadcast : Obligations.SetEnvTimesAreBroadcast := fun _ s =>
  ⟨fun hx =>
    ⟨broadcasts_of_applyParam rfl fun v => Voice.applyParam_envelopeStage (v.env.setStageValue_attack hx),
      broadcasts_of_applyParam rfl fun v => Voice.applyParam_envelopeStage (v.env.setStageValue_decay hx),
      broadcasts_of_applyParam rfl fun v => Voice.applyParam_envelopeStage (v.env.setStageValue_release hx)⟩,
    fun hx =>
    ⟨changesNothing_of_applyParam rfl fun v => v.applyParam_envelopeStage_of_isNaN s.cfg .attack hx,
      changesNothing_of_applyParam rfl fun v => v.applyParam_envelopeStage_of_isNaN s.cfg .decay hx,
      changesNothing_of_applyParam rfl fun v => v.applyParam_envelopeStage_of_isNaN s.cfg .release hx⟩⟩

/-- Settles O19: the word sets the sustain level (R90), the level of the envelope is another register. -/
theorem setEnvSustainIsBroadcast : Obligations.SetEnvSustainIsBroadcast := fun _ s =>
  ⟨fun hx => broadcasts_of_applyParam rfl fun v => Voice.applyParam_envelopeStage (v.env.setStageValue_sustain hx),
    fun hx => changesNothing_of_applyParam rfl fun v => v.applyParam_envelopeStage_of_isNaN s.cfg .sustain hx⟩

/-! ### The selector words (R128, R129) -/

theorem Voice.applyParam_waveform (c : Config) (v : Voice) (w : Waveform) :
    v.applyParam c (.waveform w) = { v with osc := { v.osc with waveform := w } } := rfl

theorem Voice.applyParam_filterMode (c : Config) (v : Voice) (m : FilterMode) :
    v.applyParam c (.filterMode m) = { v with flt := { v.flt with mode := m } } := rfl

/-- Settles O20: five words for the five values of one parameter. -/
theorem setWaveIsBroadcast : Obligations.SetWaveIsBroadcast := fun s =>
  ⟨broadcasts_of_applyParam rfl fun v => v.applyParam_waveform s.cfg .sine,
    broadcasts_of_applyParam rfl fun v => v.applyParam_waveform s.cfg .square,
    broadcasts_of_applyParam rfl fun v => v.applyParam_waveform s.cfg .triangle,
    broadcasts_of_applyParam rfl fun v => v.applyParam_waveform s.cfg .sawtooth,
    broadcasts_of_applyParam rfl fun v => v.applyParam_waveform s.cfg .noise⟩

/-- Settles O21: three words for the three values of one parameter. -/
theorem setFmodeIsBroadcast : Obligations.SetFmodeIsBroadcast := fun s =>
  ⟨broadcasts_of_applyParam rfl fun v => v.applyParam_filterMode s.cfg .lowpass,
    broadcasts_of_applyParam rfl fun v => v.applyParam_filterMode s.cfg .highpass,
    broadcasts_of_applyParam rfl fun v => v.applyParam_filterMode s.cfg .bandpass⟩

/-! ### The filter coefficient words (R130, R131) -/

theorem Flt.setCutoff_of_isNaN (c : Config) (f : Flt) {x : F32} (h : F32.isNaN x = true) : f.setCutoff c x = f :=
  if_pos h

theorem Flt.setCutoff_of_not_isNaN (c : Config) (f : Flt) {x : F32} (h : F32.isNaN x = false) :
    f.setCutoff c x = { f with
      cutoff := F32.clamp x Config.cMin Config.cMax
      feedback := feedbackOf c (F32.clamp x Config.cMin Config.cMax) f.resonance } :=
  if_neg (Bool.eq_false_iff.1 h)

theorem Flt.setResonance_of_isNaN (c : Config) (f : Flt) {x : F32} (h : F32.isNaN x = true) :
    f.setResonance c x = f :=
  if_pos h

theorem Flt.setResonance_of_not_isNaN (c : Config) (f : Flt) {x : F32} (h : F32.isNaN x = false) :
    f.setResonance c x = { f with
      resonance := F32.clamp x F32.zero F32.one
      feedback := feedbackOf c f.cutoff (F32.clamp x F32.zero F32.one) } :=
  if_neg (Bool.eq_false_iff.1 h)

theorem Voice.applyParam_cutoff {c : Config} {v : Voice} {x : F32} {f : Flt} (h : v.flt.setCutoff c x = f) :
    v.applyParam c (.cutoff x) = { v with flt := f } :=
  congrArg (fun f => { v with flt := f }) h

theorem Voice.applyParam_resonance {c : Config} {v : Voice} {x : F32} {f : Flt} (h : v.flt.setResonance c x = f) :
    v.applyParam c (.resonance x) = { v with flt := f } :=
  congrArg (fun f => { v with flt := f }) h

/-- Settles O22: the feedback is that of the new cutoff and the kept resonance (R99). -/
theorem setCutoffIsBroadcast : Obligations.SetCutoffIsBroadcast := fun _ s =>
  ⟨fun hx => broadcasts_of_applyParam rfl fun v => Voice.applyParam_cutoff (v.flt.setCutoff_of_not_isNaN s.cfg hx),
    fun hx => changesNothing_of_applyParam rfl fun v => Voice.applyParam_cutoff (v.flt.setCutoff_of_isNaN s.cfg hx)⟩

/-- Settles O23: the feedback is that of the kept cutoff and the new resonance (R99). -/
theorem setResIsBroadcast : Obligations.SetResIsBroadcast := fun _ s =>
  ⟨fun hx => broadcasts_of_applyParam rfl fun v =>
      Voice.applyParam_resonance (v.flt.setResonance_of_not_isNaN s.cfg hx),
    fun hx => changesNothing_of_applyParam rfl fun v =>
      Voice.applyParam_resonance (v.flt.setResonance_of_isNaN s.cfg hx)⟩

/-! ### The sample-rate word (R132) -/

theorem Voice.applySampleRate_of_not_isRate (v : Voice) {x : F32} (h : F32.isRate x = false) :
    v.applySampleRate x = v := if_neg (Bool.eq_false_iff.1 h)

theorem Osc.setSampleRate_of_pos (o : Osc) {x : F32} (h : F32.gt x F32.zero = true) :
    o.setSampleRate x = { o with sampleRate := x } := if_pos h

theorem Env.setSampleRate_of_pos (e : Env) {x : F32} (h : F32.gt x F32.zero = true) :
    e.setSampleRate x = { e with
      sampleRate := x
      attackRate := F32.mul e.attackTime x
      decayRate := F32.mul e.decayTime x
      releaseRate := F32.mul e.releaseTime x } := if_pos h

/-- An accepted rate resets the voice, and its oscillator and its envelope take the rate (R111). -/
theorem Voice.applySampleRate_of_isRate (v : Voice) {x : F32} (hfin : F32.isFinite x = true)
    (hpos : F32.gt x F32.zero = true) :
    v.applySampleRate x = { v.reset with
      osc := { v.osc.reset with sampleRate := x }
      env := { v.env.reset with
        sampleRate := x
        attackRate := F32.mul v.env.attackTime x
        decayRate := F32.mul v.env.decayTime x
        releaseRate := F32.mul v.env.releaseTime x } } := by
  have hrate : F32.isRate x = true := by rw [F32.isRate, hfin, hpos, Bool.and_self]
  rw [Voice.applySampleRate, if_pos hrate, Osc.setSampleRate_of_pos _ hpos, Env.setSampleRate_of_pos _ hpos]
  rfl

/-- Settles O24: every voice takes an accepted rate with its reset (R111, R119), none takes another operand. -/
theorem setSrateResetsEveryVoice : Obligations.SetSrateResetsEveryVoice := fun _ _ =>
  ⟨fun hfin hpos => broadcasts_of_applyParam rfl fun v => v.applySampleRate_of_isRate hfin hpos,
    fun hx => changesNothing_of_applyParam rfl fun v => v.applySampleRate_of_not_isRate (F32.isRate_eq_false hx)⟩

/-! ### SAMPLE (R133) -/

/-- Settles O29, by the branch of `voice_process` each voice takes (R106). -/
theorem sampleProcessesEveryVoice : Obligations.SampleProcessesEveryVoice := by
  intro s
  refine ⟨s.sample, s.voices.voiceOut s.cfg s.noiseTick, exec_sample s, State.sample_inbox s, State.sample_cfg s,
    State.sample_noiseTick s, State.sample_out s, fun i v hv => ?_⟩
  rw [State.sample_voices, Pool.advance_get, Pool.voiceOut, ← hv]
  refine ⟨fun ha => ?_, fun ha hidle => ?_, fun ha hrun ph smp hph hsmp => ?_⟩
  · rw [Voice.process_of_inactive _ _ ha]
    exact ⟨rfl, rfl⟩
  · rw [Voice.process_of_idle _ _ ha hidle]
    exact ⟨rfl, rfl⟩
  · subst hph hsmp
    rw [Voice.process_of_running _ _ ha hrun]
    exact ⟨rfl, rfl⟩

theorem Pool.advance_of_silent (c : Config) (t : Nat) {vs : Pool} (h : ∀ i : VoiceIx, (vs.voice i).active = false) :
    vs.advance c t = vs :=
  Pool.ext_get _ _ fun i => by rw [Pool.advance_get, Voice.process_of_inactive _ _ (h i)]

/-- The 16 outputs are +0.0, and so is each partial sum. -/
theorem Pool.mix_of_silent (c : Config) (t : Nat) {vs : Pool} (h : ∀ i : VoiceIx, (vs.voice i).active = false) :
    vs.mix c t = F32.zero :=
  List.foldl_fixed' (fun i => by
    rw [Pool.voiceOut_of_inactive c t (h i), F32.add_zero_right (by decide) (by decide)]) voiceIxs

/-- Settles O30: the pool of a silent SAMPLE is the one before it, and its sum is +0.0. -/
theorem sampleOfASilentPoolIsZero : Obligations.SampleOfASilentPoolIsZero := by
  intro s h
  rw [exec_sample, State.sample, Pool.advance_of_silent _ _ h, Pool.mix_of_silent _ _ h]

end Sys2Proof.Machine

/-! SUPPORT. The exceptional cases (60_exceptions.md): a step on empty ports (R152), every step's next state (R139), and
the ramps of the envelope at the rates 0.0 and +infinity (R141). -/

namespace Sys2Proof.Machine

/-! ### Every step completes (R139, R152) -/

theorem step_of_empty {s : State} (h : s.inbox = []) : step s = .next s.quiet := by
  rw [step, h]

/-- Settles O8: a wait, a reset and a reserved word answer a next state, and so does every instruction. -/
theorem everyStepCompletes : Obligations.EveryStepCompletes := by
  intro s
  rcases step_cases s with ⟨-, h⟩ | ⟨_, -, h⟩ | ⟨_, _, _, -, -, h⟩ | ⟨_, rest, i, -, -, h⟩
  · exact ⟨_, h⟩
  · exact ⟨_, h⟩
  · exact ⟨_, h⟩
  · obtain ⟨t, ht, -⟩ := exec_spec i { s with inbox := rest }
    exact ⟨t, h.trans ht⟩

/-- Settles O9: the block that waits only clears its output. -/
theorem emptyPortsHoldTheState : Obligations.EmptyPortsHoldTheState := fun _ => step_of_empty

end Sys2Proof.Machine

namespace Sys2Proof.F32

/-! ### The steps of the extreme rates (R141) -/

theorem div_one_zero : div one zero = 0x7F800000#32 := by decide +kernel

theorem div_one_infinity : div one 0x7F800000#32 = zero := by decide +kernel

theorem le_eq_false_of_lt {a b : F32} (h : lt a b = true) : le b a = false := by
  obtain ⟨-, -, hlt⟩ := (lt_iff a b).1 h
  exact Bool.eq_false_iff.2 fun hle => hlt.not_ge ((le_iff b a).1 hle).2.2

theorem add_zero_eq_ite {x : F32} (hx : isNaN x = false) : add x zero = if x = negZero then zero else x := by
  split
  · next h => subst h; decide +kernel
  · next h => exact add_zero_right hx h

/-- The subtrahend +0.0 is added as -0.0, which keeps a minuend of -0.0 too. -/
theorem sub_zero_right {x : F32} (hx : isFinite x = true) : sub x zero = x := by
  by_cases h : x = negZero
  · subst h; decide +kernel
  · exact add_of_representable hx (by decide) ((isFinite_iff x).1 hx).1 h (fun hz => h hz.1)
      (Int.add_zero (value x)).symm

theorem sub_infinity_le {a b : F32} (ha : isFinite a = true) (hb : isFinite b = true) :
    le (sub a 0x7F800000#32) b = true := by
  have hsub : sub a 0x7F800000#32 = 0xFF800000#32 := ((add_sub_infinities a _).2.1 ha (by decide)).2.trans (by decide)
  exact hsub ▸ F32.le_of_lt (finite_between_infinities b hb).2

end Sys2Proof.F32

namespace Sys2Proof.Machine

/-! ### The ramps at the extreme rates (R82, R83, R85, R141) -/

theorem isFinite_of_inRange_unit {x : F32} (h : inRange F32.zero F32.one x = true) : F32.isFinite x = true :=
  F32.isFinite_of_unit x ((inRange_iff _ _ _).1 h).1 ((inRange_iff _ _ _).1 h).2

theorem Env.attackStep_of_rate_zero {e : Env} (hl : F32.isFinite e.level = true) (hr : e.attackRate = F32.zero) :
    e.attackStep = { e with level := F32.one, stage := .decay } :=
  Env.attackStep_end (by rw [hr, F32.div_one_zero, F32.add_inf _ _ hl (by decide)]; decide +kernel)

theorem Env.attackStep_of_rate_infinity {e : Env} (hr : e.attackRate = 0x7F800000#32)
    (hlt : F32.lt e.level F32.one = true) :
    e.attackStep = { e with level := if e.level = F32.negZero then F32.zero else e.level } := by
  have hsum : F32.add e.level (F32.div F32.one e.attackRate) =
      if e.level = F32.negZero then F32.zero else e.level := by
    rw [hr, F32.div_one_infinity, F32.add_zero_eq_ite ((F32.lt_iff _ _).1 hlt).1]
  have hbelow : F32.lt (if e.level = F32.negZero then F32.zero else e.level) F32.one = true := by
    split
    · decide +kernel
    · exact hlt
  rw [← hsum] at hbelow ⊢
  exact Env.attackStep_ramp (F32.le_eq_false_of_lt hbelow)

theorem Env.decayStep_of_rate_zero {e : Env} (hl : F32.isFinite e.level = true)
    (hs : F32.isFinite e.sustainLevel = true) (hr : e.decayRate = F32.zero) :
    e.decayStep = { e with level := e.sustainLevel, stage := .sustain } :=
  Env.decayStep_end (by rw [hr, F32.div_one_zero]; exact F32.sub_infinity_le hl hs)

theorem Env.decayStep_of_rate_infinity {e : Env} (hl : F32.isFinite e.level = true)
    (hr : e.decayRate = 0x7F800000#32) (hgt : F32.gt e.level e.sustainLevel = true) : e.decayStep = e := by
  have hsub : F32.sub e.level (F32.div F32.one e.decayRate) = e.level := by
    rw [hr, F32.div_one_infinity, F32.sub_zero_right hl]
  rw [Env.decayStep_ramp (by rw [hsub]; exact F32.le_eq_false_of_lt hgt), hsub]

theorem Env.process_release_of_rate_zero {e : Env} (hstage : e.stage = .release) (hl : F32.isFinite e.level = true)
    (hr : e.releaseRate = F32.zero) : e.process = { e with level := F32.zero, stage := .idle } :=
  Env.process_release_end hstage (by rw [hr, F32.div_one_zero]; exact F32.sub_infinity_le hl (by decide))

theorem Env.releaseStep_of_rate_infinity {e : Env} (hl : F32.isFinite e.level = true)
    (hr : e.releaseRate = 0x7F800000#32) (hgt : F32.gt e.level F32.zero = true) : e.releaseStep = e := by
  have hsub : F32.sub e.level (F32.div F32.one e.releaseRate) = e.level := by
    rw [hr, F32.div_one_infinity, F32.sub_zero_right hl]
  rw [Env.releaseStep_ramp (by rw [hsub]; exact F32.le_eq_false_of_lt hgt), hsub]

/-- Settles O60, ramp by ramp: a step of +infinity passes every end, a step of 0.0 leaves a level short of its end
where it was, but for the sign of an Attack's -0.0. -/
theorem envelopeAtExtremeRates : Obligations.EnvelopeAtExtremeRates := by
  intro e hlevel hsustain
  have hl := isFinite_of_inRange_unit hlevel
  have hs := isFinite_of_inRange_unit hsustain
  refine ⟨fun hstage => ?attack, fun hstage => ?decay, fun hstage => ?release⟩
  case attack =>
    rw [Env.process_of_attack hstage]
    exact ⟨Env.attackStep_of_rate_zero hl, Env.attackStep_of_rate_infinity⟩
  case decay =>
    rw [Env.process_of_decay hstage]
    exact ⟨Env.decayStep_of_rate_zero hl hs, Env.decayStep_of_rate_infinity hl⟩
  case release =>
    exact ⟨Env.process_release_of_rate_zero hstage hl,
      fun hr hgt => (Env.process_of_release hstage).trans (Env.releaseStep_of_rate_infinity hl hr hgt)⟩

end Sys2Proof.Machine

/-! SUPPORT. Reset and hazards (70_reset_and_hazards.md): what `rst` leaves of the block (R153), the order of the
parameter words (R156), and the silence after a change of rate (R161). -/

namespace Sys2Proof

/-- The kind of the word that sets a parameter, by the numbers of `Instr.paramKind`; `exec_of_paramKind` ties the
two. -/
def Param.kind : Param → Option Nat
  | .envelopeStage st _ => (Instr.setEnv F32.zero st).paramKind
  | .waveform _         => some 5
  | .filterMode _       => some 6
  | .cutoff _           => some 7
  | .resonance _        => some 8
  | .sampleRate _       => none

end Sys2Proof

namespace Sys2Proof.Machine

/-! ### Two parameters in either order (R156) -/

/-- A word that has a kind broadcasts a parameter of that kind. -/
theorem exec_of_paramKind {i : Instr} {k : Nat} (h : i.paramKind = some k) :
    ∃ p, p.kind = some k ∧ ∀ s, exec i s = .next (s.applyParam p) := by
  rw [← h]
  cases i
  case noteOn | noteOff | setSrate | sample => cases h
  all_goals exact ⟨_, rfl, fun _ => rfl⟩

/-- The values of two stages stand in different registers, and each rate depends on its own time (R89, R90). -/
theorem Env.setStageValue_comm (e : Env) {st st' : Stage} (hne : st ≠ st') (x y : F32) :
    (e.setStageValue st x).setStageValue st' y = (e.setStageValue st' y).setStageValue st x := by
  by_cases hx : F32.isNaN x = true
  · rw [Env.setStageValue_of_isNaN _ _ hx, Env.setStageValue_of_isNaN _ _ hx]
  by_cases hy : F32.isNaN y = true
  · rw [Env.setStageValue_of_isNaN _ _ hy, Env.setStageValue_of_isNaN _ _ hy]
  simp only [Env.setStageValue, if_neg hx, if_neg hy]
  cases st <;> cases st'
  case idle.idle | attack.attack | decay.decay | sustain.sustain | release.release => exact absurd rfl hne
  all_goals rfl

/-- Either way the feedback is that of the new cutoff and the new resonance (R99). -/
theorem Flt.setResonance_setCutoff (c : Config) (f : Flt) (x y : F32) :
    (f.setCutoff c x).setResonance c y = (f.setResonance c y).setCutoff c x := by
  unfold Flt.setCutoff Flt.setResonance
  split <;> split <;> rfl

theorem Flt.setMode_setCutoff (c : Config) (f : Flt) (x : F32) (m : FilterMode) :
    (f.setCutoff c x).setMode m = (f.setMode m).setCutoff c x := by
  unfold Flt.setCutoff
  split <;> rfl

theorem Flt.setMode_setResonance (c : Config) (f : Flt) (x : F32) (m : FilterMode) :
    (f.setResonance c x).setMode m = (f.setMode m).setResonance c x := by
  unfold Flt.setResonance
  split <;> rfl

/-- Parameters of different components write apart; of one component, the envelope's stages and the filter's three
parameters commute among themselves. -/
theorem Voice.applyParam_comm (c : Config) (v : Voice) {p q : Param} {m n : Nat} (hp : p.kind = some m)
    (hq : q.kind = some n) (hne : m ≠ n) :
    (v.applyParam c p).applyParam c q = (v.applyParam c q).applyParam c p := by
  have hkind : p.kind ≠ q.kind := fun h => hne (Option.some.inj (hp.symm.trans (h.trans hq)))
  cases p with
  | sampleRate => cases hp
  | envelopeStage st x =>
    cases q with
    | sampleRate => cases hq
    | envelopeStage st' y =>
      have hst : st ≠ st' := fun h => hkind (by rw [h]; rfl)
      exact congrArg (fun e => { v with env := e }) (v.env.setStageValue_comm hst x y)
    | _ => rfl
  | waveform w =>
    cases q with
    | sampleRate => cases hq
    | waveform => exact absurd rfl hkind
    | _ => rfl
  | filterMode md =>
    cases q with
    | sampleRate => cases hq
    | filterMode => exact absurd rfl hkind
    | cutoff y => exact congrArg (fun f => { v with flt := f }) (v.flt.setMode_setCutoff c y md).symm
    | resonance y => exact congrArg (fun f => { v with flt := f }) (v.flt.setMode_setResonance c y md).symm
    | _ => rfl
  | cutoff x =>
    cases q with
    | sampleRate => cases hq
    | cutoff => exact absurd rfl hkind
    | filterMode md => exact congrArg (fun f => { v with flt := f }) (v.flt.setMode_setCutoff c x md)
    | resonance y => exact congrArg (fun f => { v with flt := f }) (v.flt.setResonance_setCutoff c x y)
    | _ => rfl
  | resonance x =>
    cases q with
    | sampleRate => cases hq
    | resonance => exact absurd rfl hkind
    | filterMode md => exact congrArg (fun f => { v with flt := f }) (v.flt.setMode_setResonance c x md)
    | cutoff y => exact congrArg (fun f => { v with flt := f }) (v.flt.setResonance_setCutoff c y x).symm
    | _ => rfl

theorem State.applyParam_comm (s : State) {p q : Param} {m n : Nat} (hp : p.kind = some m)
    (hq : q.kind = some n) (hne : m ≠ n) :
    (s.applyParam p).applyParam q = (s.applyParam q).applyParam p := by
  have hpool : (s.voices.applyParam s.cfg p).applyParam s.cfg q = (s.voices.applyParam s.cfg q).applyParam s.cfg p :=
    Pool.ext_get _ _ fun i => by simp only [Pool.applyParam_get, Voice.applyParam_comm s.cfg _ hp hq hne]
  simp only [State.applyParam, State.command_voices, State.command_cfg, State.command_command, hpool]

/-- Settles O27: the two words broadcast parameters of different kinds, which commute on each voice. -/
theorem parameterOrderDoesNotMatter : Obligations.ParameterOrderDoesNotMatter := by
  intro a b m n s ha hb hne
  obtain ⟨p, hp, hexecp⟩ := exec_of_paramKind ha
  obtain ⟨q, hq, hexecq⟩ := exec_of_paramKind hb
  refine ⟨s.applyParam p, s.applyParam q, (s.applyParam p).applyParam q, hexecp s, hexecq _, hexecq s, ?_⟩
  rw [hexecp, s.applyParam_comm hp hq hne]

/-! ### A change of rate (R161) -/

/-- Settles O25: the rate resets every voice, and a SAMPLE of a silent pool is +0.0 and keeps the pool. -/
theorem sampleAfterRateChangeIsSilent : Obligations.SampleAfterRateChangeIsSilent := by
  intro x s hfin hpos
  obtain ⟨t, ht, -, hvoice⟩ := (setSrateResetsEveryVoice x s).1 hfin hpos
  have hsilent : ∀ i : VoiceIx, (t.voices.voice i).active = false := fun i => by rw [hvoice i]
  exact ⟨t, _, ht, sampleOfASilentPoolIsZero t hsilent, hsilent, rfl, rfl⟩

/-! ### Reset (R153) -/

theorem step_of_rst {s : State} {rest : List PortEvent} (h : s.inbox = .rst :: rest) :
    step s = .next { s with inbox := rest }.takeReset := by
  rw [step, h]

/-- Settles O44: every voice of the pool that `rst` leaves is the constructed one. -/
theorem resetConstructsEveryVoice : Obligations.ResetConstructsEveryVoice := fun _ _ h =>
  ⟨_, step_of_rst h, State.takeReset_out _, State.takeReset_inbox _, State.takeReset_cfg _, fun i => by
    rw [State.takeReset_voices, Pool.build_get]
    rfl⟩

end Sys2Proof.Machine
